-- ==== Sys2Proof/Word.lean ====
section
/-! DEFINITION. The word types the spec treats as bits: the 32-bit command word and the 64-bit bus word. -/

namespace Sys2Proof

/-- A command word (R100): one 32-bit word, the only instruction format. -/
abbrev CmdWord := BitVec 32

/-- The data of one defined bus access (R72): 64 bits. -/
abbrev BusWord := BitVec 64

end Sys2Proof
end

