-- ==== Sys2Proof/Config.lean ====
section
/-! DEFINITION. What a build of the block fixes (R8) and the values the spec leaves free. -/

namespace Sys2Proof

/-- Parameter SQRT_ROOT (R197, D53): which of the two roots Sqrt returns. -/
inductive SqrtRoot where
  /-- The default: the root the loop of R194 computes. -/
  | loop
  /-- A draw from the two roots. -/
  | drawn
deriving DecidableEq, Repr

/-- Parameter POINT_FORMULAS (R210, D52): the triple of a Finite point result. -/
inductive PointFormulas where
  /-- The default: the triples of dbl-2009-l, add-2007-bl and madd-2007-bl (R211 to R213). -/
  | efd
  /-- A draw within the logical class of that triple. -/
  | drawn
deriving DecidableEq, Repr

/-- The build-time configuration (R8). `n` is N, the limbs of one element. RAND is not here: it is an input (R60). -/
structure Config where
  n : Nat
  p : Nat
  b : Nat
  gx : Nat
  gy : Nat
  r : Nat
  h : Nat
  nqr : Nat
  root : Nat
  base : Nat
  sqrtRoot : SqrtRoot
  pointFormulas : PointFormulas
deriving DecidableEq, Repr

/-- The configuration of every example of the spec (95_test_vectors.md §1.1), at BASE 0 and with both open parameters
at their defaults. -/
def Config.toy97 : Config where
  n := 1
  p := 97
  b := 4
  gx := 2
  gy := 20
  r := 31
  h := 3
  nqr := 5
  root := 28
  base := 0
  sqrtRoot := .loop
  pointFormulas := .efd

/-- The realistic configuration of the spec's examples (95_test_vectors.md §1.2), at BASE 0 and with both open
parameters at their defaults. -/
def Config.bn254 : Config where
  n := 4
  p := 21888242871839275222246405745257275088696311157297823662689037894645226208583
  b := 3
  gx := 1
  gy := 2
  r := 21888242871839275222246405745257275088548364400416034343698204186575808495617
  h := 1
  nqr := 3
  root := 21888242871839275222246405745257275088696311157297823662689037894645226208582
  base := 0
  sqrtRoot := .loop
  pointFormulas := .efd

/-! ### Free values

None has a body: nothing can be proved of what they give. Each is applied to the counter `State.draws`. -/

/-- A 64-bit word of RAND (R60, D51), where the state lists no further word of its input. -/
opaque Config.randWord : Nat → BusWord

/-- What a K-window read returns while the block is busy or not ready (R81). -/
opaque Config.busyRead : Nat → BusWord

/-- Under `SqrtRoot.drawn`, whether the other root is returned (R197). -/
opaque Config.rootChoice : Nat → Bool

/-- Under `PointFormulas.drawn`, which scaling of the triple is returned (R210). -/
opaque Config.pointScale : Nat → Nat

end Sys2Proof
end

