-- ==== Sys2Proof/Machine/FieldOps.lean ====
section
/-! DEFINITION. Field arithmetic on Montgomery representatives: the derived constants (R9), REDC and MontMul (R160,
R161), FieldAdd, FieldSub, FieldNeg (R163 to R165), Pow (R172), FieldInv (R190) and Sqrt (R194). Representatives and
scalars are natural numbers: the spec's operations on them are integer arithmetic (R12), and their width W depends on
the configuration. -/

namespace Sys2Proof

/-! ### Derived constants (R8, R9) -/

/-- W = 64·N. -/
def Config.w (c : Config) : Nat := 64 * c.n

/-- R = 2^W, the Montgomery radix. -/
def Config.radix (c : Config) : Nat := 2 ^ c.w

/-- One Newton step towards the inverse of the odd `p` modulo `m`: it doubles the number of correct low bits. -/
def newtonStep (p m x : Nat) : Nat := x * (2 + (m - p * x % m)) % m

/-- The inverse of the odd `p` modulo `m`, a power of two of at most 2048 bits: eleven Newton steps from 1. -/
def invPow2 (p m : Nat) : Nat := (newtonStep p m)^[11] 1

/-- The additive inverse modulo `m`. -/
def negMod (m x : Nat) : Nat := (m - x) % m

/-- INVW = (−p⁻¹) mod R (R160). -/
def Config.invW (c : Config) : Nat := negMod c.radix (invPow2 c.p c.radix)

/-- INV = (−p⁻¹) mod 2^64 (R9). -/
def Config.inv64 (c : Config) : Nat := negMod (2 ^ 64) (invPow2 c.p (2 ^ 64))

/-- RM = R mod p, the representative ONE (R9, R15). -/
def Config.rm (c : Config) : Nat := c.radix % c.p

/-- R2 = R² mod p. -/
def Config.r2 (c : Config) : Nat := c.radix ^ 2 % c.p

/-- R3 = R³ mod p. -/
def Config.r3 (c : Config) : Nat := c.radix ^ 3 % c.p

/-- The number of times 2 divides the second argument, looking at no more than the first argument's many bits. -/
def twoAdic : Nat → Nat → Nat
  | 0, _ => 0
  | k + 1, x => if x % 2 = 0 then twoAdic k (x / 2) + 1 else 0

/-- s of p − 1 = 2^s·t with t odd (R9). -/
def Config.s (c : Config) : Nat := twoAdic c.w (c.p - 1)

/-- t of p − 1 = 2^s·t with t odd (R9). -/
def Config.t (c : Config) : Nat := (c.p - 1) / 2 ^ c.s

/-- TM1H = (t − 1)/2. -/
def Config.tm1h (c : Config) : Nat := (c.t - 1) / 2

/-- PM1H = (p − 1)/2. -/
def Config.pm1h (c : Config) : Nat := (c.p - 1) / 2

/-- `x ^ e mod m` by squaring, for an exponent of at most the given number of bits. -/
def powMod (m x : Nat) : Nat → Nat → Nat
  | 0, _ => 1 % m
  | k + 1, e =>
    if e = 0 then 1 % m
    else
      let half := powMod m x k (e / 2)
      if e % 2 = 1 then half * half % m * x % m else half * half % m

/-- NQRT = nqr^t mod p (R9). -/
def Config.nqrt (c : Config) : Nat := powMod c.p c.nqr c.w c.t

/-- mont(v) = v·R mod p, the representative of a standard residue (R14). -/
def Config.mont (c : Config) (v : Nat) : Nat := v * c.radix % c.p

/-! ### REDC and the operators ⊗, ⊕, ⊖ (R15) -/

/-- REDC (R160). -/
def redc (c : Config) (x : Nat) : Nat :=
  let m := x % c.radix * c.invW % c.radix
  let u := (x + m * c.p) / c.radix
  if c.p ≤ u then u - c.p else u

/-- MontMul (R161). -/
def montMul (c : Config) (a b : Nat) : Nat := redc c (a * b)

/-- sq(x) = x ⊗ x (R15). -/
def sq (c : Config) (a : Nat) : Nat := montMul c a a

/-- FieldAdd (R163). -/
def fieldAdd (c : Config) (a b : Nat) : Nat :=
  if c.p ≤ a + b then a + b - c.p else a + b

/-- FieldSub (R164). -/
def fieldSub (c : Config) (a b : Nat) : Nat :=
  if b ≤ a then a - b else a + c.p - b

/-- FieldNeg (R165). -/
def fieldNeg (c : Config) (a : Nat) : Nat :=
  if a = 0 then 0 else c.p - a

/-- std(m) = val(m) = m·R⁻¹ mod p (R14), computed as FROMM does, MontMul(m, 1) (R134). -/
def std (c : Config) (a : Nat) : Nat := montMul c a 1

/-! ### Pow, FieldInv and Sqrt -/

/-- The loop of Pow (R172) over bits `i - 1` down to 0 of `e`. -/
def powLoop (c : Config) (a e : Nat) : Nat → Nat → Bool → Nat
  | 0, res, _ => res
  | i + 1, res, found =>
    let squared := if found then montMul c res res else res
    if e.testBit i then powLoop c a e i (montMul c squared a) true
    else powLoop c a e i squared found

/-- Pow(a, e) over the W bits of `e`, most significant first (R172). -/
def fieldPow (c : Config) (a e : Nat) : Nat := powLoop c a e c.w c.rm false

/-- a⁻¹ mod p, the integer inverse. R190 leaves the method free (90_conflicts.md C5): here a^(p − 2) mod p.
DEDUCED: notes/assumptions/17.md. -/
def modInverse (c : Config) (a : Nat) : Nat := powMod c.p a c.w (c.p - 2)

/-- FieldInv (R190), `none` where it raises INV_ZERO. -/
def fieldInv? (c : Config) (a : Nat) : Option Nat :=
  if a = 0 then none else some (montMul c (modInverse c a) c.r3)

/-- The inner loop of Sqrt (R194): from `m` and b2m, square until ONE is met or `m` has grown by the first argument,
which is v − m. It answers the final `m`. -/
def orderLoop (c : Config) : Nat → Nat → Nat → Nat
  | 0, m, _ => m
  | k + 1, m, b2m => if b2m = c.rm then m else orderLoop c k (m + 1) (montMul c b2m b2m)

/-- `repeat n times : w <- MontMul(w, w)`. -/
def squareTimes (c : Config) : Nat → Nat → Nat
  | 0, x => x
  | k + 1, x => squareTimes c k (montMul c x x)

/-- The outer loop of Sqrt (R194), `none` where it raises NOT_A_RESIDUE. The first argument bounds the passes: `v` falls
in every pass that does not fail (R195), so s + 1 is never used up. -/
def sqrtLoop (c : Config) : Nat → (v z x b : Nat) → Option Nat
  | 0, _, _, _, _ => none
  | k + 1, v, z, x, b =>
    if b = c.rm then some x
    else
      let m := orderLoop c v 0 b
      if m = v then none
      else
        let w := squareTimes c (v - m - 1) z
        let z' := montMul c w w
        sqrtLoop c k m z' (montMul c x w) (montMul c b z')

/-- Sqrt (R194), `none` where it raises NOT_A_RESIDUE. The loop's z starts at mont(NQRT): `Config.nqrt` is NQRT,
nqr^t mod p (R9). -/
def fieldSqrt? (c : Config) (a : Nat) : Option Nat :=
  if a = 0 then some 0
  else
    let w := fieldPow c a c.tm1h
    let x := montMul c a w
    sqrtLoop c (c.s + 1) c.s (c.mont c.nqrt) x (montMul c x w)

/-- The quadratic-residue test of FQRT (R193). -/
def isResidue (c : Config) (a : Nat) : Bool :=
  a == 0 || fieldPow c a c.pm1h == c.rm

/-! ### Admissible configurations (R8) -/

/-- The constraints of R8 on the numbers themselves: the ranges, the generator on the curve, Euler's criterion on nqr and
the order of root. They are what the arithmetic needs; the whole of R8 is `Config.Valid` (Safety.lean), and a step asks it
all (`Config.obeysR8`, R10). -/
def Config.admissible (c : Config) : Bool :=
  decide (1 ≤ c.n ∧ c.n ≤ 32) &&
  decide (2 ^ (c.w - 64) ≤ c.p ∧ c.p < c.radix ∧ 5 ≤ c.p ∧ c.p % 2 = 1) &&
  decide (1 ≤ c.b ∧ c.b < c.p) &&
  decide (c.gx < c.p ∧ c.gy < c.p ∧ c.gy ^ 2 % c.p = (c.gx ^ 3 + c.b) % c.p) &&
  decide (2 ≤ c.r ∧ c.r < c.radix) &&
  decide (1 ≤ c.h ∧ c.h < c.radix) &&
  decide (1 ≤ c.nqr ∧ c.nqr < c.p ∧ powMod c.p c.nqr c.w c.pm1h = c.p - 1) &&
  decide (c.root < c.p ∧ powMod c.p c.root (c.s + 1) (2 ^ c.s) = 1 ∧ powMod c.p c.root c.s (2 ^ (c.s - 1)) ≠ 1) &&
  decide (c.base % 0x2000 = 0)

end Sys2Proof
end

