-- ==== Sys2Proof/Machine/State.lean ====
section
/-! DEFINITION. The state of the block: the register files F, P and K (R31, R33, R35), the control and status registers
(R40 to R54), the pending command (R55), the accept snapshot (R302), the configuration a model takes as its argument
(R8), and the model's own fields: the inputs that stand before the block and the data its last bus read returned. The
block has no memory and no program counter (R70, R38), so no field holds either. -/

namespace Sys2Proof.Machine

/-- A point register: three representatives, the Jacobian coordinates (R33). -/
structure Point where
  x : Nat
  y : Nat
  z : Nat
deriving DecidableEq, Repr

/-- The three register files (R36). F and P hold representatives (R32, R34), K unsigned W-bit integers (R35). -/
structure Files where
  f : Vector Nat 16
  p : Vector Point 16
  k : Vector Nat 16
deriving DecidableEq, Repr

/-- CTRL (R44). Its other bits are RES0. -/
structure Ctrl where
  ieDone : Bool
  ieErr : Bool
deriving DecidableEq, Repr

/-- STATUS (R45). Its other bits are RES0. The INIT state of R61 is `ready = false`. -/
structure Status where
  busy : Bool
  done : Bool
  fail : Bool
  hzd : Bool
  accErr : Bool
  ready : Bool
deriving DecidableEq, Repr

/-- FLAGS (R52). Its other bits are RES0. -/
structure Flags where
  t : Bool
  z : Bool
deriving DecidableEq, Repr

/-- Error categories (R310). -/
inductive Category where
  | none | invalidOperand | preconditionViolation | malformedInput | illegalCommand
deriving DecidableEq, Repr

/-- Error causes (R311). -/
inductive Cause where
  | none | illOpcode | illField | illIndex | invZero | notCanonical | notAResidue | maddNotNormalized
  | bnormInfinity | dcmpNotResidue | dcmpBadFlags
deriving DecidableEq, Repr

/-- ERR (R54). Its other bits are RES0. -/
structure ErrReg where
  cat : Category
  cause : Cause
  cmdw : CmdWord
deriving DecidableEq, Repr

/-- One input of the block: a bus access of the host, the reset input, or the host's silence, in which the engine takes
its turn (R309, R307). Addresses are bus addresses; `width` is the access width in bits (R72, R73). -/
inductive BusEvent where
  /-- The reset input is asserted (R340). -/
  | reset
  /-- A host read. -/
  | read (addr : Nat) (width : Nat)
  /-- A host write. -/
  | write (addr : Nat) (width : Nat) (value : BusWord)
  /-- The host makes no access; the engine's transition, if one is enabled, happens. -/
  | engine
deriving DecidableEq, Repr

/-- The machine's state. -/
structure State where
  /-- The build's configuration (R8): no step changes it. DESIGN CHOICE: that it stands here, notes/assumptions/1.md. -/
  cfg : Config
  /-- F, P and K. -/
  regs : Files
  /-- The register files as the last accept found them, which every source operand is read from (R302, R304).
  DESIGN CHOICE: its reset value, notes/assumptions/11.md. -/
  snapshot : Files
  ctrl : Ctrl
  status : Status
  /-- The word CMD reads back, zero-extended: the last accepted command (R53). -/
  cmd : CmdWord
  err : ErrReg
  flags : Flags
  /-- CUR, the pending command (R55). -/
  cur : Option CmdWord
  /-- Model's own: the inputs still to come, first one first. When it is empty, the engine has the turn.
  DESIGN CHOICE: notes/assumptions/5.md. -/
  inbox : List BusEvent
  /-- Model's own: the words RAND gives next (R60). When it is empty, `Config.randWord` gives them.
  DESIGN CHOICE: notes/assumptions/6.md. -/
  rand : List BusWord
  /-- Model's own: how many free values have been used. -/
  draws : Nat
  /-- Model's own: the data the block returned to the last host read it decoded. -/
  readData : BusWord
deriving DecidableEq, Repr

/-- Why a step can stop with a fault: it never does. Every failure the spec names completes its command with a code in
ERR, and every undefined access has an effect of its own (R300, R315). Safe: nothing is stopped that the hardware runs. -/
inductive Fault where
deriving DecidableEq, Repr

/-- Why a step can be refused. -/
inductive Refusal where
  /-- An instruction without a meaning. No arm of `exec` raises it. Safe. -/
  | notModelled (mnemonic : String)
  /-- Raised by `step`: the configuration breaks a constraint of R8, so it describes no hardware the spec
  covers, and the model refuses it (R10). Safe. -/
  | badConfig
deriving DecidableEq, Repr

/-- The constant O = (0, RM, 0) (R58). -/
def pointO (c : Config) : Point := ⟨0, c.rm, 0⟩

/-- The register files at reset (R31, R33, R35, R342). -/
def Files.atReset (c : Config) : Files where
  f := Vector.replicate 16 0
  p := Vector.replicate 16 (pointO c)
  k := Vector.replicate 16 0

/-- The block of configuration `c` right after reset (R342), with no input before it. DESIGN CHOICE: the values of
the snapshot and of the model's own fields, notes/assumptions/11.md and 12.md. -/
def State.resetWith (c : Config) : State where
  cfg := c
  regs := Files.atReset c
  snapshot := Files.atReset c
  ctrl := ⟨false, false⟩
  status := { busy := true, done := false, fail := false, hzd := false, accErr := false, ready := false }
  cmd := 0
  err := ⟨.none, .none, 0⟩
  flags := ⟨false, false⟩
  cur := none
  inbox := []
  rand := []
  draws := 0
  readData := 0

/-- The machine right after reset, in the configuration of the spec's examples (95_test_vectors.md §1.1). The spec leaves
the configuration open (R8, D50). DESIGN CHOICE: notes/assumptions/1.md. -/
def State.reset : State := State.resetWith Config.toy97

end Sys2Proof.Machine
end

