-- ==== Sys2Proof/Machine/Registers.lean ====
section
/-! DEFINITION. The control and status registers as the host reads and writes them: their 64-bit views (R43 to R54), the
W1C and RW writes (R39), the error codes (R310, R311) and the limbs of a scalar register (R76). -/

namespace Sys2Proof

/-- ID (R43): NLIMBS, VERSION 1, and 16 registers in each of F, P and K. -/
def Config.idWord (c : Config) : BusWord :=
  BitVec.ofNat 64 (c.n + 0x01 * 2 ^ 8 + 16 * 2 ^ 16 + 16 * 2 ^ 24 + 16 * 2 ^ 32)

namespace Machine

/-- Bit `i` of a register word: R12 numbers bits from the least significant. -/
def bitAt (v : Bool) (i : Nat) : Nat := if v then 2 ^ i else 0

/-- ERR.CAT (R310). -/
def Category.code : Category → Nat
  | .none => 0 | .invalidOperand => 1 | .preconditionViolation => 2 | .malformedInput => 3 | .illegalCommand => 4

/-- ERR.CAUSE (R311). -/
def Cause.code : Cause → Nat
  | .none => 0x00 | .illOpcode => 0x01 | .illField => 0x02 | .illIndex => 0x03
  | .invZero => 0x10 | .notCanonical => 0x11
  | .notAResidue => 0x20 | .maddNotNormalized => 0x21 | .bnormInfinity => 0x22
  | .dcmpNotResidue => 0x30 | .dcmpBadFlags => 0x31

/-- The category the table of R311 gives each cause. -/
def Cause.category : Cause → Category
  | .none => .none
  | .illOpcode | .illField | .illIndex => .illegalCommand
  | .invZero | .notCanonical => .invalidOperand
  | .notAResidue | .maddNotNormalized | .bnormInfinity => .preconditionViolation
  | .dcmpNotResidue | .dcmpBadFlags => .malformedInput

/-- CTRL as read (R44). -/
def Ctrl.word (v : Ctrl) : BusWord := BitVec.ofNat 64 (bitAt v.ieDone 0 + bitAt v.ieErr 1)

/-- A write of CTRL: bits 63:2 are RES0 (R44). -/
def Ctrl.ofWord (v : BusWord) : Ctrl := ⟨v.getLsbD 0, v.getLsbD 1⟩

/-- STATUS as read (R45). -/
def Status.word (v : Status) : BusWord :=
  BitVec.ofNat 64 (bitAt v.busy 0 + bitAt v.done 1 + bitAt v.fail 2 + bitAt v.hzd 3 + bitAt v.accErr 4 + bitAt v.ready 5)

/-- A write of STATUS: a 1 clears DONE, FAIL, HZD or ACCERR; BUSY, READY and RES0 ignore it (R39, R45). -/
def Status.writeOneToClear (s : Status) (v : BusWord) : Status :=
  { s with
    done := s.done && !v.getLsbD 1
    fail := s.fail && !v.getLsbD 2
    hzd := s.hzd && !v.getLsbD 3
    accErr := s.accErr && !v.getLsbD 4 }

/-- FLAGS as read (R52). -/
def Flags.word (v : Flags) : BusWord := BitVec.ofNat 64 (bitAt v.t 0 + bitAt v.z 1)

/-- ERR as read (R54): CAT in 3:0, CAUSE in 15:8, CMDW in 63:32. -/
def ErrReg.word (v : ErrReg) : BusWord :=
  BitVec.ofNat 64 (v.cat.code + v.cause.code * 2 ^ 8 + v.cmdw.toNat * 2 ^ 32)

/-- CMD as read: the last accepted word, zero-extended (R53). -/
def State.cmdReadWord (s : State) : BusWord := s.cmd.setWidth 64

/-- Limb `j` of a scalar, limb 0 least significant (R76). -/
def limbOf (k j : Nat) : BusWord := BitVec.ofNat 64 (k / 2 ^ (64 * j))

/-- The scalar with limb `j` replaced and the other limbs kept (R76). -/
def withLimb (k j : Nat) (v : BusWord) : Nat :=
  k / 2 ^ (64 * (j + 1)) * 2 ^ (64 * (j + 1)) + v.toNat * 2 ^ (64 * j) + k % 2 ^ (64 * j)

/-- Byte lane `q` of a bus word: bits 8q+7 to 8q, at byte address BASE + offset + q (R77). -/
def byteLane (v : BusWord) (q : Fin 8) : BitVec 8 := v.extractLsb' (8 * q.val) 8

/-- The IRQ output, a function of STATUS and CTRL (R320). -/
def State.irq (s : State) : Bool :=
  (s.status.done && s.ctrl.ieDone) || ((s.status.fail || s.status.hzd || s.status.accErr) && s.ctrl.ieErr)

/-- The INIT state (R61). -/
def State.inInit (s : State) : Bool := !s.status.ready

/-- While BUSY = 1 or READY = 0 the host may not touch CMD or the K window (R81, R301). -/
def Status.locked (s : Status) : Bool := s.busy || !s.ready

end Machine

end Sys2Proof
end

