-- ==== Sys2Proof/Syntax.lean ====
section
/-! DEFINITION. The command set: one constructor of `Instr` per row of spec/opcode_table.json (R107). -/

namespace Sys2Proof

/-- A field register operand `f0` to `f15` (R102 class `f`, R103: every 4-bit value names a register). -/
abbrev FReg := Fin 16

/-- A point register operand `p0` to `p15` (R102 class `p`). -/
abbrev PReg := Fin 16

/-- A scalar register operand `k0` to `k15` (R102 class `k`). -/
abbrev KReg := Fin 16

/-- FCONST selectors (R56), class `fsel`. -/
inductive FConst where
  | zero | one | coeffB | nqr | nqrToT | root
deriving DecidableEq, Repr

/-- KCONST selectors (R57), class `ksel`. -/
inductive KConst where
  | modulus | order | cofactor | s | t | tm1h | pm1h | inv | r2 | r3 | rm
deriving DecidableEq, Repr

/-- PCONST selectors (R58), class `psel`: the point at infinity O and the generator G. -/
inductive PConst where
  | o | g
deriving DecidableEq, Repr

/-- Coordinate selectors (R102 class `crd`). -/
inductive Coord where
  | x | y | z
deriving DecidableEq, Repr

/-- The 37 commands of R107, operands in the order of the fields D, A, B, C. -/
inductive Instr where
  /-- NOP (R130). -/
  | nop
  /-- FMOV fD, fA (R131). -/
  | fmov (d a : FReg)
  /-- FLDC fD, #fsel (R132). -/
  | fldc (d : FReg) (sel : FConst)
  /-- TOMONT fD, kA (R133). -/
  | tomont (d : FReg) (a : KReg)
  /-- FROMM kD, fA (R134). -/
  | fromm (d : KReg) (a : FReg)
  /-- FRAND fD (R175). -/
  | frand (d : FReg)
  /-- FADD fD, fA, fB (R167). -/
  | fadd (d a b : FReg)
  /-- FSUB fD, fA, fB (R168). -/
  | fsub (d a b : FReg)
  /-- FNEG fD, fA (R169). -/
  | fneg (d a : FReg)
  /-- FMUL fD, fA, fB (R170). -/
  | fmul (d a b : FReg)
  /-- FSQR fD, fA (R171). -/
  | fsqr (d a : FReg)
  /-- FINV fD, fA (R191). -/
  | finv (d a : FReg)
  /-- FPOW fD, fA, kB (R172). -/
  | fpow (d a : FReg) (b : KReg)
  /-- FSQRT fD, fA (R196). -/
  | fsqrt (d a : FReg)
  /-- FQRT fA (R193). -/
  | fqrt (a : FReg)
  /-- FEQ fA, fB (R173). -/
  | feq (a b : FReg)
  /-- FISZ fA (R174). -/
  | fisz (a : FReg)
  /-- PMOV pD, pA (R137). -/
  | pmov (d a : PReg)
  /-- PLDC pD, #psel (R138). -/
  | pldc (d : PReg) (sel : PConst)
  /-- PSET pD, fA, fB, fC (R139). -/
  | pset (d : PReg) (a b c : FReg)
  /-- PGET fD, pA, crd (R140). -/
  | pget (d : FReg) (a : PReg) (crd : Coord)
  /-- PADD pD, pA, pB (R214). -/
  | padd (d a b : PReg)
  /-- PMADD pD, pA, pB (R215). -/
  | pmadd (d a b : PReg)
  /-- PDBL pD, pA (R216). -/
  | pdbl (d a : PReg)
  /-- PNEG pD, pA (R217). -/
  | pneg (d a : PReg)
  /-- PSMUL pD, pA, kB (R241). -/
  | psmul (d a : PReg) (b : KReg)
  /-- PCOF pD, pA (R243). -/
  | pcof (d a : PReg)
  /-- PEQ pA, pB (R218). -/
  | peq (a b : PReg)
  /-- PISZ pA (R219). -/
  | pisz (a : PReg)
  /-- PWF pA (R220). -/
  | pwf (a : PReg)
  /-- PSSG pA (R245). -/
  | pssg (a : PReg)
  /-- PNORM pD, pA (R261). -/
  | pnorm (d a : PReg)
  /-- PBNORM pA, n (R262): `b` is the raw field B, the batch length is n = b + 1 (R102 class `cnt`). -/
  | pbnorm (a : PReg) (b : Fin 16)
  /-- PCOMP fD, pA, kB (R265): kB is a destination (R107). -/
  | pcomp (d : FReg) (a : PReg) (b : KReg)
  /-- PDCMP pD, fA, kB (R267): kB is a source (R107). -/
  | pdcmp (d : PReg) (a : FReg) (b : KReg)
  /-- KLDC kD, #ksel (R135). -/
  | kldc (d : KReg) (sel : KConst)
  /-- KMOV kD, kA (R136). -/
  | kmov (d a : KReg)
deriving DecidableEq, Repr

end Sys2Proof
end

