-- ==== Sys2Proof/Machine/Ops.lean ====
section
/-! DEFINITION. The named operations over the state: register reads and writes (R13, R36), the life of a command, which
is Accept (R302), Complete (R306) and, with it, the one way a command fails, reset and initialization (R340, R341), and
the draws of free values. The block has no memory (R70), takes no exception and returns from none (R300, R323, R324): a
failed command completes with its code in ERR, which is `State.complete` on `.fail`. -/

namespace Sys2Proof.Machine

/-! ### Failures (R310, R311) -/

/-- What `raise Fail(cat, cause)` carries (R16). -/
structure Failure where
  cat : Category
  cause : Cause
deriving DecidableEq, Repr

/-- The failure of a cause, with the category the table of R311 gives it. -/
def Cause.failure (c : Cause) : Failure := ⟨c.category, c⟩

/-! ### Register files -/

/-- F[i]. -/
def Files.readF (r : Files) (i : FReg) : Nat := r.f.get i
/-- P[i]. -/
def Files.readP (r : Files) (i : PReg) : Point := r.p.get i
/-- K[i]. -/
def Files.readK (r : Files) (i : KReg) : Nat := r.k.get i

/-- F[i] <- v. -/
def Files.writeF (r : Files) (i : FReg) (v : Nat) : Files := { r with f := r.f.set i v }
/-- P[i] <- q. -/
def Files.writeP (r : Files) (i : PReg) (q : Point) : Files := { r with p := r.p.set i q }
/-- K[i] <- v. -/
def Files.writeK (r : Files) (i : KReg) (v : Nat) : Files := { r with k := r.k.set i v }

/-- One register write that a command's execution collects (R304). -/
inductive RegWrite where
  | f (i : FReg) (v : Nat)
  | p (i : PReg) (q : Point)
  | k (i : KReg) (v : Nat)
deriving DecidableEq, Repr

/-- One collected write, applied. -/
def Files.apply (r : Files) : RegWrite → Files
  | .f i v => r.writeF i v
  | .p i q => r.writeP i q
  | .k i v => r.writeK i v

/-- All the collected writes of a command, applied together (R305). -/
def Files.applyAll (r : Files) (ws : List RegWrite) : Files := ws.foldl Files.apply r

/-! ### The life of a command -/

/-- How execution ends (R304): normally, with register writes and, for a test command, FLAGS, or with a failure. -/
inductive CmdOutcome where
  | ok (writes : List RegWrite) (flags : Option Flags)
  | fail (f : Failure)
deriving DecidableEq, Repr

/-- The word CUR holds; 0 stands where CUR is none, which no completion of the machine meets (R309).
DESIGN CHOICE: notes/assumptions/3.md. -/
def State.curWord (s : State) : CmdWord := s.cur.getD 0

/-- Complete (R306): commit, ERR, BUSY, DONE and CUR in one step. On a failure no register and no flag changes, and FAIL
is set (R305, R323). -/
def State.complete (s : State) : CmdOutcome → State
  | .ok writes flags =>
    { s with
      regs := s.regs.applyAll writes
      flags := flags.getD s.flags
      err := ⟨.none, .none, s.curWord⟩
      status := { s.status with busy := false, done := true }
      cur := none }
  | .fail f =>
    { s with
      err := ⟨f.cat, f.cause, s.curWord⟩
      status := { s.status with busy := false, done := true, fail := true }
      cur := none }

/-- Accept (R302). -/
def State.accept (s : State) (w : CmdWord) : State :=
  { s with
    cmd := w
    cur := some w
    status := { s.status with done := false, busy := true }
    snapshot := s.regs }

/-! ### Reset and initialization -/

/-- Reset (R340): every piece of the block's state takes its reset value (R342). The configuration and the inputs that
stand before the block are not the block's state and stay. DEDUCED: notes/assumptions/16.md. -/
def State.assertReset (s : State) : State :=
  { State.resetWith s.cfg with inbox := s.inbox, rand := s.rand, draws := s.draws, readData := s.readData }

/-- Initialization and its InitDone (R341): P[0] to P[15] are written to (0, RM, 0), READY is set, BUSY cleared. The
constants it derives are functions of the configuration. DEDUCED: notes/assumptions/15.md. -/
def State.initDone (s : State) : State :=
  { s with
    regs := { s.regs with p := Vector.replicate 16 (pointO s.cfg) }
    status := { s.status with ready := true, busy := false } }

/-! ### Free values -/

/-- The next free value is a fresh one. -/
def State.tick (s : State) : State := { s with draws := s.draws + 1 }

/-- draw64() (R60): the next word of RAND. -/
def State.drawWord (s : State) : BusWord × State :=
  match s.rand with
  | w :: rest => (w, { s with rand := rest })
  | [] => (Config.randWord s.draws, s.tick)

/-- The given number of draws, as the integer whose limbs they are, the first draw least significant (R175). -/
def State.drawLimbs (s : State) : Nat → Nat × State
  | 0 => (0, s)
  | k + 1 =>
    let first := s.drawWord
    let rest := first.2.drawLimbs k
    (first.1.toNat + 2 ^ 64 * rest.1, rest.2)

/-- The root Sqrt returns under the configuration's SQRT_ROOT (R197), from the root of R194.
DESIGN CHOICE: notes/assumptions/9.md. -/
def State.chooseRoot (s : State) (x : Nat) : Nat :=
  match s.cfg.sqrtRoot with
  | .loop => x
  | .drawn => if Config.rootChoice s.draws then fieldNeg s.cfg x else x

/-- The representative, neither 0 nor above p − 1, by which a drawn triple is scaled. -/
def drawnScale (c : Config) (i : Nat) : Nat := 1 + Config.pointScale i % (c.p - 1)

/-- (λ²X, λ³Y, λZ): another triple of the same logical point (R17). -/
def rescale (c : Config) (lam : Nat) (q : Point) : Point :=
  let l2 := sq c lam
  ⟨montMul c l2 q.x, montMul c (montMul c l2 lam) q.y, montMul c lam q.z⟩

/-- The triple of a point result under the configuration's POINT_FORMULAS (R210), from the triple of R211 to R213: a
draw concerns Finite results only. DESIGN CHOICE: notes/assumptions/10.md. -/
def State.choosePoint (s : State) (q : Point) : Point :=
  match s.cfg.pointFormulas with
  | .efd => q
  | .drawn => if q.z = 0 then q else rescale s.cfg (drawnScale s.cfg s.draws) q

end Sys2Proof.Machine
end

