-- ==== Sys2Proof/Machine/Bus.lean ====
section
/-! DEFINITION. The register window (spec/20_memory.md): where a bus access lands (R71 to R76), what a host read returns
and what a host write does (R39, R53, R73 to R81, R301). -/

namespace Sys2Proof.Machine

/-- The control and status registers (R40). -/
inductive Csr where
  | id | ctrl | status | cmd | err | flags
deriving DecidableEq, Repr

/-- The offset of a control or status register (R40). -/
def Csr.offset : Csr → Nat
  | .id => 0x000 | .ctrl => 0x008 | .status => 0x010 | .cmd => 0x018 | .err => 0x020 | .flags => 0x028

/-- The register at an offset below 0x1000, none in 0x0030 to 0x0FFF (R71). -/
def Csr.at? (off : Nat) : Option Csr :=
  match off with
  | 0x000 => some .id | 0x008 => some .ctrl | 0x010 => some .status
  | 0x018 => some .cmd | 0x020 => some .err | 0x028 => some .flags
  | _ => none

/-- What an access inside the window addresses. -/
inductive Target where
  | csr (r : Csr)
  /-- Limb `j` of K[i] (R76). -/
  | limb (i : KReg) (j : Nat)
  /-- A wrong width or alignment, or an undefined offset (R73, R74). -/
  | undefined
deriving DecidableEq, Repr

/-- The window holds 0x2000 bytes (R71). -/
def windowSize : Nat := 0x2000

/-- The offset of limb `j` of K[i] (R76). -/
def limbOffset (i : KReg) (j : Nat) : Nat := 0x1000 + 0x100 * i.val + 8 * j

/-- The offset a bus address has in the window at BASE, none outside it (R71, R89). -/
def windowOffset (c : Config) (addr : Nat) : Option Nat :=
  if c.base ≤ addr ∧ addr < c.base + windowSize then some (addr - c.base) else none

/-- What an access of a width, in bits, at an offset addresses (R72 to R76). -/
def locate (c : Config) (off width : Nat) : Target :=
  if width ≠ 64 ∨ off % 8 ≠ 0 then .undefined
  else if off < 0x1000 then
    match Csr.at? off with
    | some r => .csr r
    | none => .undefined
  else
    let j := off % 0x100 / 8
    if j < c.n then .limb (Fin.ofNat 16 ((off - 0x1000) / 0x100)) j else .undefined

/-- An access the window does not define (R50): ACCERR, and nothing else. -/
def State.accessError (s : State) : State := { s with status := { s.status with accErr := true } }

/-- A CMD or K-window write the block is not free for (R49): HZD, and nothing else. -/
def State.hazard (s : State) : State := { s with status := { s.status with hzd := true } }

/-- A control or status register as read (R43 to R54). -/
def State.readCsr (s : State) : Csr → BusWord
  | .id => s.cfg.idWord
  | .ctrl => s.ctrl.word
  | .status => s.status.word
  | .cmd => s.cmdReadWord
  | .err => s.err.word
  | .flags => s.flags.word

/-- The data a read of a target returns (R73, R74, R76, R81). DESIGN CHOICE: the free value, notes/assumptions/8.md. -/
def State.busValue (s : State) : Target → BusWord
  | .csr r => s.readCsr r
  | .limb i j => if s.status.locked then Config.busyRead s.draws else limbOf (s.regs.readK i) j
  | .undefined => 0

/-- What a read does to the block (R78): an undefined one sets ACCERR; a locked K-window one uses up a free value. -/
def State.afterRead (s : State) : Target → State
  | .csr _ => s
  | .limb _ _ => if s.status.locked then s.tick else s
  | .undefined => s.accessError

/-- A host read of a target, its data delivered. -/
def State.hostRead (s : State) (t : Target) : State := { s.afterRead t with readData := s.busValue t }

/-- Issue (R301): the word is bits 31:0 (R116); while busy or not ready it is discarded and HZD set. -/
def State.issue (s : State) (v : BusWord) : State :=
  if s.status.locked then s.hazard else s.accept (v.setWidth 32)

/-- A write of a control or status register (R39, R44, R45, R53, R75). -/
def State.writeCsr (s : State) (v : BusWord) : Csr → State
  | .id | .err | .flags => s.accessError
  | .ctrl => { s with ctrl := Ctrl.ofWord v }
  | .status => { s with status := s.status.writeOneToClear v }
  | .cmd => s.issue v

/-- A host write of a target (R73 to R76, R81). -/
def State.hostWrite (s : State) (v : BusWord) : Target → State
  | .csr r => s.writeCsr v r
  | .limb i j =>
    if s.status.locked then s.hazard
    else { s with regs := s.regs.writeK i (withLimb (s.regs.readK i) j v) }
  | .undefined => s.accessError

/-- A host read at a bus address; the block does not decode one outside its window (R89). DESIGN CHOICE:
notes/assumptions/13.md. -/
def State.busRead (s : State) (addr width : Nat) : State :=
  match windowOffset s.cfg addr with
  | none => s
  | some off => s.hostRead (locate s.cfg off width)

/-- A host write at a bus address; the block does not decode one outside its window (R89). -/
def State.busWrite (s : State) (addr width : Nat) (v : BusWord) : State :=
  match windowOffset s.cfg addr with
  | none => s
  | some off => s.hostWrite v (locate s.cfg off width)

end Sys2Proof.Machine
end

