-- ==== Sys2Proof/Machine/GroupOps.lean ====
section
/-! DEFINITION. The curve group on Jacobian triples of representatives: Dbl, Add and MAdd (R211 to R213), ScalarMul
(R240), Normalize (R260), BatchNorm (R263), Compress and Decompress (R264, R266), and the tests of R218, R220 and R244.
-/

namespace Sys2Proof.Machine

/-- isInf(P) (R17). -/
def isInf (q : Point) : Bool := q.z == 0

/-- The constant G (R58). -/
def pointG (c : Config) : Point := ⟨c.mont c.gx, c.mont c.gy, c.rm⟩

/-- The formula of Dbl on a Finite point (R211), dbl-2009-l for a = 0. -/
def dblFormula (c : Config) (q : Point) : Point :=
  let a := sq c q.x
  let b := sq c q.y
  let cc := sq c b
  let d0 := fieldSub c (fieldSub c (sq c (fieldAdd c q.x b)) a) cc
  let d := fieldAdd c d0 d0
  let e := fieldAdd c (fieldAdd c a a) a
  let f := sq c e
  let x3 := fieldSub c f (fieldAdd c d d)
  let c2 := fieldAdd c cc cc
  let c4 := fieldAdd c c2 c2
  let c8 := fieldAdd c c4 c4
  let y3 := fieldSub c (montMul c e (fieldSub c d x3)) c8
  let yz := montMul c q.y q.z
  ⟨x3, y3, fieldAdd c yz yz⟩

/-- Dbl (R211): an Infinity triple is returned unchanged. -/
def pointDbl (c : Config) (q : Point) : Point :=
  if q.z = 0 then q else dblFormula c q

/-- U1 = U2 and S1 = S2: X1·Z2² = X2·Z1² and Y1·Z2³ = Y2·Z1³ (R212, R218). -/
def crossEqual (c : Config) (q1 q2 : Point) : Bool :=
  montMul c q1.x (sq c q2.z) == montMul c q2.x (sq c q1.z) &&
    montMul c q1.y (montMul c q2.z (sq c q2.z)) == montMul c q2.y (montMul c q1.z (sq c q1.z))

/-- The formula of Add on two Finite points outside the doubling case (R212), add-2007-bl. -/
def addFormula (c : Config) (q1 q2 : Point) : Point :=
  let z1z1 := sq c q1.z
  let z2z2 := sq c q2.z
  let u1 := montMul c q1.x z2z2
  let u2 := montMul c q2.x z1z1
  let s1 := montMul c q1.y (montMul c q2.z z2z2)
  let s2 := montMul c q2.y (montMul c q1.z z1z1)
  let h := fieldSub c u2 u1
  let r0 := fieldSub c s2 s1
  let r := fieldAdd c r0 r0
  let i := sq c (fieldAdd c h h)
  let j := montMul c h i
  let v := montMul c u1 i
  let x3 := fieldSub c (fieldSub c (sq c r) j) (fieldAdd c v v)
  let sj := montMul c s1 j
  let y3 := fieldSub c (montMul c r (fieldSub c v x3)) (fieldAdd c sj sj)
  let z3 := montMul c (fieldSub c (fieldSub c (sq c (fieldAdd c q1.z q2.z)) z1z1) z2z2) h
  ⟨x3, y3, z3⟩

/-- Add (R212): the Infinity short-circuit first, then the doubling case, then the formula. -/
def pointAdd (c : Config) (q1 q2 : Point) : Point :=
  if q1.z = 0 then q2
  else if q2.z = 0 then q1
  else if crossEqual c q1 q2 then pointDbl c q1
  else addFormula c q1 q2

/-- The doubling test of MAdd (R213): X1 = U2 and Y1 = S2. -/
def mixedEqual (c : Config) (q1 q2 : Point) : Bool :=
  q1.x == montMul c q2.x (sq c q1.z) && q1.y == montMul c q2.y (montMul c q1.z (sq c q1.z))

/-- The formula of MAdd on two Finite points outside the doubling case (R213), madd-2007-bl. -/
def maddFormula (c : Config) (q1 q2 : Point) : Point :=
  let z1z1 := sq c q1.z
  let u2 := montMul c q2.x z1z1
  let s2 := montMul c q2.y (montMul c q1.z z1z1)
  let h := fieldSub c u2 q1.x
  let hh := sq c h
  let i2 := fieldAdd c hh hh
  let i := fieldAdd c i2 i2
  let j := montMul c h i
  let r0 := fieldSub c s2 q1.y
  let r := fieldAdd c r0 r0
  let v := montMul c q1.x i
  let x3 := fieldSub c (fieldSub c (fieldSub c (sq c r) j) v) v
  let yj := montMul c q1.y j
  let y3 := fieldSub c (fieldSub c (montMul c r (fieldSub c v x3)) yj) yj
  let z3 := fieldSub c (fieldSub c (sq c (fieldAdd c q1.z h)) z1z1) hh
  ⟨x3, y3, z3⟩

/-- MAdd (R213), `none` where it raises MADD_NOT_NORMALIZED: that check comes first. -/
def pointMAdd? (c : Config) (q1 q2 : Point) : Option Point :=
  if q2.z ≠ c.rm ∧ q2.z ≠ 0 then none
  else if q1.z = 0 then some q2
  else if q2.z = 0 then some q1
  else if mixedEqual c q1 q2 then some (pointDbl c q1)
  else some (maddFormula c q1 q2)

/-- PNEG's result (R217): the sign of Y flipped. -/
def pointNeg (c : Config) (q : Point) : Point := { q with y := fieldNeg c q.y }

/-- Logical equality (R218). -/
def pointEq (c : Config) (q1 q2 : Point) : Bool :=
  if q1.z = 0 then q2.z == 0
  else if q2.z = 0 then false
  else crossEqual c q1 q2

/-- The curve equation Y² = X³ + b·Z⁶, true of every Infinity triple (R220). -/
def onCurve (c : Config) (q : Point) : Bool :=
  if q.z = 0 then true
  else
    let z2 := sq c q.z
    let z6 := sq c (montMul c q.z z2)
    sq c q.y == fieldAdd c (montMul c q.x (sq c q.x)) (montMul c (c.mont c.b) z6)

/-- The loop of ScalarMul (R240) over bits `i - 1` down to 0 of `k`. -/
def scalarLoop (c : Config) (k : Nat) (q : Point) : Nat → Point → Bool → Point
  | 0, res, _ => res
  | i + 1, res, found =>
    let doubled := if found then pointDbl c res else res
    if k.testBit i then scalarLoop c k q i (pointAdd c doubled q) true
    else scalarLoop c k q i doubled found

/-- ScalarMul(k, P) over the W bits of `k` (R240). -/
def scalarMul (c : Config) (k : Nat) (q : Point) : Point :=
  scalarLoop c k q c.w (pointO c) false

/-- InSub (R244). -/
def inSubgroup (c : Config) (q : Point) : Bool := isInf (scalarMul c c.r q)

/-- (X·zinv², Y·zinv³, ONE): the affine triple, given the inverse of Z (R260, R263). -/
def scaleToAffine (c : Config) (q : Point) (zinv : Nat) : Point :=
  let zi2 := sq c zinv
  ⟨montMul c q.x zi2, montMul c q.y (montMul c zi2 zinv), c.rm⟩

/-- Normalize (R260). FieldInv fails only on Z = 0 (R190), where the answer is O. -/
def normalize (c : Config) (q : Point) : Point :=
  match fieldInv? c q.z with
  | none => pointO c
  | some zi => scaleToAffine c q zi

/-- The running products `pre[i]` of BatchNorm (R263), from the product so far. -/
def runningProducts (c : Config) : Nat → List Point → List Nat
  | _, [] => []
  | acc, q :: rest => montMul c acc q.z :: runningProducts c (montMul c acc q.z) rest

/-- `zinv[i] <- (i > 0) ? ia ⊗ pre[i−1] : ia` (R263), given the running products before the one at i, last first. -/
def divideOut (c : Config) (ia : Nat) : List Nat → Nat
  | [] => ia
  | before :: _ => montMul c ia before

/-- The backward walk of BatchNorm (R263) over the points and their running products, both last first: `ia` is the
inverse of the product of the Z still to come. It answers the inverses of the Z, first one first. -/
def walkBack (c : Config) : Nat → List Point → List Nat → List Nat → List Nat
  | _, [], _, out => out
  | _, _ :: _, [], out => out
  | ia, q :: qs, _ :: pre, out => walkBack c (montMul c ia q.z) qs pre (divideOut c ia pre :: out)

/-- The failures BatchNorm's pseudocode can raise (R263): the precondition's, and FieldInv's, which no batch of a prime
field reaches (R312). DEDUCED: notes/assumptions/18.md. -/
inductive BatchError where
  | infinity | zeroProduct
deriving DecidableEq, Repr

/-- What BatchNorm answers. -/
inductive BatchResult where
  | points (qs : List Point)
  | failed (e : BatchError)
deriving DecidableEq, Repr

/-- BatchNorm on a batch (R263): one running product, one inversion, one walk back. -/
def batchNormalize (c : Config) (qs : List Point) : BatchResult :=
  if qs.any isInf then .failed .infinity
  else
    let pre := runningProducts c c.rm qs
    match fieldInv? c (pre.getLastD c.rm) with
    | none => .failed .zeroProduct
    | some ia => .points (List.zipWith (scaleToAffine c) qs (walkBack c ia qs.reverse pre.reverse []))

/-- The least significant bit of the standard residue, the parity bit (R264). -/
def parity (c : Config) (a : Nat) : Nat := std c a % 2

/-- Compress (R264): the representative of x, and 2·flag + parity. -/
def compress (c : Config) (q : Point) : Nat × Nat :=
  let n := normalize c q
  (n.x, (if isInf q then 2 else 0) + parity c n.y)

/-- The two failures of Decompress (R266). -/
inductive DecompressError where
  | badFlags | notResidue
deriving DecidableEq, Repr

/-- What Decompress answers (R266). -/
inductive Decompressed where
  | point (q : Point)
  | malformed (e : DecompressError)
deriving DecidableEq, Repr

/-- Decompress (R266), the flag word checked first (R314). -/
def decompress (c : Config) (x w : Nat) : Decompressed :=
  if 4 ≤ w then .malformed .badFlags
  else if w.testBit 1 then .point (pointO c)
  else
    match fieldSqrt? c (fieldAdd c (montMul c x (sq c x)) (c.mont c.b)) with
    | none => .malformed .notResidue
    | some y =>
      .point ⟨x, if parity c y = w % 2 then y else fieldNeg c y, c.rm⟩

end Sys2Proof.Machine
end

