-- ==== Sys2Proof/Machine/Flags.lean ====
section
/-! DEFINITION. The flags of each test command (R52): T its result, Z whether its first operand is the field zero or
Infinity. No other command has flags (R63). -/

namespace Sys2Proof.Machine

/-- FEQ (R173). -/
def feqFlags (a b : Nat) : Flags := ⟨a == b, a == 0⟩
/-- FISZ (R174). -/
def fiszFlags (a : Nat) : Flags := ⟨a == 0, a == 0⟩
/-- FQRT (R193). -/
def fqrtFlags (c : Config) (a : Nat) : Flags := ⟨isResidue c a, a == 0⟩
/-- PEQ (R218). -/
def peqFlags (c : Config) (q1 q2 : Point) : Flags := ⟨pointEq c q1 q2, isInf q1⟩
/-- PISZ (R219). -/
def piszFlags (q : Point) : Flags := ⟨isInf q, isInf q⟩
/-- PWF (R220). -/
def pwfFlags (c : Config) (q : Point) : Flags := ⟨onCurve c q, isInf q⟩
/-- PSSG (R245). -/
def pssgFlags (c : Config) (q : Point) : Flags := ⟨inSubgroup c q, isInf q⟩

end Sys2Proof.Machine
end

