-- ==== Sys2Proof/WellFormed.lean ====
section
/-! DEFINITION. Well-formed commands: the operand limits that `Instr`'s types do not already enforce. A register
operand is never out of range (R103), and the selectors of R104 are constructors of their own types, so the only limit
left is the batch range of R105. -/

namespace Sys2Proof

/-- R105: the batch P[A] to P[A + n - 1] with n = B + 1 lies within P[0] to P[15]. -/
def batchInRange (a b : Fin 16) : Bool := decide (a.val + b.val + 1 ≤ 16)

/-- The operands the encoding admits for a command (R102 to R105). -/
def Instr.wellFormed : Instr → Bool
  | .pbnorm a b => batchInRange a b
  | .nop | .fmov _ _ | .fldc _ _ | .tomont _ _ | .fromm _ _ | .frand _ | .fadd _ _ _ | .fsub _ _ _ => true
  | .fneg _ _ | .fmul _ _ _ | .fsqr _ _ | .finv _ _ | .fpow _ _ _ | .fsqrt _ _ | .fqrt _ | .feq _ _ => true
  | .fisz _ | .pmov _ _ | .pldc _ _ | .pset _ _ _ _ | .pget _ _ _ | .padd _ _ _ | .pmadd _ _ _ => true
  | .pdbl _ _ | .pneg _ _ | .psmul _ _ _ | .pcof _ _ | .peq _ _ | .pisz _ | .pwf _ | .pssg _ => true
  | .pnorm _ _ | .pcomp _ _ _ | .pdcmp _ _ _ | .kldc _ _ | .kmov _ _ => true

end Sys2Proof
end

