-- ==== Sys2Proof/Decode.lean ====
section
/-! DEFINITION. The command word: its fields (R101), the decoder (R111), total on every 32-bit word and rejecting by
name, and the encoder, written from the same opcode map (R107, R114). -/

namespace Sys2Proof

/-! ### Fields of the word (R101) -/

/-- OP, bits 7:0. -/
def opField (w : CmdWord) : Nat := w.toNat % 2 ^ 8
/-- D, bits 11:8. -/
def dField (w : CmdWord) : Fin 16 := Fin.ofNat 16 (w.toNat / 2 ^ 8)
/-- A, bits 15:12. -/
def aField (w : CmdWord) : Fin 16 := Fin.ofNat 16 (w.toNat / 2 ^ 12)
/-- B, bits 19:16. -/
def bField (w : CmdWord) : Fin 16 := Fin.ofNat 16 (w.toNat / 2 ^ 16)
/-- C, bits 23:20. -/
def cField (w : CmdWord) : Fin 16 := Fin.ofNat 16 (w.toNat / 2 ^ 20)
/-- RSV, bits 31:24. -/
def rsvField (w : CmdWord) : Nat := w.toNat / 2 ^ 24

/-! ### Selectors (R56 to R58, R102) -/

/-- The FCONST selector a field value names, none above 5 (R104). -/
def FConst.ofField (v : Fin 16) : Option FConst :=
  match v.val with
  | 0 => some .zero | 1 => some .one | 2 => some .coeffB
  | 3 => some .nqr | 4 => some .nqrToT | 5 => some .root
  | _ => none

/-- The field value of an FCONST selector. -/
def FConst.toField : FConst → Fin 16
  | .zero => 0 | .one => 1 | .coeffB => 2 | .nqr => 3 | .nqrToT => 4 | .root => 5

/-- The KCONST selector a field value names, none above 10 (R104). -/
def KConst.ofField (v : Fin 16) : Option KConst :=
  match v.val with
  | 0 => some .modulus | 1 => some .order | 2 => some .cofactor | 3 => some .s | 4 => some .t
  | 5 => some .tm1h | 6 => some .pm1h | 7 => some .inv | 8 => some .r2 | 9 => some .r3 | 10 => some .rm
  | _ => none

/-- The field value of a KCONST selector. -/
def KConst.toField : KConst → Fin 16
  | .modulus => 0 | .order => 1 | .cofactor => 2 | .s => 3 | .t => 4 | .tm1h => 5
  | .pm1h => 6 | .inv => 7 | .r2 => 8 | .r3 => 9 | .rm => 10

/-- The PCONST selector a field value names, none above 1 (R104). -/
def PConst.ofField (v : Fin 16) : Option PConst :=
  match v.val with
  | 0 => some .o | 1 => some .g
  | _ => none

/-- The field value of a PCONST selector. -/
def PConst.toField : PConst → Fin 16
  | .o => 0 | .g => 1

/-- The coordinate a field value names, none above 2 (R104). -/
def Coord.ofField (v : Fin 16) : Option Coord :=
  match v.val with
  | 0 => some .x | 1 => some .y | 2 => some .z
  | _ => none

/-- The field value of a coordinate selector. -/
def Coord.toField : Coord → Fin 16
  | .x => 0 | .y => 1 | .z => 2

/-! ### The decoder (R111) -/

/-- The three ways a word fails decode (R111, R311). -/
inductive DecodeError where
  /-- Reserved OP (R108). -/
  | illOpcode
  /-- RSV or an unused field is not zero (R109, R110). -/
  | illField
  /-- A selector, coordinate or batch range is out of range (R104, R105). -/
  | illIndex
deriving DecidableEq, Repr

/-- What the decoder makes of a word: every word is exactly one of the two (R112). -/
inductive Decoded where
  | instr (i : Instr)
  | illegal (e : DecodeError)
deriving DecidableEq, Repr

/-- R109, R110: every listed field must be 0, else ILL_FIELD; the later checks follow only then (R111). -/
def unusedThen (fields : List Nat) (next : Decoded) : Decoded :=
  if fields.all (· == 0) then next else .illegal .illField

/-- R104: a selector above its range is ILL_INDEX. -/
def selectThen {α : Type} (sel : Option α) (next : α → Instr) : Decoded :=
  match sel with
  | some v => .instr (next v)
  | none => .illegal .illIndex

/-- R105: a batch that leaves the point file is ILL_INDEX. -/
def batchThen (a b : Fin 16) : Decoded :=
  if batchInRange a b then .instr (.pbnorm a b) else .illegal .illIndex

/-- The decoder over the word's fields, one line per row of R107, in the order of checks of R111: the opcode, then the
unused fields and RSV, then selectors and ranges. -/
def decodeFields (op rsv : Nat) (d a b c : Fin 16) : Decoded :=
  match op with
  | 0x01 => unusedThen [rsv, d, a, b, c] (.instr .nop)
  | 0x10 => unusedThen [rsv, b, c] (.instr (.fmov d a))
  | 0x11 => unusedThen [rsv, b, c] (selectThen (FConst.ofField a) (.fldc d))
  | 0x12 => unusedThen [rsv, b, c] (.instr (.tomont d a))
  | 0x13 => unusedThen [rsv, b, c] (.instr (.fromm d a))
  | 0x14 => unusedThen [rsv, a, b, c] (.instr (.frand d))
  | 0x18 => unusedThen [rsv, c] (.instr (.fadd d a b))
  | 0x19 => unusedThen [rsv, c] (.instr (.fsub d a b))
  | 0x1A => unusedThen [rsv, b, c] (.instr (.fneg d a))
  | 0x1B => unusedThen [rsv, c] (.instr (.fmul d a b))
  | 0x1C => unusedThen [rsv, b, c] (.instr (.fsqr d a))
  | 0x1D => unusedThen [rsv, b, c] (.instr (.finv d a))
  | 0x1E => unusedThen [rsv, c] (.instr (.fpow d a b))
  | 0x20 => unusedThen [rsv, b, c] (.instr (.fsqrt d a))
  | 0x21 => unusedThen [rsv, d, b, c] (.instr (.fqrt a))
  | 0x22 => unusedThen [rsv, d, c] (.instr (.feq a b))
  | 0x23 => unusedThen [rsv, d, b, c] (.instr (.fisz a))
  | 0x30 => unusedThen [rsv, b, c] (.instr (.pmov d a))
  | 0x31 => unusedThen [rsv, b, c] (selectThen (PConst.ofField a) (.pldc d))
  | 0x32 => unusedThen [rsv] (.instr (.pset d a b c))
  | 0x33 => unusedThen [rsv, c] (selectThen (Coord.ofField b) (.pget d a))
  | 0x38 => unusedThen [rsv, c] (.instr (.padd d a b))
  | 0x39 => unusedThen [rsv, c] (.instr (.pmadd d a b))
  | 0x3A => unusedThen [rsv, b, c] (.instr (.pdbl d a))
  | 0x3B => unusedThen [rsv, b, c] (.instr (.pneg d a))
  | 0x3C => unusedThen [rsv, c] (.instr (.psmul d a b))
  | 0x3D => unusedThen [rsv, b, c] (.instr (.pcof d a))
  | 0x40 => unusedThen [rsv, d, c] (.instr (.peq a b))
  | 0x41 => unusedThen [rsv, d, b, c] (.instr (.pisz a))
  | 0x42 => unusedThen [rsv, d, b, c] (.instr (.pwf a))
  | 0x43 => unusedThen [rsv, d, b, c] (.instr (.pssg a))
  | 0x48 => unusedThen [rsv, b, c] (.instr (.pnorm d a))
  | 0x49 => unusedThen [rsv, d, c] (batchThen a b)
  | 0x4A => unusedThen [rsv, c] (.instr (.pcomp d a b))
  | 0x4B => unusedThen [rsv, c] (.instr (.pdcmp d a b))
  | 0x50 => unusedThen [rsv, b, c] (selectThen (KConst.ofField a) (.kldc d))
  | 0x51 => unusedThen [rsv, b, c] (.instr (.kmov d a))
  | _ => .illegal .illOpcode

/-- Decode a command word (R111, R303). -/
def decode (w : CmdWord) : Decoded :=
  decodeFields (opField w) (rsvField w) (dField w) (aField w) (bField w) (cField w)

/-- The command word of an instruction whose bits are `w`, as the table numbers them; bits at and above `nbits` are 0.
A command is one 32-bit word, written whole to CMD (R100, R116), so there is no word order to choose. -/
def commandWordOf (nbits w : Nat) : CmdWord := BitVec.ofNat 32 (w % 2 ^ nbits)

/-- The host's question: which command the decoder reads from the bits `w`. -/
def decodeTableWord (nbits w : Nat) : Option Instr :=
  match decode (commandWordOf nbits w) with
  | .instr i => some i
  | .illegal _ => none

/-! ### The encoder (R107, R114) -/

/-- Word = C·2^20 + B·2^16 + A·2^12 + D·2^8 + OP (R114). -/
def packWord (op : Nat) (d a b c : Fin 16) : CmdWord :=
  BitVec.ofNat 32 (c.val * 2 ^ 20 + b.val * 2 ^ 16 + a.val * 2 ^ 12 + d.val * 2 ^ 8 + op)

/-- The opcode of a command (R107). -/
def Instr.opcode : Instr → Nat
  | .nop => 0x01 | .fmov _ _ => 0x10 | .fldc _ _ => 0x11 | .tomont _ _ => 0x12 | .fromm _ _ => 0x13
  | .frand _ => 0x14 | .fadd _ _ _ => 0x18 | .fsub _ _ _ => 0x19 | .fneg _ _ => 0x1A | .fmul _ _ _ => 0x1B
  | .fsqr _ _ => 0x1C | .finv _ _ => 0x1D | .fpow _ _ _ => 0x1E | .fsqrt _ _ => 0x20 | .fqrt _ => 0x21
  | .feq _ _ => 0x22 | .fisz _ => 0x23 | .pmov _ _ => 0x30 | .pldc _ _ => 0x31 | .pset _ _ _ _ => 0x32
  | .pget _ _ _ => 0x33 | .padd _ _ _ => 0x38 | .pmadd _ _ _ => 0x39 | .pdbl _ _ => 0x3A | .pneg _ _ => 0x3B
  | .psmul _ _ _ => 0x3C | .pcof _ _ => 0x3D | .peq _ _ => 0x40 | .pisz _ => 0x41 | .pwf _ => 0x42
  | .pssg _ => 0x43 | .pnorm _ _ => 0x48 | .pbnorm _ _ => 0x49 | .pcomp _ _ _ => 0x4A | .pdcmp _ _ _ => 0x4B
  | .kldc _ _ => 0x50 | .kmov _ _ => 0x51

/-- Encode a command; a field whose class is `-` is 0 (R109), and so is RSV (R110). -/
def encode : Instr → CmdWord
  | .nop => packWord 0x01 0 0 0 0
  | .fmov d a => packWord 0x10 d a 0 0
  | .fldc d k => packWord 0x11 d k.toField 0 0
  | .tomont d a => packWord 0x12 d a 0 0
  | .fromm d a => packWord 0x13 d a 0 0
  | .frand d => packWord 0x14 d 0 0 0
  | .fadd d a b => packWord 0x18 d a b 0
  | .fsub d a b => packWord 0x19 d a b 0
  | .fneg d a => packWord 0x1A d a 0 0
  | .fmul d a b => packWord 0x1B d a b 0
  | .fsqr d a => packWord 0x1C d a 0 0
  | .finv d a => packWord 0x1D d a 0 0
  | .fpow d a b => packWord 0x1E d a b 0
  | .fsqrt d a => packWord 0x20 d a 0 0
  | .fqrt a => packWord 0x21 0 a 0 0
  | .feq a b => packWord 0x22 0 a b 0
  | .fisz a => packWord 0x23 0 a 0 0
  | .pmov d a => packWord 0x30 d a 0 0
  | .pldc d k => packWord 0x31 d k.toField 0 0
  | .pset d a b c => packWord 0x32 d a b c
  | .pget d a k => packWord 0x33 d a k.toField 0
  | .padd d a b => packWord 0x38 d a b 0
  | .pmadd d a b => packWord 0x39 d a b 0
  | .pdbl d a => packWord 0x3A d a 0 0
  | .pneg d a => packWord 0x3B d a 0 0
  | .psmul d a b => packWord 0x3C d a b 0
  | .pcof d a => packWord 0x3D d a 0 0
  | .peq a b => packWord 0x40 0 a b 0
  | .pisz a => packWord 0x41 0 a 0 0
  | .pwf a => packWord 0x42 0 a 0 0
  | .pssg a => packWord 0x43 0 a 0 0
  | .pnorm d a => packWord 0x48 d a 0 0
  | .pbnorm a b => packWord 0x49 0 a b 0
  | .pcomp d a b => packWord 0x4A d a b 0
  | .pdcmp d a b => packWord 0x4B d a b 0
  | .kldc d k => packWord 0x50 d k.toField 0 0
  | .kmov d a => packWord 0x51 d a 0 0

end Sys2Proof
end

