-- ==== Sys2Proof/Machine/Operands.lean ====
section
/-! DEFINITION. The operand forms of R102: a source register is read from the accept snapshot (R304), a selector gives a
constant of R56 to R58, a coordinate selector one coordinate, a batch a run of point registers. -/

namespace Sys2Proof

/-- FCONST (R56). -/
def FConst.value (c : Config) : FConst → Nat
  | .zero => 0
  | .one => c.rm
  | .coeffB => c.mont c.b
  | .nqr => c.mont c.nqr
  | .nqrToT => c.mont c.nqrt
  | .root => c.mont c.root

/-- KCONST (R57). -/
def KConst.value (c : Config) : KConst → Nat
  | .modulus => c.p
  | .order => c.r
  | .cofactor => c.h
  | .s => c.s
  | .t => c.t
  | .tm1h => c.tm1h
  | .pm1h => c.pm1h
  | .inv => c.inv64
  | .r2 => c.r2
  | .r3 => c.r3
  | .rm => c.rm

/-- PCONST (R58). -/
def PConst.value (c : Config) : PConst → Machine.Point
  | .o => Machine.pointO c
  | .g => Machine.pointG c

/-- One coordinate of a point (R140). -/
def Coord.pick (q : Machine.Point) : Coord → Nat
  | .x => q.x
  | .y => q.y
  | .z => q.z

namespace Machine

/-- A source operand of class `f`. -/
def State.srcF (s : State) (i : FReg) : Nat := s.snapshot.readF i
/-- A source operand of class `p`. -/
def State.srcP (s : State) (i : PReg) : Point := s.snapshot.readP i
/-- A source operand of class `k`. -/
def State.srcK (s : State) (i : KReg) : Nat := s.snapshot.readK i

/-- The batch length n = B + 1 (R102 class `cnt`). -/
def batchLength (b : Fin 16) : Nat := b.val + 1

/-- The registers P[A] to P[A + n − 1] of a batch (R105). -/
def batchRegs (a b : Fin 16) : List PReg :=
  (List.range (batchLength b)).map (fun i => Fin.ofNat 16 (a.val + i))

/-- The failure a decode error reports (R111, R311). -/
def decodeFailure : DecodeError → Failure
  | .illOpcode => Cause.failure .illOpcode
  | .illField => Cause.failure .illField
  | .illIndex => Cause.failure .illIndex

end Machine

end Sys2Proof
end

