-- ==== Sys2Proof/Machine/Codec.lean ====
section
/-! DEFINITION. Normalization and the point codec (spec/45_normalize_codec.md). -/

namespace Sys2Proof.Machine

/-- PNORM (R261). -/
def execPnorm (d a : PReg) (s : State) : Host.Outcome State Fault Refusal :=
  .next (s.complete (.ok [.p d (normalize s.cfg (s.srcP a))] none))

/-- PBNORM (R262): a batch that leaves the point file fails ILL_INDEX, one with an Infinity BNORM_INFINITY; else every
register of the batch is normalized, in one commit. The range is checked at decode; DESIGN CHOICE here,
notes/assumptions/19.md. -/
def execPbnorm (a : PReg) (b : Fin 16) (s : State) : Host.Outcome State Fault Refusal :=
  if batchInRange a b then
    match batchNormalize s.cfg ((batchRegs a b).map s.srcP) with
    | .failed .infinity => .next (s.complete (.fail (Cause.failure .bnormInfinity)))
    | .failed .zeroProduct => .next (s.complete (.fail (Cause.failure .invZero)))
    | .points qs => .next (s.complete (.ok (List.zipWith RegWrite.p (batchRegs a b) qs) none))
  else .next (s.complete (.fail (Cause.failure .illIndex)))

/-- PCOMP (R265): F[D] <- x and K[B] <- the flag word, in one commit. -/
def execPcomp (d : FReg) (a : PReg) (b : KReg) (s : State) : Host.Outcome State Fault Refusal :=
  let xw := compress s.cfg (s.srcP a)
  .next (s.complete (.ok [.f d xw.1, .k b xw.2] none))

/-- PDCMP (R267): a bad flag word fails DCMP_BAD_FLAGS before a non-residue fails DCMP_NOT_RESIDUE (R312, R314). -/
def execPdcmp (d : PReg) (a : FReg) (b : KReg) (s : State) : Host.Outcome State Fault Refusal :=
  match decompress s.cfg (s.srcF a) (s.srcK b) with
  | .malformed .badFlags => .next (s.complete (.fail (Cause.failure .dcmpBadFlags)))
  | .malformed .notResidue => .next (s.complete (.fail (Cause.failure .dcmpNotResidue)))
  | .point q => .next (s.complete (.ok [.p d q] none))

end Sys2Proof.Machine
end

