-- ==== Sys2Proof/Machine/Curve.lean ====
section
/-! DEFINITION. The curve group commands (spec/43_curve_group.md). The triple of a result that the formulas compute
follows POINT_FORMULAS (R210), `State.choosePoint`; an operand returned unchanged is unchanged. -/

namespace Sys2Proof.Machine

/-- PADD (R214): with an Infinity operand the other operand's triple, unchanged (R212). -/
def execPadd (d a b : PReg) (s : State) : Host.Outcome State Fault Refusal :=
  let sum := pointAdd s.cfg (s.srcP a) (s.srcP b)
  let res := if isInf (s.srcP a) || isInf (s.srcP b) then sum else s.choosePoint sum
  .next (s.tick.complete (.ok [.p d res] none))

/-- PMADD (R215): the normalization check of the right operand comes first (R314). -/
def execPmadd (d a b : PReg) (s : State) : Host.Outcome State Fault Refusal :=
  match pointMAdd? s.cfg (s.srcP a) (s.srcP b) with
  | none => .next (s.complete (.fail (Cause.failure .maddNotNormalized)))
  | some sum =>
    let res := if isInf (s.srcP a) || isInf (s.srcP b) then sum else s.choosePoint sum
    .next (s.tick.complete (.ok [.p d res] none))

/-- PDBL (R216). -/
def execPdbl (d a : PReg) (s : State) : Host.Outcome State Fault Refusal :=
  .next (s.tick.complete (.ok [.p d (s.choosePoint (pointDbl s.cfg (s.srcP a)))] none))

/-- PNEG (R217). -/
def execPneg (d a : PReg) (s : State) : Host.Outcome State Fault Refusal :=
  .next (s.complete (.ok [.p d (pointNeg s.cfg (s.srcP a))] none))

/-- PEQ (R218). -/
def execPeq (a b : PReg) (s : State) : Host.Outcome State Fault Refusal :=
  .next (s.complete (.ok [] (some (peqFlags s.cfg (s.srcP a) (s.srcP b)))))

/-- PISZ (R219). -/
def execPisz (a : PReg) (s : State) : Host.Outcome State Fault Refusal :=
  .next (s.complete (.ok [] (some (piszFlags (s.srcP a)))))

/-- PWF (R220). -/
def execPwf (a : PReg) (s : State) : Host.Outcome State Fault Refusal :=
  .next (s.complete (.ok [] (some (pwfFlags s.cfg (s.srcP a)))))

end Sys2Proof.Machine
end

