-- ==== Sys2Proof/Machine/FieldArith.lean ====
section
/-! DEFINITION. The field arithmetic commands (spec/41_field_arith.md). -/

namespace Sys2Proof.Machine

/-- FADD (R167). -/
def execFadd (d a b : FReg) (s : State) : Host.Outcome State Fault Refusal :=
  .next (s.complete (.ok [.f d (fieldAdd s.cfg (s.srcF a) (s.srcF b))] none))

/-- FSUB (R168): A is the minuend. -/
def execFsub (d a b : FReg) (s : State) : Host.Outcome State Fault Refusal :=
  .next (s.complete (.ok [.f d (fieldSub s.cfg (s.srcF a) (s.srcF b))] none))

/-- FNEG (R169). -/
def execFneg (d a : FReg) (s : State) : Host.Outcome State Fault Refusal :=
  .next (s.complete (.ok [.f d (fieldNeg s.cfg (s.srcF a))] none))

/-- FMUL (R170). -/
def execFmul (d a b : FReg) (s : State) : Host.Outcome State Fault Refusal :=
  .next (s.complete (.ok [.f d (montMul s.cfg (s.srcF a) (s.srcF b))] none))

/-- FSQR (R171). -/
def execFsqr (d a : FReg) (s : State) : Host.Outcome State Fault Refusal :=
  .next (s.complete (.ok [.f d (sq s.cfg (s.srcF a))] none))

/-- FPOW (R172): the exponent is the whole W-bit scalar. -/
def execFpow (d a : FReg) (b : KReg) (s : State) : Host.Outcome State Fault Refusal :=
  .next (s.complete (.ok [.f d (fieldPow s.cfg (s.srcF a) (s.srcK b))] none))

/-- FEQ (R173). -/
def execFeq (a b : FReg) (s : State) : Host.Outcome State Fault Refusal :=
  .next (s.complete (.ok [] (some (feqFlags (s.srcF a) (s.srcF b)))))

/-- FISZ (R174). -/
def execFisz (a : FReg) (s : State) : Host.Outcome State Fault Refusal :=
  .next (s.complete (.ok [] (some (fiszFlags (s.srcF a)))))

/-- L, the bit length of p: 2^(L−1) ≤ p < 2^L (R175). -/
def modulusBits (c : Config) : Nat := Nat.log2 c.p + 1

/-- The candidate of one round of FRAND: N draws, cut to L bits (R175). -/
def randCandidate (s : State) : Nat := (s.drawLimbs s.cfg.n).1 % 2 ^ modulusBits s.cfg

/-- The state once the N draws of one round have been taken. -/
def afterRound (s : State) : State := (s.drawLimbs s.cfg.n).2

/-- FRAND (R175), one round of it: a candidate below p is lifted and the command completes; any other is rejected, and
the command stays in flight, BUSY, with its next round to come (R307, R358). DESIGN CHOICE: one round a turn,
notes/assumptions/7.md. -/
def execFrand (d : FReg) (s : State) : Host.Outcome State Fault Refusal :=
  .next (if randCandidate s < s.cfg.p then
      (afterRound s).complete (.ok [.f d (montMul s.cfg (randCandidate s) s.cfg.r2)] none)
    else afterRound s)

end Sys2Proof.Machine
end

