-- ==== Sys2Proof/Machine/InvSqrt.lean ====
section
/-! DEFINITION. Inverse, quadratic-residue test and square root (spec/42_field_inv_sqrt.md). -/

namespace Sys2Proof.Machine

/-- FINV (R191): zero fails INV_ZERO. -/
def execFinv (d a : FReg) (s : State) : Host.Outcome State Fault Refusal :=
  match fieldInv? s.cfg (s.srcF a) with
  | none => .next (s.complete (.fail (Cause.failure .invZero)))
  | some x => .next (s.complete (.ok [.f d x] none))

/-- FQRT (R193). -/
def execFqrt (a : FReg) (s : State) : Host.Outcome State Fault Refusal :=
  .next (s.complete (.ok [] (some (fqrtFlags s.cfg (s.srcF a)))))

/-- FSQRT (R196): a non-residue fails NOT_A_RESIDUE; which root is returned follows SQRT_ROOT (R197). -/
def execFsqrt (d a : FReg) (s : State) : Host.Outcome State Fault Refusal :=
  match fieldSqrt? s.cfg (s.srcF a) with
  | none => .next (s.complete (.fail (Cause.failure .notAResidue)))
  | some x => .next (s.tick.complete (.ok [.f d (s.chooseRoot x)] none))

end Sys2Proof.Machine
end

