-- ==== Sys2Proof/Machine/Scalar.lean ====
section
/-! DEFINITION. Scalar multiplication, cofactor clearing and the subgroup test (spec/44_scalar_mul.md). -/

namespace Sys2Proof.Machine

/-- The triple of k·P under the configuration's POINT_FORMULAS (R210). For k = 0 and k = 1 no formula runs: the answer is O
or P's own triple, unchanged (R241, R243). DESIGN CHOICE: notes/assumptions/10.md. -/
def State.scalarTriple (s : State) (k : Nat) (q : Point) : Point :=
  if k ≤ 1 then scalarMul s.cfg k q else s.choosePoint (scalarMul s.cfg k q)

/-- PSMUL (R241): the scalar is the whole W-bit value of K[B], not reduced. -/
def execPsmul (d a : PReg) (b : KReg) (s : State) : Host.Outcome State Fault Refusal :=
  .next (s.tick.complete (.ok [.p d (s.scalarTriple (s.srcK b) (s.srcP a))] none))

/-- PCOF (R243): multiply by the cofactor. -/
def execPcof (d a : PReg) (s : State) : Host.Outcome State Fault Refusal :=
  .next (s.tick.complete (.ok [.p d (s.scalarTriple s.cfg.h (s.srcP a))] none))

/-- PSSG (R245). -/
def execPssg (a : PReg) (s : State) : Host.Outcome State Fault Refusal :=
  .next (s.complete (.ok [] (some (pssgFlags s.cfg (s.srcP a)))))

end Sys2Proof.Machine
end

