-- ==== Sys2Proof/Machine/Transfer.lean ====
section
/-! DEFINITION. The transfer and conversion commands (spec/40_transfer.md). Each meaning is the command's execution on the
snapshot (R304) followed by its completion (R306). -/

namespace Sys2Proof.Machine

/-- NOP (R130). -/
def execNop (s : State) : Host.Outcome State Fault Refusal := .next (s.complete (.ok [] none))

/-- FMOV (R131): F[D] <- F[A]. -/
def execFmov (d a : FReg) (s : State) : Host.Outcome State Fault Refusal :=
  .next (s.complete (.ok [.f d (s.srcF a)] none))

/-- FLDC (R132): F[D] <- FCONST[A]. -/
def execFldc (d : FReg) (sel : FConst) (s : State) : Host.Outcome State Fault Refusal :=
  .next (s.complete (.ok [.f d (sel.value s.cfg)] none))

/-- TOMONT (R133): K[A] ≥ p fails NOT_CANONICAL, else F[D] <- MontMul(K[A], R2). -/
def execTomont (d : FReg) (a : KReg) (s : State) : Host.Outcome State Fault Refusal :=
  if s.cfg.p ≤ s.srcK a then .next (s.complete (.fail (Cause.failure .notCanonical)))
  else .next (s.complete (.ok [.f d (montMul s.cfg (s.srcK a) s.cfg.r2)] none))

/-- FROMM (R134): K[D] <- MontMul(F[A], 1). -/
def execFromm (d : KReg) (a : FReg) (s : State) : Host.Outcome State Fault Refusal :=
  .next (s.complete (.ok [.k d (montMul s.cfg (s.srcF a) 1)] none))

/-- KLDC (R135): K[D] <- KCONST[A], zero-extended (R37). -/
def execKldc (d : KReg) (sel : KConst) (s : State) : Host.Outcome State Fault Refusal :=
  .next (s.complete (.ok [.k d (sel.value s.cfg)] none))

/-- KMOV (R136): K[D] <- K[A]. -/
def execKmov (d a : KReg) (s : State) : Host.Outcome State Fault Refusal :=
  .next (s.complete (.ok [.k d (s.srcK a)] none))

/-- PMOV (R137): P[D] <- P[A]. -/
def execPmov (d a : PReg) (s : State) : Host.Outcome State Fault Refusal :=
  .next (s.complete (.ok [.p d (s.srcP a)] none))

/-- PLDC (R138): P[D] <- PCONST[A]. -/
def execPldc (d : PReg) (sel : PConst) (s : State) : Host.Outcome State Fault Refusal :=
  .next (s.complete (.ok [.p d (sel.value s.cfg)] none))

/-- PSET (R139): P[D] <- (F[A], F[B], F[C]), whether or not the triple is on the curve. -/
def execPset (d : PReg) (a b c : FReg) (s : State) : Host.Outcome State Fault Refusal :=
  .next (s.complete (.ok [.p d ⟨s.srcF a, s.srcF b, s.srcF c⟩] none))

/-- PGET (R140): F[D] <- the selected coordinate of P[A]. -/
def execPget (d : FReg) (a : PReg) (crd : Coord) (s : State) : Host.Outcome State Fault Refusal :=
  .next (s.complete (.ok [.f d (crd.pick (s.srcP a))] none))

end Sys2Proof.Machine
end

