-- ==== Sys2Proof/Machine/Dispatch.lean ====
section
/-! DEFINITION. The meaning of every command: its execution and completion (R304 to R306). -/

namespace Sys2Proof.Machine

def exec (i : Instr) (s : State) : Host.Outcome State Fault Refusal :=
  match i with
  | .nop => Sys2Proof.Machine.execNop s
  | .fmov d a => Sys2Proof.Machine.execFmov d a s
  | .fldc d sel => Sys2Proof.Machine.execFldc d sel s
  | .tomont d a => Sys2Proof.Machine.execTomont d a s
  | .fromm d a => Sys2Proof.Machine.execFromm d a s
  | .frand d => Sys2Proof.Machine.execFrand d s
  | .fadd d a b => Sys2Proof.Machine.execFadd d a b s
  | .fsub d a b => Sys2Proof.Machine.execFsub d a b s
  | .fneg d a => Sys2Proof.Machine.execFneg d a s
  | .fmul d a b => Sys2Proof.Machine.execFmul d a b s
  | .fsqr d a => Sys2Proof.Machine.execFsqr d a s
  | .finv d a => Sys2Proof.Machine.execFinv d a s
  | .fpow d a b => Sys2Proof.Machine.execFpow d a b s
  | .fsqrt d a => Sys2Proof.Machine.execFsqrt d a s
  | .fqrt a => Sys2Proof.Machine.execFqrt a s
  | .feq a b => Sys2Proof.Machine.execFeq a b s
  | .fisz a => Sys2Proof.Machine.execFisz a s
  | .pmov d a => Sys2Proof.Machine.execPmov d a s
  | .pldc d sel => Sys2Proof.Machine.execPldc d sel s
  | .pset d a b c => Sys2Proof.Machine.execPset d a b c s
  | .pget d a crd => Sys2Proof.Machine.execPget d a crd s
  | .padd d a b => Sys2Proof.Machine.execPadd d a b s
  | .pmadd d a b => Sys2Proof.Machine.execPmadd d a b s
  | .pdbl d a => Sys2Proof.Machine.execPdbl d a s
  | .pneg d a => Sys2Proof.Machine.execPneg d a s
  | .psmul d a b => Sys2Proof.Machine.execPsmul d a b s
  | .pcof d a => Sys2Proof.Machine.execPcof d a s
  | .peq a b => Sys2Proof.Machine.execPeq a b s
  | .pisz a => Sys2Proof.Machine.execPisz a s
  | .pwf a => Sys2Proof.Machine.execPwf a s
  | .pssg a => Sys2Proof.Machine.execPssg a s
  | .pnorm d a => Sys2Proof.Machine.execPnorm d a s
  | .pbnorm a b => Sys2Proof.Machine.execPbnorm a b s
  | .pcomp d a b => Sys2Proof.Machine.execPcomp d a b s
  | .pdcmp d a b => Sys2Proof.Machine.execPdcmp d a b s
  | .kldc d sel => Sys2Proof.Machine.execKldc d sel s
  | .kmov d a => Sys2Proof.Machine.execKmov d a s

end Sys2Proof.Machine
end

