-- ==== Sys2Proof/Machine/Engine.lean ====
section
/-! DEFINITION. The transitions of the block (R309): the engine's, which are InitDone and Complete, and those an input
causes, which are Reset, HostRead and HostWrite. -/

namespace Sys2Proof.Machine

/-- The engine runs the pending word (R303 to R306): a word that fails decode completes with that failure. -/
def runCommand (w : CmdWord) (s : State) : Host.Outcome State Fault Refusal :=
  match decode w with
  | .instr i => exec i s
  | .illegal e => .next (s.complete (.fail (decodeFailure e)))

/-- The engine's turn: initialization first (R341), then the pending command, if there is one (R309). -/
def engineTurn (s : State) : Host.Outcome State Fault Refusal :=
  if s.inInit then .next s.initDone
  else
    match s.cur with
    | none => .next s
    | some w => runCommand w s

/-- One input (R309, R340). -/
def takeInput (e : BusEvent) (s : State) : Host.Outcome State Fault Refusal :=
  match e with
  | .reset => .next s.assertReset
  | .read addr width => .next (s.busRead addr width)
  | .write addr width v => .next (s.busWrite addr width v)
  | .engine => engineTurn s

/-- DESIGN CHOICE, notes/assumptions/5.md. One transition: the next input, or, when none stands before the block, the engine's turn (R307, R309). -/
def transition (s : State) : Host.Outcome State Fault Refusal :=
  match s.inbox with
  | [] => engineTurn s
  | e :: rest => takeInput e { s with inbox := rest }

/-- The pending command a host write of `w` to CMD makes of a ready, idle block, with the engine's turn next. -/
def State.withPending (s : State) (w : CmdWord) : State :=
  let ready := { s with status := { s.status with ready := true } }
  { ready.accept w with inbox := .engine :: s.inbox }

end Sys2Proof.Machine
end

