-- ==== Sys2Proof/Machine/Validity.lean ====
section
/-! DEFINITION. The configurations a step computes with: the constraints of R8 as an evaluation, for R10's refusal. -/

namespace Sys2Proof

open Sys2Proof.Machine

/-- Whether no number from the third argument up to the square root of `n` divides `n`; the second argument bounds the
numbers tried. -/
def noDivisorFrom (n : Nat) : Nat → Nat → Bool
  | 0, _ => true
  | k + 1, d => if n < d * d then true else if n % d = 0 then false else noDivisorFrom n k (d + 1)

/-- Whether `n` is prime, by trial division. -/
def isPrime (n : Nat) : Bool := decide (2 ≤ n) && noDivisorFrom n n 2

/-- How many y below p have y² = v modulo p, for v below p: Euler's criterion (R193). -/
def Config.rootCount (c : Config) (v : Nat) : Nat :=
  if v = 0 then 1 else if powMod c.p v c.w c.pm1h = 1 then 2 else 0

/-- #E(F_p) (R8): Infinity, and for every x the y of the curve equation. -/
def Config.pointCount (c : Config) : Nat :=
  ((List.range c.p).map (fun x => c.rootCount ((x ^ 3 + c.b) % c.p))).sum + 1

/-- Every constraint of R8, evaluated. With r prime and G Finite, r·G = O says that the order of G is r. -/
def Config.satisfiesR8 (c : Config) : Bool :=
  c.admissible && isPrime c.p && isPrime c.r && c.pointCount == c.h * c.r && isInf (scalarMul c c.r (pointG c))

/-- Whether two configurations have one field, one curve and one set of constants: all of R8 but BASE and the two open
parameters. -/
def Config.sameCurve (c d : Config) : Bool :=
  c.n == d.n && c.p == d.p && c.b == d.b && c.gx == d.gx && c.gy == d.gy && c.r == d.r && c.h == d.h &&
    c.nqr == d.nqr && c.root == d.root

/-- Whether a configuration obeys R8, which R10 asks before a step computes with it. The constraints of the two
configurations the spec gives (95_test_vectors.md §1) are proved once, in Laws/Validity.lean and Laws/Bn254.lean, so that
a step does not count the points of a curve over a field of 254 bits; every other configuration is evaluated. The answer
is `satisfiesR8`'s for all (`Config.obeysR8_iff`). DEDUCED, where R10 is asked: notes/assumptions/2.md. -/
def Config.obeysR8 (c : Config) : Bool :=
  ((c.sameCurve .toy97 || c.sameCurve .bn254) && c.base % 0x2000 == 0) || c.satisfiesR8

end Sys2Proof
end

