-- ==== Sys2Proof/Machine/Step.lean ====
section
/-! DEFINITION. One step of the machine, and where it fetches its next instruction. -/

namespace Sys2Proof.Machine

/-- One step: a configuration that breaks a constraint of R8 is refused (R10), else one transition happens (R309). -/
def step (s : State) : Host.Outcome State Fault Refusal :=
  if s.cfg.obeysR8 then transition s else .refused .badConfig

/-- The block fetches no instruction (R38): a command is the word CUR holds (R55). So the state with the instruction
accepted, on a ready block, with the engine's turn next. DEDUCED: notes/assumptions/4.md. -/
def State.withFetchWord (s : State) (nbits w : Nat) : State := s.withPending (commandWordOf nbits w)

end Sys2Proof.Machine
end

