-- ==== Sys2Proof/Machine/Cios.lean ====
section
/-! DEFINITION. The word-level multiplier (R162): coarsely integrated operand scanning over 64-bit limbs, limb 0 least
significant. The meanings use `montMul` (R161), as R162 says a model does; this is the algorithm whose result R162 says is
the same. -/

namespace Sys2Proof

/-- 2^64, the base of the limbs. -/
def limbBase : Nat := 2 ^ 64

/-- The given number of limbs of an integer, limb 0 first. -/
def limbsOf : Nat → Nat → List Nat
  | 0, _ => []
  | k + 1, x => x % limbBase :: limbsOf k (x / limbBase)

/-- The integer whose limbs these are: Σ t[j]·2^(64·j). -/
def ofLimbs : List Nat → Nat
  | [] => 0
  | d :: ds => d + limbBase * ofLimbs ds

/-- One row, `(c, t[j]) <- t[j] + a_j·b + c` for every j: the new limbs and the carry out. -/
def macRow (b : Nat) : List Nat → List Nat → Nat → List Nat × Nat
  | t :: ts, a :: as, carry =>
    let v := t + a * b + carry
    let rest := macRow b ts as (v / limbBase)
    (v % limbBase :: rest.1, rest.2)
  | ts, _, carry => (ts, carry)

/-- The accumulator between two passes of the outer loop: t[0] to t[N − 1], and t[N]; t[N + 1] is then 0. -/
structure CiosAcc where
  low : List Nat
  top : Nat
deriving DecidableEq, Repr

/-- One pass of the outer loop, for the limb `b` of the second factor. -/
def ciosPass (a p : List Nat) (inv : Nat) (t : CiosAcc) (b : Nat) : CiosAcc :=
  let mul := macRow b t.low a 0
  let tN := (t.top + mul.2) % limbBase
  let tN1 := (t.top + mul.2) / limbBase
  let m := mul.1.headD 0 * inv % limbBase
  let red := macRow m mul.1 p 0
  { low := red.1.tail ++ [(tN + red.2) % limbBase], top := tN1 + (tN + red.2) / limbBase }

/-- MontMulCIOS(a, b) (R162). -/
def montMulCios (c : Config) (a b : Nat) : Nat :=
  let t := (limbsOf c.n b).foldl (ciosPass (limbsOf c.n a) (limbsOf c.n c.p) c.inv64) ⟨List.replicate c.n 0, 0⟩
  let u := ofLimbs (t.low ++ [t.top])
  if c.p ≤ u then u - c.p else u

end Sys2Proof
end

