-- ==== Sys2Proof/Machine/HostProtocol.lean ====
section
/-! DEFINITION. What a host does with the window, as the inputs it sends: the accesses by name, loading a scalar (R345,
R352), and the polling protocol of one command (R354). The engine's turn stands where the host waits. -/

namespace Sys2Proof.Machine

/-- A 64-bit read of a control or status register. -/
def BusEvent.readCsr (c : Config) (r : Csr) : BusEvent := .read (c.base + r.offset) 64

/-- A 64-bit write of a control or status register. -/
def BusEvent.writeCsr (c : Config) (r : Csr) (v : BusWord) : BusEvent := .write (c.base + r.offset) 64 v

/-- A 64-bit read of limb `j` of K[i]. -/
def BusEvent.readLimb (c : Config) (i : KReg) (j : Nat) : BusEvent := .read (c.base + limbOffset i j) 64

/-- A 64-bit write of limb `j` of K[i]. -/
def BusEvent.writeLimb (c : Config) (i : KReg) (j : Nat) (v : BusWord) : BusEvent :=
  .write (c.base + limbOffset i j) 64 v

/-- The issue of a command: write CMD <- zext_64(w) (R354). -/
def BusEvent.issue (c : Config) (w : CmdWord) : BusEvent := .writeCsr c .cmd (w.setWidth 64)

/-- Load K[i] with a value, writing all N limbs of it (R345, R352). -/
def loadScalar (c : Config) (i : KReg) (v : Nat) : List BusEvent :=
  (List.range c.n).map (fun j => .writeLimb c i j (limbOf v j))

/-- IssueAndWait (R354) for a command that completes in one turn of the engine: issue, wait, then read STATUS, ERR and
FLAGS. -/
def issueAndWait (c : Config) (w : CmdWord) : List BusEvent :=
  [.issue c w, .engine, .readCsr c .status, .readCsr c .err, .readCsr c .flags]

/-- The boot sequence of R345 up to its last item: wait for READY, clear the W1C bits of STATUS, set the IRQ enables. -/
def bootSequence (c : Config) (ctrl : Ctrl) : List BusEvent :=
  [.engine, .readCsr c .status, .writeCsr c .status 0x1E, .writeCsr c .ctrl ctrl.word]

end Sys2Proof.Machine
end

