-- ==== Sys2Proof/Safety.lean ====
section
/-! DEFINITION. What claims speak of: a configuration that obeys all of R8, the states a run of the block stays in, how a
command ends and what it leaves as it was (R305, R306), and the affine point a triple stands for (R17). -/

namespace Sys2Proof

/-- The number of points of the curve y² = x³ + b over F_p, Infinity among them. -/
def Config.curveOrder (c : Config) : Nat :=
  ((Finset.range c.p ×ˢ Finset.range c.p).filter (fun q => q.2 ^ 2 % c.p = (q.1 ^ 3 + c.b) % c.p)).card + 1

/-- What the arithmetic of a field needs of R8: the constraints on the numbers, and p prime. -/
structure Config.FieldValid (c : Config) : Prop where
  admissible : c.admissible = true
  prime : c.p.Prime

/-- Every constraint of R8, in the order of its table. -/
structure Config.Valid (c : Config) : Prop where
  /-- `N`, with W = 64·N and R = 2^W. -/
  limbs : 1 ≤ c.n ∧ c.n ≤ 32
  /-- `p`. -/
  modulus : c.p.Prime ∧ c.p % 2 = 1 ∧ 2 ^ (64 * c.n - 64) ≤ c.p ∧ c.p < 2 ^ (64 * c.n) ∧ 5 ≤ c.p
  /-- `b`. -/
  coefficient : 1 ≤ c.b ∧ c.b < c.p
  /-- `Gx` and `Gy`: their ranges and the curve equation. -/
  generator : c.gx < c.p ∧ c.gy < c.p ∧ c.gy ^ 2 % c.p = (c.gx ^ 3 + c.b) % c.p
  /-- The order of G is r: r is prime, G is Finite, and ScalarMul by r (R240) takes it to Infinity. -/
  generatorOrder : Machine.isInf (Machine.scalarMul c c.r (Machine.pointG c)) = true
  /-- `r`. -/
  order : c.r.Prime ∧ c.r < 2 ^ (64 * c.n)
  /-- `h`. -/
  cofactor : 1 ≤ c.h ∧ c.h < 2 ^ (64 * c.n) ∧ c.h * c.r = c.curveOrder
  /-- `nqr`. -/
  nonResidue : 1 ≤ c.nqr ∧ c.nqr < c.p ∧ c.nqr ^ ((c.p - 1) / 2) % c.p = c.p - 1
  /-- `root`, a standard residue of order 2^s. -/
  rootOfUnity : c.root < c.p ∧ c.root ^ 2 ^ c.s % c.p = 1 ∧ c.root ^ 2 ^ (c.s - 1) % c.p ≠ 1
  /-- `BASE`. -/
  window : c.base % 0x2000 = 0

/-- val(m) = m·R⁻¹ mod p, the value of a representative (R14), as an element of ZMod p. -/
def toZ (c : Config) (a : Nat) : ZMod c.p := (a : ZMod c.p) * (c.radix : ZMod c.p)⁻¹

namespace Machine

/-! ### States -/

/-- A field representative (R32). -/
def isRep (c : Config) (a : Nat) : Prop := a < c.p

/-- A triple of representatives (R34). -/
def isRepPoint (c : Config) (q : Point) : Prop := q.x < c.p ∧ q.y < c.p ∧ q.z < c.p

/-- The register files hold what R32, R34 and R35 say they hold. -/
structure Files.Ok (c : Config) (r : Files) : Prop where
  f : ∀ i, isRep c (r.readF i)
  p : ∀ i, isRepPoint c (r.readP i)
  k : ∀ i, r.readK i < 2 ^ c.w

/-- The life of a command: BUSY stands exactly for INIT or a pending command (R46, R55), no command is pending in INIT
(R61), and while one is, CMD reads it (R53, R55) and the registers are as its accept found them (R80, R302). -/
structure State.LifeOk (s : State) : Prop where
  busy : s.status.busy = (s.inInit || s.cur.isSome)
  init : s.inInit = true → s.cur = none
  pending : ∀ w, s.cur = some w → s.cmd = w ∧ s.snapshot = s.regs

/-- The invariant of the block. -/
structure State.Inv (s : State) : Prop where
  admissible : s.cfg.admissible = true
  regs : s.regs.Ok s.cfg
  snapshot : s.snapshot.Ok s.cfg
  life : s.LifeOk
  err : s.err.cat = s.err.cause.category

/-- A block that takes the next command: ready and idle (R301). -/
def State.isIdle (s : State) : Bool := s.status.ready && !s.status.busy

/-! ### How a command ends, and what it leaves as it was -/

/-- From `s` the command of word `w` completes normally (R306) in `t`: ERR, BUSY, DONE and CUR as Complete says, and every
piece of state that no command's result goes to as it was. What became of the registers and of FLAGS is said beside this. -/
structure CompletedOk (s t : State) (w : CmdWord) : Prop where
  err : t.err = ⟨.none, .none, w⟩
  status : t.status = { s.status with busy := false, done := true }
  cur : t.cur = none
  cfg : t.cfg = s.cfg
  snapshot : t.snapshot = s.snapshot
  ctrl : t.ctrl = s.ctrl
  cmd : t.cmd = s.cmd
  inbox : t.inbox = s.inbox
  rand : t.rand = s.rand
  readData : t.readData = s.readData

/-- From `s` the command of word `w` fails with a category and a cause (R305, R306, R323) in `t`: ERR, BUSY, DONE, FAIL and
CUR as Complete says, and nothing else changed. -/
structure CompletedFail (s t : State) (w : CmdWord) (cat : Category) (cause : Cause) : Prop where
  err : t.err = ⟨cat, cause, w⟩
  status : t.status = { s.status with busy := false, done := true, fail := true }
  cur : t.cur = none
  regs : t.regs = s.regs
  flags : t.flags = s.flags
  cfg : t.cfg = s.cfg
  snapshot : t.snapshot = s.snapshot
  ctrl : t.ctrl = s.ctrl
  cmd : t.cmd = s.cmd
  inbox : t.inbox = s.inbox
  rand : t.rand = s.rand
  readData : t.readData = s.readData

/-- F[d] is `v` in `t`; every other register of F, P and K, and FLAGS, is as in `s`. -/
structure OnlyF (s t : State) (d : FReg) (v : Nat) : Prop where
  written : t.regs.readF d = v
  f : ∀ j, j ≠ d → t.regs.readF j = s.regs.readF j
  p : ∀ j, t.regs.readP j = s.regs.readP j
  k : ∀ j, t.regs.readK j = s.regs.readK j
  flags : t.flags = s.flags

/-- P[d] is `q` in `t`; every other register of F, P and K, and FLAGS, is as in `s`. -/
structure OnlyP (s t : State) (d : PReg) (q : Point) : Prop where
  written : t.regs.readP d = q
  f : ∀ j, t.regs.readF j = s.regs.readF j
  p : ∀ j, j ≠ d → t.regs.readP j = s.regs.readP j
  k : ∀ j, t.regs.readK j = s.regs.readK j
  flags : t.flags = s.flags

/-- K[d] is `v` in `t`; every other register of F, P and K, and FLAGS, is as in `s`. -/
structure OnlyK (s t : State) (d : KReg) (v : Nat) : Prop where
  written : t.regs.readK d = v
  f : ∀ j, t.regs.readF j = s.regs.readF j
  p : ∀ j, t.regs.readP j = s.regs.readP j
  k : ∀ j, j ≠ d → t.regs.readK j = s.regs.readK j
  flags : t.flags = s.flags

/-- FLAGS.T and FLAGS.Z say in `t` whether `isTrue` and `isZero` hold; no register of F, P or K has changed. -/
structure OnlyFlags (s t : State) (isTrue isZero : Prop) : Prop where
  tFlag : t.flags.t = true ↔ isTrue
  zFlag : t.flags.z = true ↔ isZero
  regs : t.regs = s.regs

/-! ### The affine point of a triple -/

/-- val(X)/val(Z)² (R17), for a Finite triple over a prime field. -/
def affineX (c : Config) (q : Point) : ZMod c.p := toZ c q.x * (toZ c q.z ^ 2)⁻¹

/-- val(Y)/val(Z)³ (R17), for a Finite triple over a prime field. -/
def affineY (c : Config) (q : Point) : ZMod c.p := toZ c q.y * (toZ c q.z ^ 3)⁻¹

/-- Two triples stand for one logical point: both Infinity, or both Finite with one affine value (R17, R218). -/
def LogicalEq (c : Config) (q1 q2 : Point) : Prop :=
  (q1.z = 0 ∧ q2.z = 0) ∨ (q1.z ≠ 0 ∧ q2.z ≠ 0 ∧ affineX c q1 = affineX c q2 ∧ affineY c q1 = affineY c q2)

/-- The affine point with slope `l` through `q1`, third on the line and reflected, whose other x is `x2`. -/
def IsThirdPoint (c : Config) (l : ZMod c.p) (q1 : Point) (x2 : ZMod c.p) (q : Point) : Prop :=
  q.z ≠ 0 ∧ affineX c q = l ^ 2 - affineX c q1 - x2 ∧ affineY c q = l * (affineX c q1 - affineX c q) - affineY c q1

/-- `q` is q1 + q2 by the chord and tangent law on affine points, Infinity its neutral element: an Infinity operand
returns the other's triple unchanged; else the chord through two points of different x, the tangent where the points are
equal, and Infinity where the line is vertical. -/
def IsGroupSum (c : Config) (q1 q2 q : Point) : Prop :=
  (q1.z = 0 → q = q2) ∧
  (q1.z ≠ 0 → q2.z = 0 → q = q1) ∧
  (q1.z ≠ 0 → q2.z ≠ 0 →
    (affineX c q1 ≠ affineX c q2 →
      IsThirdPoint c ((affineY c q2 - affineY c q1) * (affineX c q2 - affineX c q1)⁻¹) q1 (affineX c q2) q) ∧
    (affineX c q1 = affineX c q2 → affineY c q1 ≠ affineY c q2 → q.z = 0) ∧
    (affineX c q1 = affineX c q2 → affineY c q1 = affineY c q2 → affineY c q1 = 0 → q.z = 0) ∧
    (affineX c q1 = affineX c q2 → affineY c q1 = affineY c q2 → affineY c q1 ≠ 0 →
      IsThirdPoint c (3 * affineX c q1 ^ 2 * (2 * affineY c q1)⁻¹) q1 (affineX c q1) q))

/-- `q` is the triple `base` of the formulas or, where POINT_FORMULAS is a draw and `base` is Finite, a scaling of it by a
representative other than 0, which stands for the same logical point (R210). -/
def IsTripleOf (c : Config) (base q : Point) : Prop :=
  q = base ∨
    (c.pointFormulas = .drawn ∧ base.z ≠ 0 ∧ ∃ lam, 0 < lam ∧ lam < c.p ∧ q = rescale c lam base)

end Machine

end Sys2Proof
end

