-- ==== Sys2Proof/Certificates/Slice0/Obligations.lean ====
section
/-! DEFINITION. The statements for the provers, from the numbered rules of spec/. Each docstring names the rules; a clause
that rests on a choice of the model says so and names its log entry (notes/assumptions/). Ahead of them, what only they
speak of: the opcode map and the decoder's checks transcribed a second time, as tables (R102, R107, R111), and runs of a
few turns. -/

namespace Sys2Proof.Spec

open Sys2Proof Sys2Proof.Machine

/-- The operand classes of R102. -/
inductive OperandClass where
  | f | p | k | fsel | ksel | psel | crd | cnt | unused
deriving DecidableEq, Repr

/-- The classes of D, A, B and C. -/
structure Row where
  d : OperandClass
  a : OperandClass
  b : OperandClass
  c : OperandClass
deriving DecidableEq, Repr

/-- The opcode map (R107): the row of an opcode, none where the opcode is reserved (R108). -/
def row? (op : Nat) : Option Row :=
  match op with
  | 0x01 => some ⟨.unused, .unused, .unused, .unused⟩
  | 0x10 => some ⟨.f, .f, .unused, .unused⟩
  | 0x11 => some ⟨.f, .fsel, .unused, .unused⟩
  | 0x12 => some ⟨.f, .k, .unused, .unused⟩
  | 0x13 => some ⟨.k, .f, .unused, .unused⟩
  | 0x14 => some ⟨.f, .unused, .unused, .unused⟩
  | 0x18 => some ⟨.f, .f, .f, .unused⟩
  | 0x19 => some ⟨.f, .f, .f, .unused⟩
  | 0x1A => some ⟨.f, .f, .unused, .unused⟩
  | 0x1B => some ⟨.f, .f, .f, .unused⟩
  | 0x1C => some ⟨.f, .f, .unused, .unused⟩
  | 0x1D => some ⟨.f, .f, .unused, .unused⟩
  | 0x1E => some ⟨.f, .f, .k, .unused⟩
  | 0x20 => some ⟨.f, .f, .unused, .unused⟩
  | 0x21 => some ⟨.unused, .f, .unused, .unused⟩
  | 0x22 => some ⟨.unused, .f, .f, .unused⟩
  | 0x23 => some ⟨.unused, .f, .unused, .unused⟩
  | 0x30 => some ⟨.p, .p, .unused, .unused⟩
  | 0x31 => some ⟨.p, .psel, .unused, .unused⟩
  | 0x32 => some ⟨.p, .f, .f, .f⟩
  | 0x33 => some ⟨.f, .p, .crd, .unused⟩
  | 0x38 => some ⟨.p, .p, .p, .unused⟩
  | 0x39 => some ⟨.p, .p, .p, .unused⟩
  | 0x3A => some ⟨.p, .p, .unused, .unused⟩
  | 0x3B => some ⟨.p, .p, .unused, .unused⟩
  | 0x3C => some ⟨.p, .p, .k, .unused⟩
  | 0x3D => some ⟨.p, .p, .unused, .unused⟩
  | 0x40 => some ⟨.unused, .p, .p, .unused⟩
  | 0x41 => some ⟨.unused, .p, .unused, .unused⟩
  | 0x42 => some ⟨.unused, .p, .unused, .unused⟩
  | 0x43 => some ⟨.unused, .p, .unused, .unused⟩
  | 0x48 => some ⟨.p, .p, .unused, .unused⟩
  | 0x49 => some ⟨.unused, .p, .cnt, .unused⟩
  | 0x4A => some ⟨.f, .p, .k, .unused⟩
  | 0x4B => some ⟨.p, .f, .k, .unused⟩
  | 0x50 => some ⟨.k, .ksel, .unused, .unused⟩
  | 0x51 => some ⟨.k, .k, .unused, .unused⟩
  | _ => none

/-- A field of class `-` that is not 0 (R109). -/
def badUnused (cls : OperandClass) (v : Nat) : Bool := cls == .unused && v != 0

/-- A selector or coordinate above its range (R104). -/
def badSelector (cls : OperandClass) (v : Nat) : Bool :=
  (cls == .fsel && decide (v > 5)) || (cls == .ksel && decide (v > 10)) || (cls == .psel && decide (v > 1)) ||
    (cls == .crd && decide (v > 2))

/-- Decode as R111 writes it, over the bits of the word (R101): the first check that fails, none where all pass. -/
def firstFailure (w : CmdWord) : Option DecodeError :=
  let op := (w.extractLsb' 0 8).toNat
  let d := (w.extractLsb' 8 4).toNat
  let a := (w.extractLsb' 12 4).toNat
  let b := (w.extractLsb' 16 4).toNat
  let c := (w.extractLsb' 20 4).toNat
  match row? op with
  | none => some .illOpcode
  | some r =>
    if w.extractLsb' 24 8 ≠ 0 then some .illField
    else if badUnused r.d d || badUnused r.a a || badUnused r.b b || badUnused r.c c then some .illField
    else if badSelector r.a a || badSelector r.b b then some .illIndex
    else if op = 0x49 ∧ a + b + 1 > 16 then some .illIndex
    else none

/-- ERR.CAUSE of a decode failure (R311). -/
def causeOf : DecodeError → Cause
  | .illOpcode => .illOpcode
  | .illField => .illField
  | .illIndex => .illIndex

/-- The test commands (R52). -/
def isTest : Instr → Bool
  | .feq _ _ | .fisz _ | .fqrt _ | .peq _ _ | .pisz _ | .pwf _ | .pssg _ => true
  | _ => false

/-- The causes R311 lets a decoded command complete with, NONE among them. -/
def mayRaise : Instr → Cause → Bool
  | _, .none => true
  | .finv _ _, .invZero => true
  | .tomont _ _, .notCanonical => true
  | .fsqrt _ _, .notAResidue => true
  | .pmadd _ _ _, .maddNotNormalized => true
  | .pbnorm _ _, .bnormInfinity => true
  | .pdcmp _ _ _, .dcmpNotResidue => true
  | .pdcmp _ _ _, .dcmpBadFlags => true
  | _, _ => false

/-- The state after a number of turns of the engine, each running the one command in flight. -/
def afterTurns (i : Instr) : Nat → State → Option State
  | 0, s => some s
  | n + 1, s => match exec i s with
    | .next t => afterTurns i n t
    | _ => none

/-- The integer whose 64-bit limbs are these words, limb 0 first (R175). -/
def fromWords (ws : List BusWord) : Nat := ws.foldr (fun w acc => w.toNat + 2 ^ 64 * acc) 0

/-- The candidate of one round of FRAND from the words it draws, with the bits at and above the bit length of p cleared
(R175). -/
def candidate (c : Config) (ws : List BusWord) : Nat := fromWords ws % 2 ^ Nat.size c.p

end Sys2Proof.Spec

open Sys2Proof Sys2Proof.Machine Sys2Proof.Spec

/-! ### Encoding (30_encoding.md) -/

/-- Words of R114's table and of the command rules' examples decode to the commands they stand for. -/
def Obligations.SpecWordsDecodeToTheirCommands : Prop :=
  decode 0x00000001#32 = .instr .nop ∧ decode 0x00021318#32 = .instr (.fadd 3 1 2) ∧
  decode 0x00001511#32 = .instr (.fldc 5 .one) ∧ decode 0x00410232#32 = .instr (.pset 2 0 1 4) ∧
  decode 0x00012733#32 = .instr (.pget 7 2 .y) ∧ decode 0x0003013C#32 = .instr (.psmul 1 0 3) ∧
  decode 0x00021040#32 = .instr (.peq 1 2) ∧ decode 0x00032049#32 = .instr (.pbnorm 2 3) ∧
  decode 0x0002314A#32 = .instr (.pcomp 1 3 2) ∧ decode 0x00001050#32 = .instr (.kldc 0 .order) ∧
  decode 0x0002144B#32 = .instr (.pdcmp 4 1 2) ∧ decode 0x00000000#32 = .illegal .illOpcode

/-- Decoding an encoded well-formed command gives it back, with every operand at every value the encoding admits. -/
def Obligations.DecodeOfEncodeIsTheCommand : Prop :=
  ∀ i : Instr, i.wellFormed = true → decode (encode i) = .instr i

/-- R112: a word is exactly one command with legal operands, or it fails decode. -/
def Obligations.EveryWordIsOneCommandOrFailsDecode : Prop :=
  ∀ w : CmdWord,
    (∃ i, decode w = .instr i ∧ i.wellFormed = true ∧ encode i = w ∧
      ∀ j : Instr, j.wellFormed = true → encode j = w → j = i) ∨
    (∃ e, decode w = .illegal e ∧ ∀ j : Instr, j.wellFormed = true → encode j ≠ w)

/-- R104, R105, R108 to R111 and R303: the engine runs a pending word that passes the checks as the command it decodes to,
and completes any other with ILLEGAL_COMMAND and the cause of the first check that fails. -/
def Obligations.DecodeReportsTheFirstFailedCheck : Prop :=
  ∀ (s : State) (w : CmdWord), s.status.ready = true → s.cur = some w →
    match firstFailure w with
    | none => ∃ i, decode w = .instr i ∧ engineTurn s = exec i s
    | some e => ∃ t, engineTurn s = .next t ∧ CompletedFail s t w .illegalCommand (causeOf e)

/-! ### The machine (60_exceptions.md, 70_reset_and_hazards.md) -/

/-- When the engine has the turn on a ready block and the pending word decodes to `i`, the step is `exec i` on the state
(R303, R304, R309). Around `exec` the step only takes the engine's turn off the inputs (the model's own field, log entry
5). The block has no program counter to move (R38). -/
def Obligations.StepRunsTheDecodedCommand : Prop :=
  ∀ (s : State) (w : CmdWord) (i : Instr) (rest : List BusEvent), s.cfg.Valid → s.status.ready = true →
    s.cur = some w → decode w = .instr i →
    (s.inbox = .engine :: rest → step s = exec i { s with inbox := rest }) ∧ (s.inbox = [] → step s = exec i s)

/-- R301, R302, R306 and R354: a word issued to an idle block is accepted, and the engine's turn then completes it, for
every word but an FRAND, whatever it decodes to. A STATUS read then shows BUSY = 0 and DONE = 1, and ERR the word. -/
def Obligations.IssuedCommandCompletes : Prop :=
  ∀ (s : State) (w : CmdWord) (rest : List BusEvent), s.cfg.Valid → s.isIdle = true →
    s.inbox = .issue s.cfg w :: .engine :: rest → (∀ d, decode w ≠ .instr (.frand d)) →
    ∃ s1 t, step s = .next s1 ∧ s1.status.busy = true ∧ s1.status.done = false ∧ s1.cur = some w ∧
      s1.snapshot = s.regs ∧ s1.regs = s.regs ∧
      step s1 = .next t ∧ t.status.busy = false ∧ t.status.done = true ∧ t.cur = none ∧ t.cmd = w ∧
      t.err.cmdw = w ∧ t.inbox = rest ∧
      (∀ i, decode w = .instr i → exec i { s1 with inbox := rest } = .next t)

/-- The invariant of the block (R32, R34, R35, R46, R53, R55, R61, R80, R302, R311): every step keeps it. -/
def Obligations.StepKeepsTheInvariant : Prop :=
  ∀ s t : State, s.Inv → step s = .next t → t.Inv

/-- The invariant holds at reset, in every configuration a step runs, TOY97 among them (the configuration of
`State.reset`, the model's choice: log entry 1). -/
def Obligations.ResetMeetsTheInvariant : Prop :=
  (∀ c : Config, c.admissible = true → (State.resetWith c).Inv) ∧ State.reset.Inv

/-- R10 and R300: no step ends in a fault. A step answers a next state in every configuration that obeys every constraint
of R8, and refuses every other, whatever the rest of the state: a composite p or r, an h·r that is not the number of points
of the curve and a G of another order among them. -/
def Obligations.StepStopsOnlyOnABadConfiguration : Prop :=
  ∀ s : State, (s.cfg.Valid → ∃ t, step s = .next t) ∧ (¬s.cfg.Valid → step s = .refused .badConfig)

/-- R59: no step changes a constant, because none changes the configuration they are functions of. -/
def Obligations.NoStepChangesAConstant : Prop :=
  ∀ s t : State, step s = .next t → t.cfg = s.cfg ∧ (∀ k : FConst, k.value t.cfg = k.value s.cfg) ∧
    (∀ k : KConst, k.value t.cfg = k.value s.cfg) ∧ (∀ k : PConst, k.value t.cfg = k.value s.cfg)

/-- R305, R306 and R323: a command that completes with a category other than NONE has changed no register and no flag,
only ERR, FAIL, DONE, BUSY and CUR. -/
def Obligations.FailedCommandChangesNoRegister : Prop :=
  ∀ (i : Instr) (s t : State) (w : CmdWord), s.cur = some w → exec i s = .next t → t.cur = none →
    t.err.cat ≠ .none → CompletedFail s t w t.err.cat t.err.cause

/-- R52 and R63: only the seven test commands write FLAGS; a command that is none of them leaves T and Z as they were, and a
test command writes no register. -/
def Obligations.OnlyTestCommandsWriteFlags : Prop :=
  ∀ (i : Instr) (s t : State), exec i s = .next t →
    (isTest i = false → t.flags = s.flags) ∧ (isTest i = true → t.regs = s.regs)

/-- R48, R310 to R312 and the table of R311: a decoded command completes with a cause its row of the table names, with that
cause's category, and FAIL is set exactly when the category is not NONE or FAIL was set before. -/
def Obligations.CommandsRaiseOnlyTheirCauses : Prop :=
  ∀ (i : Instr) (s t : State) (w : CmdWord), s.cfg.FieldValid → s.snapshot.Ok s.cfg → i.wellFormed = true →
    s.cur = some w → exec i s = .next t → t.cur = none →
    mayRaise i t.err.cause = true ∧ t.err.cat = t.err.cause.category ∧
      t.status.fail = (s.status.fail || decide (t.err.cat ≠ .none))

/-- R342: the reset value of every piece of state, as held and as the host reads it, and the values after InitDone, with
the HZD and ACCERR the host caused during INIT. -/
def Obligations.ResetValuesOfEveryPieceOfState : Prop :=
  ∀ c : Config, 1 ≤ c.n → c.n ≤ 32 →
    let s := State.resetWith c
    ((∀ j, s.regs.readF j = 0) ∧ (∀ j, s.regs.readP j = ⟨0, 2 ^ (64 * c.n) % c.p, 0⟩) ∧ (∀ j, s.regs.readK j = 0) ∧
      (s.readCsr .id).toNat = 0x0000001010100100 + c.n ∧ s.readCsr .ctrl = 0 ∧ s.readCsr .status = 0x01 ∧
      s.readCsr .cmd = 0 ∧ s.readCsr .err = 0 ∧ s.readCsr .flags = 0 ∧ s.cur = none ∧ s.inInit = true ∧
      s.irq = false) ∧
    (∀ hzd accErr : Bool,
      let u := { s with status := { s.status with hzd := hzd, accErr := accErr } }.initDone
      (∀ j, u.regs.readF j = 0) ∧ (∀ j, u.regs.readP j = ⟨0, 2 ^ (64 * c.n) % c.p, 0⟩) ∧ (∀ j, u.regs.readK j = 0) ∧
      (u.readCsr .id).toNat = 0x0000001010100100 + c.n ∧ u.readCsr .ctrl = 0 ∧
      (u.readCsr .status).toNat = 0x20 + bitAt hzd 3 + bitAt accErr 4 ∧
      u.readCsr .cmd = 0 ∧ u.readCsr .err = 0 ∧ u.readCsr .flags = 0 ∧ u.cur = none ∧ u.inInit = false ∧
      u.irq = false)

/-- R340: asserting reset gives every piece of state its reset value whatever went before, so a command in flight is
abandoned with none of its writes, and INIT begins. The configuration and the inputs still to come are not the block's. -/
def Obligations.ResetAbandonsTheCommandInFlight : Prop :=
  ∀ (s : State) (rest : List BusEvent), s.cfg.Valid → s.inbox = .reset :: rest →
    ∃ t, step s = .next t ∧ t.regs = Files.atReset s.cfg ∧ t.ctrl = ⟨false, false⟩ ∧
      t.status = ⟨true, false, false, false, false, false⟩ ∧ t.cmd = 0 ∧ t.err = ⟨.none, .none, 0⟩ ∧
      t.flags = ⟨false, false⟩ ∧ t.cur = none ∧ t.inInit = true ∧ t.irq = false ∧ t.cfg = s.cfg ∧ t.inbox = rest

/-- R341 and R51: in INIT the engine's turn is InitDone: READY is set, BUSY cleared and every point register is O; DONE, ERR,
the level of IRQ and everything else stay. READY changes only there and, to 0, at a reset. That the turn that sets READY
also writes P[0] to P[15], from whatever they hold, is DEDUCED (log entry 15): R341's InitDone step writes READY and BUSY. -/
def Obligations.ReadyFollowsInitializationAndReset : Prop :=
  (∀ s : State, s.status.ready = false → ∃ t, engineTurn s = .next t ∧
    t.status = { s.status with ready := true, busy := false } ∧ (∀ j, t.regs.readP j = pointO s.cfg) ∧
    t.regs.f = s.regs.f ∧ t.regs.k = s.regs.k ∧ t.err = s.err ∧ t.irq = s.irq ∧ t.cmd = s.cmd ∧ t.flags = s.flags ∧
    t.ctrl = s.ctrl ∧ t.cur = s.cur) ∧
  (∀ s t : State, step s = .next t → s.status.ready = false → t.status.ready = true →
    s.inbox = [] ∨ ∃ rest, s.inbox = .engine :: rest) ∧
  (∀ s t : State, step s = .next t → s.status.ready = true → t.status.ready = false →
    ∃ rest, s.inbox = .reset :: rest) ∧
  (∀ (s t : State) (rest : List BusEvent), step s = .next t → s.inbox = .reset :: rest → t.status.ready = false)

/-- R22 and R304: the result of a command, which is the registers, FLAGS and the error it completes with, is a function of
the registers at accept, the configuration and the draws: two states that agree on these, and differ in CTRL, STATUS, CMD,
ERR, the inputs or the data last read, complete alike. -/
def Obligations.ResultsDependOnRegistersAndDrawsOnly : Prop :=
  ∀ (i : Instr) (s1 s2 t1 t2 : State), s1.cfg = s2.cfg → s1.snapshot = s2.snapshot → s1.regs = s2.regs →
    s1.rand = s2.rand → s1.draws = s2.draws → s1.flags = s2.flags → s1.cur = s2.cur →
    exec i s1 = .next t1 → exec i s2 = .next t2 →
    t1.regs = t2.regs ∧ t1.flags = t2.flags ∧ t1.cur = t2.cur ∧ t1.rand = t2.rand ∧
      (t1.cur = none → s1.cur ≠ none → t1.err = t2.err)

/-! ### The register window (10_state.md, 20_memory.md) -/

/-- R301 and R302: a 64-bit write of v to CMD issues v[31:0]. Idle and ready, the block accepts it; busy or not ready, it
sets HZD and discards the word, and nothing else changes. -/
def Obligations.CmdWriteIsAcceptedOrDiscarded : Prop :=
  ∀ (s : State) (v : BusWord),
    (s.status.ready = true → s.status.busy = false →
      s.busWrite (s.cfg.base + 0x018) 64 v =
        { s with cmd := v.extractLsb' 0 32, cur := some (v.extractLsb' 0 32), snapshot := s.regs,
                 status := { s.status with done := false, busy := true } }) ∧
    (s.status.ready = false ∨ s.status.busy = true →
      s.busWrite (s.cfg.base + 0x018) 64 v = { s with status := { s.status with hzd := true } })

/-- R80, R307, R308 and R315: while a command is in flight a host access, of any address, width and value, leaves the
command, its operands, every register, FLAGS, ERR and CMD as they were. -/
def Obligations.HostAccessesLeaveTheCommandInFlightAlone : Prop :=
  ∀ (s t : State) (e : BusEvent) (rest : List BusEvent), s.Inv → s.cur ≠ none → s.inbox = e :: rest →
    e ≠ .reset → e ≠ .engine → step s = .next t →
    t.cur = s.cur ∧ t.snapshot = s.snapshot ∧ t.regs = s.regs ∧ t.flags = s.flags ∧ t.err = s.err ∧ t.cmd = s.cmd ∧
      t.status.busy = s.status.busy ∧ t.status.ready = s.status.ready ∧ t.status.fail = (s.status.fail && t.status.fail) ∧
      t.status.done = (s.status.done && t.status.done)

/-- R76: limb j of K[i] is at offset 0x1000 + 0x100·i + 8·j. On a free block a write there replaces that limb and leaves the
other limbs of K[i] and every other register; a read there returns the limb. Slots j ≥ N are undefined. -/
def Obligations.LimbWriteReplacesOneLimb : Prop :=
  ∀ (s : State) (i : KReg) (j : Nat) (v : BusWord), s.cfg.n ≤ 32 → j < s.cfg.n → s.status.ready = true →
    s.status.busy = false →
    let t := s.busWrite (s.cfg.base + (0x1000 + 0x100 * i.val + 8 * j)) 64 v
    (∀ m, (t.busRead (s.cfg.base + (0x1000 + 0x100 * i.val + 8 * m)) 64).readData =
      if m = j then v
      else if m < s.cfg.n then BitVec.ofNat 64 (s.regs.readK i / 2 ^ (64 * m)) else
        (s.busRead (s.cfg.base + (0x1000 + 0x100 * i.val + 8 * m)) 64).readData) ∧
    (∀ m, m ≠ j → t.regs.readK i / 2 ^ (64 * m) % 2 ^ 64 = s.regs.readK i / 2 ^ (64 * m) % 2 ^ 64) ∧
    t.regs.readK i / 2 ^ (64 * j) % 2 ^ 64 = v.toNat ∧
    (∀ m, m ≠ i → t.regs.readK m = s.regs.readK m) ∧ t.regs.f = s.regs.f ∧ t.regs.p = s.regs.p ∧
    t = { s with regs := t.regs } ∧
    (∀ m, s.cfg.n ≤ m → m < 32 → locate s.cfg (0x1000 + 0x100 * i.val + 8 * m) 64 = .undefined)

/-- R73 and R74: an access of a wrong width or alignment, or to an undefined offset (0x0030 to 0x0FFF, and every limb slot
at or above N), is ignored on write, returns 0 on read, sets ACCERR, and does nothing else. -/
def Obligations.UndefinedAccessOnlySetsAccerr : Prop :=
  ∀ (s : State) (off width : Nat) (v : BusWord), off < 0x2000 →
    (width ≠ 64 ∨ off % 8 ≠ 0 ∨ (0x0030 ≤ off ∧ off < 0x1000) ∨ (0x1000 ≤ off ∧ s.cfg.n ≤ off % 0x100 / 8)) →
    s.busWrite (s.cfg.base + off) width v = { s with status := { s.status with accErr := true } } ∧
    s.busRead (s.cfg.base + off) width = { s with status := { s.status with accErr := true }, readData := 0 }

/-- R75: a write to ID, ERR or FLAGS is ignored and sets ACCERR. A write to STATUS or CTRL never sets it, and their read-only
and reserved bits ignore the value. -/
def Obligations.ReadOnlyRegistersIgnoreWrites : Prop :=
  ∀ (s : State) (v : BusWord),
    (∀ off, off = 0x000 ∨ off = 0x020 ∨ off = 0x028 →
      s.busWrite (s.cfg.base + off) 64 v = { s with status := { s.status with accErr := true } }) ∧
    (∀ off, off = 0x008 ∨ off = 0x010 →
      let t := s.busWrite (s.cfg.base + off) 64 v
      (t.status.accErr = true → s.status.accErr = true) ∧ t.status.busy = s.status.busy ∧
        t.status.ready = s.status.ready ∧ (t.readCsr .ctrl).toNat < 4 ∧ (t.readCsr .status).toNat < 64 ∧
        t.regs = s.regs ∧ t.cur = s.cur ∧ t.cmd = s.cmd ∧ t.err = s.err ∧ t.flags = s.flags)

/-- R39, R44 and R45: after a write of v, CTRL reads v with its reserved bits 0, and STATUS reads as before with the bits
DONE, FAIL, HZD and ACCERR cleared where v has a 1; each write changes that register alone, at any time. -/
def Obligations.StatusWritesClearAndCtrlWritesSet : Prop :=
  ∀ (s : State) (v : BusWord),
    let c := s.busWrite (s.cfg.base + 0x008) 64 v
    let t := s.busWrite (s.cfg.base + 0x010) 64 v
    c.readCsr .ctrl = v &&& 0x3 ∧ c = { s with ctrl := c.ctrl } ∧
    t.readCsr .status = s.readCsr .status &&& ~~~(v &&& 0x1E) ∧ t = { s with status := t.status }

/-- R81: while BUSY = 1 or READY = 0 a write of a defined limb is ignored and sets HZD, and a read of one changes only the
data returned, of which nothing is said (and the model's count of free values, log entry 8); on a free block it returns the
committed limb and changes nothing else. -/
def Obligations.LockedLimbsIgnoreWrites : Prop :=
  ∀ (s : State) (i : KReg) (j : Nat) (v : BusWord), s.cfg.n ≤ 32 → j < s.cfg.n →
    let a := s.cfg.base + (0x1000 + 0x100 * i.val + 8 * j)
    (s.status.busy = true ∨ s.status.ready = false →
      s.busWrite a 64 v = { s with status := { s.status with hzd := true } } ∧
      s.busRead a 64 = { s with readData := (s.busRead a 64).readData, draws := (s.busRead a 64).draws }) ∧
    (s.status.busy = false → s.status.ready = true →
      s.busRead a 64 = { s with readData := BitVec.ofNat 64 (s.regs.readK i / 2 ^ (64 * j)) })

/-- R42 and R78: a read of any address, of any width, changes no state of the block but ACCERR, and ACCERR only from 0 to 1
through an access inside the window that it does not define. -/
def Obligations.ReadsChangeOnlyAccerr : Prop :=
  ∀ (s : State) (addr width : Nat),
    let t := s.busRead addr width
    t = { s with status := { s.status with accErr := t.status.accErr }, readData := t.readData, draws := t.draws } ∧
    (t.status.accErr ≠ s.status.accErr → t.status.accErr = true ∧ s.cfg.base ≤ addr ∧ addr < s.cfg.base + 0x2000 ∧
      (width ≠ 64 ∨ (addr - s.cfg.base) % 8 ≠ 0 ∨ (0x0030 ≤ addr - s.cfg.base ∧ addr - s.cfg.base < 0x1000) ∨
        (0x1000 ≤ addr - s.cfg.base ∧ s.cfg.n ≤ (addr - s.cfg.base) % 0x100 / 8)))

/-- R43, R45, R52, R53 and R54: what the host reads at the offset of each control and status register. -/
def Obligations.RegisterReadsShowTheirFields : Prop :=
  ∀ s : State, s.cfg.n ≤ 32 →
    let read := fun off => (s.busRead (s.cfg.base + off) 64).readData
    (read 0x000).toNat = 0x0000001010100100 + s.cfg.n ∧
    (read 0x008).toNat = bitAt s.ctrl.ieDone 0 + bitAt s.ctrl.ieErr 1 ∧
    (read 0x010).getLsbD 0 = s.status.busy ∧ (read 0x010).getLsbD 1 = s.status.done ∧
    (read 0x010).getLsbD 2 = s.status.fail ∧ (read 0x010).getLsbD 3 = s.status.hzd ∧
    (read 0x010).getLsbD 4 = s.status.accErr ∧ (read 0x010).getLsbD 5 = s.status.ready ∧
    (read 0x010).extractLsb' 6 58 = 0 ∧
    (read 0x018).extractLsb' 0 32 = s.cmd ∧ (read 0x018).extractLsb' 32 32 = 0 ∧
    ((read 0x020).extractLsb' 0 4).toNat = s.err.cat.code ∧ (read 0x020).extractLsb' 4 4 = 0 ∧
    ((read 0x020).extractLsb' 8 8).toNat = s.err.cause.code ∧ (read 0x020).extractLsb' 16 16 = 0 ∧
    (read 0x020).extractLsb' 32 32 = s.err.cmdw ∧
    (read 0x028).getLsbD 0 = s.flags.t ∧ (read 0x028).getLsbD 1 = s.flags.z ∧ (read 0x028).extractLsb' 2 62 = 0

/-- R320 and R321: the level of IRQ, and what lowers it: a W1C write to STATUS of any value that holds the bits that raise
it, or clearing the enables in CTRL, after whose write IRQ is the level under the enables written. An accept clears DONE's
part and leaves the rest. A read of STATUS or ERR clears nothing. -/
def Obligations.IrqIsALevelOfStatusAndCtrl : Prop :=
  ∀ (s : State) (v : BusWord),
    (s.irq = true ↔ (s.status.done = true ∧ s.ctrl.ieDone = true) ∨
      ((s.status.fail = true ∨ s.status.hzd = true ∨ s.status.accErr = true) ∧ s.ctrl.ieErr = true)) ∧
    ((s.ctrl.ieDone = true → s.status.done = true → v.getLsbD 1 = true) →
      (s.ctrl.ieErr = true → (s.status.fail = true → v.getLsbD 2 = true) ∧ (s.status.hzd = true → v.getLsbD 3 = true) ∧
        (s.status.accErr = true → v.getLsbD 4 = true)) →
      (s.busWrite (s.cfg.base + 0x010) 64 v).irq = false) ∧
    ((s.busWrite (s.cfg.base + 0x008) 64 v).irq = true ↔ (s.status.done = true ∧ v.getLsbD 0 = true) ∨
      ((s.status.fail = true ∨ s.status.hzd = true ∨ s.status.accErr = true) ∧ v.getLsbD 1 = true)) ∧
    (v &&& 0x3 = 0 → (s.busWrite (s.cfg.base + 0x008) 64 v).irq = false) ∧
    (s.status.ready = true → s.status.busy = false →
      ((s.busWrite (s.cfg.base + 0x018) 64 v).irq = true ↔
        (s.status.fail = true ∨ s.status.hzd = true ∨ s.status.accErr = true) ∧ s.ctrl.ieErr = true)) ∧
    (s.busRead (s.cfg.base + 0x010) 64).irq = s.irq ∧ (s.busRead (s.cfg.base + 0x020) 64).irq = s.irq ∧
    (State.resetWith s.cfg).irq = false

/-! ### Field arithmetic (00_scope.md, 41_field_arith.md, 42_field_inv_sqrt.md) -/

/-- R9: the derived constants, each by what defines it. -/
def Obligations.DerivedConstantsMeetTheirDefinitions : Prop :=
  ∀ c : Config, c.admissible = true →
    c.inv64 < 2 ^ 64 ∧ (c.inv64 * c.p + 1) % 2 ^ 64 = 0 ∧
    c.rm = 2 ^ (64 * c.n) % c.p ∧ c.r2 = (2 ^ (64 * c.n)) ^ 2 % c.p ∧ c.r3 = (2 ^ (64 * c.n)) ^ 3 % c.p ∧
    c.p - 1 = 2 ^ c.s * c.t ∧ c.t % 2 = 1 ∧ 1 ≤ c.s ∧
    2 * c.tm1h + 1 = c.t ∧ 2 * c.pm1h + 1 = c.p ∧ c.nqrt = c.nqr ^ c.t % c.p

/-- R160: for T below p·R, REDC's value is below p and congruent to T·R⁻¹, and the u before the subtraction is exact and
below 2p. -/
def Obligations.RedcReducesExactly : Prop :=
  ∀ (c : Config) (x : Nat), c.admissible = true → x < c.p * 2 ^ (64 * c.n) →
    let m := x % 2 ^ (64 * c.n) * c.invW % 2 ^ (64 * c.n)
    (c.invW * c.p + 1) % 2 ^ (64 * c.n) = 0 ∧ (x + m * c.p) % 2 ^ (64 * c.n) = 0 ∧
    (x + m * c.p) / 2 ^ (64 * c.n) < 2 * c.p ∧ redc c x < c.p ∧ redc c x * 2 ^ (64 * c.n) ≡ x [MOD c.p]

/-- R161: MontMul's result is the one integer in [0, p) congruent to a·b·R⁻¹ modulo p, and on values it is multiplication. -/
def Obligations.MontMulIsTheUniqueReducedProduct : Prop :=
  ∀ (c : Config) (a b : Nat), c.admissible = true → a < c.p → b < c.p →
    montMul c a b = redc c (a * b) ∧ montMul c a b < c.p ∧ montMul c a b * 2 ^ (64 * c.n) ≡ a * b [MOD c.p] ∧
    (∀ x, x < c.p → x * 2 ^ (64 * c.n) ≡ a * b [MOD c.p] → x = montMul c a b) ∧
    std c (montMul c a b) = std c a * std c b % c.p

/-- R162: the word-level multiplier gives MontMul's result, for every number of limbs. -/
def Obligations.WordLevelMultiplierEqualsMontMul : Prop :=
  ∀ (c : Config) (a b : Nat), c.admissible = true → a < c.p → b < c.p → montMulCios c a b = montMul c a b

/-- R163, R164 and R165: the additive operations as written, below p, and on values. -/
def Obligations.AdditiveOperationsAreTheFields : Prop :=
  ∀ (c : Config) (a b : Nat), c.admissible = true → a < c.p → b < c.p →
    (fieldAdd c a b = if c.p ≤ a + b then a + b - c.p else a + b) ∧ fieldAdd c a b < c.p ∧
    std c (fieldAdd c a b) = (std c a + std c b) % c.p ∧
    (fieldSub c a b = if b ≤ a then a - b else a + c.p - b) ∧ fieldSub c a b < c.p ∧
    std c (fieldSub c a b) = (std c a + (c.p - std c b)) % c.p ∧
    (fieldNeg c a = if a = 0 then 0 else c.p - a) ∧ fieldNeg c a < c.p ∧ fieldAdd c a (fieldNeg c a) = 0

/-- R166: the laws of the field, on representatives. -/
def Obligations.FieldLawsHoldOnRepresentatives : Prop :=
  ∀ (c : Config) (x y z : Nat), c.admissible = true → x < c.p → y < c.p → z < c.p →
    fieldAdd c (fieldAdd c x y) z = fieldAdd c x (fieldAdd c y z) ∧ fieldAdd c x y = fieldAdd c y x ∧
    montMul c (montMul c x y) z = montMul c x (montMul c y z) ∧ montMul c x y = montMul c y x ∧
    montMul c x (fieldAdd c y z) = fieldAdd c (montMul c x y) (montMul c x z) ∧
    fieldAdd c x 0 = x ∧ montMul c x c.rm = x ∧ sq c x = montMul c x x ∧
    fieldAdd c x y < c.p ∧ fieldSub c x y < c.p ∧ montMul c x y < c.p ∧ sq c x < c.p ∧ fieldNeg c x < c.p

/-! ### Transfer and conversion commands (40_transfer.md) -/

/-- R130, R131, R136, R137, R139 and R140: NOP completes with no register written; FMOV, KMOV, PMOV, PSET and PGET complete
with the destination holding what the source held at accept. -/
def Obligations.RegisterTransfersComplete : Prop :=
  ∀ (s : State) (w : CmdWord), s.cur = some w →
    (decode 0x00000001#32 = .instr .nop ∧
      ∃ t, exec .nop s = .next t ∧ CompletedOk s t w ∧ t.regs = s.regs ∧ t.flags = s.flags) ∧
    (∀ d a : FReg, decode (packWord 0x10 d a 0 0) = .instr (.fmov d a) ∧
      ∃ t, exec (.fmov d a) s = .next t ∧ CompletedOk s t w ∧ OnlyF s t d (s.srcF a)) ∧
    (∀ d a : KReg, decode (packWord 0x51 d a 0 0) = .instr (.kmov d a) ∧
      ∃ t, exec (.kmov d a) s = .next t ∧ CompletedOk s t w ∧ OnlyK s t d (s.srcK a)) ∧
    (∀ d a : PReg, decode (packWord 0x30 d a 0 0) = .instr (.pmov d a) ∧
      ∃ t, exec (.pmov d a) s = .next t ∧ CompletedOk s t w ∧ OnlyP s t d (s.srcP a)) ∧
    (∀ (d : PReg) (a b c : FReg), decode (packWord 0x32 d a b c) = .instr (.pset d a b c) ∧
      ∃ t, exec (.pset d a b c) s = .next t ∧ CompletedOk s t w ∧ OnlyP s t d ⟨s.srcF a, s.srcF b, s.srcF c⟩) ∧
    (∀ (d : FReg) (a : PReg),
      decode (packWord 0x33 d a 0 0) = .instr (.pget d a .x) ∧ decode (packWord 0x33 d a 1 0) = .instr (.pget d a .y) ∧
      decode (packWord 0x33 d a 2 0) = .instr (.pget d a .z) ∧
      (∀ v : Fin 16, 2 < v.val → decode (packWord 0x33 d a v 0) = .illegal .illIndex) ∧
      (∃ t, exec (.pget d a .x) s = .next t ∧ CompletedOk s t w ∧ OnlyF s t d (s.srcP a).x) ∧
      (∃ t, exec (.pget d a .y) s = .next t ∧ CompletedOk s t w ∧ OnlyF s t d (s.srcP a).y) ∧
      (∃ t, exec (.pget d a .z) s = .next t ∧ CompletedOk s t w ∧ OnlyF s t d (s.srcP a).z))

/-- R56 and R132: FLDC loads the constant its selector names, and a selector above 5 is illegal. -/
def Obligations.FldcLoadsTheFieldConstants : Prop :=
  ∀ (s : State) (w : CmdWord) (d : FReg) (v : Fin 16), s.cfg.admissible = true → s.cur = some w →
    (5 < v.val → decode (packWord 0x11 d v 0 0) = .illegal .illIndex) ∧
    (v.val ≤ 5 → ∃ sel, decode (packWord 0x11 d v 0 0) = .instr (.fldc d sel) ∧
      ∃ t, exec (.fldc d sel) s = .next t ∧ CompletedOk s t w ∧
        OnlyF s t d ([0, 2 ^ s.cfg.w % s.cfg.p, s.cfg.b * 2 ^ s.cfg.w % s.cfg.p, s.cfg.nqr * 2 ^ s.cfg.w % s.cfg.p,
          s.cfg.nqr ^ s.cfg.t % s.cfg.p * 2 ^ s.cfg.w % s.cfg.p, s.cfg.root * 2 ^ s.cfg.w % s.cfg.p].getD v.val 0))

/-- R57 and R135: KLDC loads the constant its selector names, below 2^W, and a selector above 10 is illegal. -/
def Obligations.KldcLoadsTheScalarConstants : Prop :=
  ∀ (s : State) (w : CmdWord) (d : KReg) (v : Fin 16), s.cfg.admissible = true → s.cur = some w →
    (10 < v.val → decode (packWord 0x50 d v 0 0) = .illegal .illIndex) ∧
    (v.val ≤ 10 → ∃ sel, decode (packWord 0x50 d v 0 0) = .instr (.kldc d sel) ∧
      ∃ t inv, exec (.kldc d sel) s = .next t ∧ CompletedOk s t w ∧
        inv < 2 ^ 64 ∧ (inv * s.cfg.p + 1) % 2 ^ 64 = 0 ∧ s.cfg.p - 1 = 2 ^ s.cfg.s * s.cfg.t ∧ s.cfg.t % 2 = 1 ∧
        t.regs.readK d < 2 ^ s.cfg.w ∧
        OnlyK s t d ([s.cfg.p, s.cfg.r, s.cfg.h, s.cfg.s, s.cfg.t, (s.cfg.t - 1) / 2, (s.cfg.p - 1) / 2, inv,
          (2 ^ s.cfg.w) ^ 2 % s.cfg.p, (2 ^ s.cfg.w) ^ 3 % s.cfg.p, 2 ^ s.cfg.w % s.cfg.p].getD v.val 0))

/-- R58 and R138: PLDC loads O or G, and a selector above 1 is illegal. -/
def Obligations.PldcLoadsThePointConstants : Prop :=
  ∀ (s : State) (w : CmdWord) (d : PReg), s.cur = some w →
    (∀ v : Fin 16, 1 < v.val → decode (packWord 0x31 d v 0 0) = .illegal .illIndex) ∧
    decode (packWord 0x31 d 0 0 0) = .instr (.pldc d .o) ∧ decode (packWord 0x31 d 1 0 0) = .instr (.pldc d .g) ∧
    (∃ t, exec (.pldc d .o) s = .next t ∧ CompletedOk s t w ∧ OnlyP s t d ⟨0, 2 ^ s.cfg.w % s.cfg.p, 0⟩) ∧
    (∃ t, exec (.pldc d .g) s = .next t ∧ CompletedOk s t w ∧
      OnlyP s t d ⟨s.cfg.gx * 2 ^ s.cfg.w % s.cfg.p, s.cfg.gy * 2 ^ s.cfg.w % s.cfg.p, 2 ^ s.cfg.w % s.cfg.p⟩)

/-- R133: TOMONT writes k·R mod p for a scalar k below p, and fails INVALID_OPERAND / NOT_CANONICAL at or above it. -/
def Obligations.TomontLiftsCanonicalScalars : Prop :=
  ∀ (s : State) (w : CmdWord) (d : FReg) (a : KReg), s.cfg.admissible = true → s.cur = some w →
    decode (packWord 0x12 d a 0 0) = .instr (.tomont d a) ∧
    (s.srcK a < s.cfg.p → ∃ t, exec (.tomont d a) s = .next t ∧ CompletedOk s t w ∧
      OnlyF s t d (s.srcK a * 2 ^ s.cfg.w % s.cfg.p)) ∧
    (s.cfg.p ≤ s.srcK a → ∃ t, exec (.tomont d a) s = .next t ∧ CompletedFail s t w .invalidOperand .notCanonical)

/-- R134: FROMM writes the standard residue of the representative, the one value below p that TOMONT takes to it. -/
def Obligations.FrommReturnsTheStandardResidue : Prop :=
  ∀ (s : State) (w : CmdWord) (d : KReg) (a : FReg), s.cfg.admissible = true → s.srcF a < s.cfg.p → s.cur = some w →
    decode (packWord 0x13 d a 0 0) = .instr (.fromm d a) ∧
    ∃ t v, exec (.fromm d a) s = .next t ∧ CompletedOk s t w ∧ OnlyK s t d v ∧ v = redc s.cfg (s.srcF a) ∧
      v < s.cfg.p ∧ v * 2 ^ s.cfg.w % s.cfg.p = s.srcF a ∧
      ∀ k, k < s.cfg.p → k * 2 ^ s.cfg.w % s.cfg.p = s.srcF a → k = v

/-! ### Field commands (41_field_arith.md, 42_field_inv_sqrt.md) -/

/-- R167, R168 and R169: FADD, FSUB and FNEG write the sum, the difference and the negation modulo p. -/
def Obligations.AdditiveFieldCommandsComplete : Prop :=
  ∀ (s : State) (w : CmdWord) (d a b : FReg), s.srcF a < s.cfg.p → s.srcF b < s.cfg.p → s.cur = some w →
    (decode (packWord 0x18 d a b 0) = .instr (.fadd d a b) ∧
      ∃ t, exec (.fadd d a b) s = .next t ∧ CompletedOk s t w ∧ OnlyF s t d ((s.srcF a + s.srcF b) % s.cfg.p)) ∧
    (decode (packWord 0x19 d a b 0) = .instr (.fsub d a b) ∧
      ∃ t, exec (.fsub d a b) s = .next t ∧ CompletedOk s t w ∧
        OnlyF s t d ((s.srcF a + (s.cfg.p - s.srcF b)) % s.cfg.p)) ∧
    (decode (packWord 0x1A d a 0 0) = .instr (.fneg d a) ∧
      ∃ t, exec (.fneg d a) s = .next t ∧ CompletedOk s t w ∧ OnlyF s t d ((s.cfg.p - s.srcF a) % s.cfg.p))

/-- R170 and R171: FMUL and FSQR write the representative of the product of the values. -/
def Obligations.MultiplicativeFieldCommandsComplete : Prop :=
  ∀ (s : State) (w : CmdWord) (d a b : FReg), s.cfg.admissible = true → s.srcF a < s.cfg.p → s.srcF b < s.cfg.p →
    s.cur = some w →
    (decode (packWord 0x1B d a b 0) = .instr (.fmul d a b) ∧
      ∃ t x, exec (.fmul d a b) s = .next t ∧ CompletedOk s t w ∧ OnlyF s t d x ∧ x = montMul s.cfg (s.srcF a) (s.srcF b) ∧
        x < s.cfg.p ∧ x * 2 ^ s.cfg.w ≡ s.srcF a * s.srcF b [MOD s.cfg.p]) ∧
    (decode (packWord 0x1C d a 0 0) = .instr (.fsqr d a) ∧
      ∃ t x, exec (.fsqr d a) s = .next t ∧ CompletedOk s t w ∧ OnlyF s t d x ∧ x = montMul s.cfg (s.srcF a) (s.srcF a) ∧
        x < s.cfg.p ∧ x * 2 ^ s.cfg.w ≡ s.srcF a * s.srcF a [MOD s.cfg.p])

/-- R172: FPOW writes mont(val(a)^e mod p), for every exponent of W bits, 0 among them. -/
def Obligations.FpowComputesThePower : Prop :=
  ∀ (s : State) (w : CmdWord) (d a : FReg) (b : KReg), s.cfg.admissible = true → s.srcF a < s.cfg.p →
    s.srcK b < 2 ^ s.cfg.w → s.cur = some w →
    decode (packWord 0x1E d a b 0) = .instr (.fpow d a b) ∧
    ∃ t, exec (.fpow d a b) s = .next t ∧ CompletedOk s t w ∧
      OnlyF s t d (s.cfg.mont (std s.cfg (s.srcF a) ^ s.srcK b % s.cfg.p))

/-- R173 and R174: FEQ and FISZ write the flags of equality and of zero. -/
def Obligations.FieldTestsWriteTheirFlags : Prop :=
  ∀ (s : State) (w : CmdWord) (a b : FReg), s.cur = some w →
    (decode (packWord 0x22 0 a b 0) = .instr (.feq a b) ∧
      ∃ t, exec (.feq a b) s = .next t ∧ CompletedOk s t w ∧ OnlyFlags s t (s.srcF a = s.srcF b) (s.srcF a = 0)) ∧
    (decode (packWord 0x23 0 a 0 0) = .instr (.fisz a) ∧
      ∃ t, exec (.fisz a) s = .next t ∧ CompletedOk s t w ∧ OnlyFlags s t (s.srcF a = 0) (s.srcF a = 0))

/-- R175: FRAND draws rounds of N words until a candidate is below p, and writes that candidate's representative. A round
whose candidate is below p completes in that turn. After any number of rejected rounds the command is still in flight, with
nothing changed but the words drawn; the first accepted one completes it. (One round a turn of the engine: the model's
choice, log entry 7.) -/
def Obligations.FrandTakesTheFirstAcceptedRound : Prop :=
  ∀ (s : State) (w : CmdWord) (d : FReg), s.cfg.admissible = true → s.cur = some w →
    decode (packWord 0x14 d 0 0 0) = .instr (.frand d) ∧
    (∀ (good rest : List BusWord), good.length = s.cfg.n → s.rand = good ++ rest → candidate s.cfg good < s.cfg.p →
      ∃ t, exec (.frand d) s = .next t ∧ CompletedOk { s with rand := rest } t w ∧
        OnlyF s t d (s.cfg.mont (candidate s.cfg good))) ∧
    (∀ (bad : List (List BusWord)) (good rest : List BusWord),
      (∀ ws ∈ bad, ws.length = s.cfg.n ∧ s.cfg.p ≤ candidate s.cfg ws) → good.length = s.cfg.n →
      candidate s.cfg good < s.cfg.p → s.rand = bad.flatten ++ good ++ rest →
      afterTurns (.frand d) bad.length s = some { s with rand := good ++ rest } ∧
      ∃ t, afterTurns (.frand d) (bad.length + 1) s = some t ∧ CompletedOk { s with rand := rest } t w ∧
        OnlyF s t d (s.cfg.mont (candidate s.cfg good)))

/-- R190 and R191: FINV of a non-zero element writes the element whose product with it is ONE; of zero it fails
INVALID_OPERAND / INV_ZERO. -/
def Obligations.FinvInvertsOrFails : Prop :=
  ∀ (s : State) (w : CmdWord) (d a : FReg), s.cfg.FieldValid → s.srcF a < s.cfg.p → s.cur = some w →
    decode (packWord 0x1D d a 0 0) = .instr (.finv d a) ∧
    (s.srcF a = 0 → ∃ t, exec (.finv d a) s = .next t ∧ CompletedFail s t w .invalidOperand .invZero) ∧
    (s.srcF a ≠ 0 → ∃ t x, exec (.finv d a) s = .next t ∧ CompletedOk s t w ∧ OnlyF s t d x ∧ x < s.cfg.p ∧
      montMul s.cfg (s.srcF a) x = s.cfg.rm ∧ std s.cfg (s.srcF a) * std s.cfg x % s.cfg.p = 1)

/-- R192 and R193: FQRT sets T exactly when the element is the square of some element, zero included, which is exactly when
Sqrt succeeds on it, and Z exactly when it is zero. -/
def Obligations.FqrtDecidesSquares : Prop :=
  ∀ (s : State) (w : CmdWord) (a : FReg), s.cfg.FieldValid → s.srcF a < s.cfg.p → s.cur = some w →
    decode (packWord 0x21 0 a 0 0) = .instr (.fqrt a) ∧
    ∃ t, exec (.fqrt a) s = .next t ∧ CompletedOk s t w ∧
      OnlyFlags s t (∃ y, y < s.cfg.p ∧ montMul s.cfg y y = s.srcF a) (s.srcF a = 0) ∧
      (t.flags.t = true ↔ (fieldSqrt? s.cfg (s.srcF a)).isSome = true)

/-- R194 to R196: FSQRT writes a square root of a residue, the one of R194's loop where SQRT_ROOT has its default (R197),
and fails PRECONDITION_VIOLATION / NOT_A_RESIDUE exactly on the elements that are no square. -/
def Obligations.FsqrtFindsARootOrFails : Prop :=
  ∀ (s : State) (w : CmdWord) (d a : FReg), s.cfg.FieldValid → s.srcF a < s.cfg.p → s.cur = some w →
    decode (packWord 0x20 d a 0 0) = .instr (.fsqrt d a) ∧
    ((∃ y, y < s.cfg.p ∧ montMul s.cfg y y = s.srcF a) →
      ∃ t x, exec (.fsqrt d a) s = .next t ∧ CompletedOk s t w ∧ OnlyF s t d x ∧ x < s.cfg.p ∧
        montMul s.cfg x x = s.srcF a ∧ (s.cfg.sqrtRoot = .loop → fieldSqrt? s.cfg (s.srcF a) = some x)) ∧
    ((¬ ∃ y, y < s.cfg.p ∧ montMul s.cfg y y = s.srcF a) →
      ∃ t, exec (.fsqrt d a) s = .next t ∧ CompletedFail s t w .preconditionViolation .notAResidue)

/-! ### Curve group (43_curve_group.md, 44_scalar_mul.md) -/

/-- R212 and R214: PADD writes the sum of the two points by the chord and tangent law, an Infinity operand returning the
other's triple unchanged; and, with POINT_FORMULAS at its default (R210), the triple of Add. The law on affine points is
derived from R17 and R212. What a drawn POINT_FORMULAS may answer, one scaling of a Finite triple and an Infinity's own
triple, is log entry 10 (DESIGN CHOICE). -/
def Obligations.PaddAddsInTheGroup : Prop :=
  ∀ (s : State) (w : CmdWord) (d a b : PReg), s.cfg.FieldValid → isRepPoint s.cfg (s.srcP a) →
    isRepPoint s.cfg (s.srcP b) → s.cur = some w →
    decode (packWord 0x38 d a b 0) = .instr (.padd d a b) ∧
    ∃ t q, exec (.padd d a b) s = .next t ∧ CompletedOk s t w ∧ OnlyP s t d q ∧
      IsGroupSum s.cfg (s.srcP a) (s.srcP b) q ∧ IsTripleOf s.cfg (pointAdd s.cfg (s.srcP a) (s.srcP b)) q ∧
      (a = b → (s.srcP a).z ≠ 0 → pointAdd s.cfg (s.srcP a) (s.srcP b) = pointDbl s.cfg (s.srcP a))

/-- R211, R216 and R217: PDBL writes the double of the point, Infinity unchanged; PNEG flips the sign of Y and keeps X and
Z. The tangent law on affine points is derived from R17 and R211. What a drawn POINT_FORMULAS (R210) may answer, one
scaling of a Finite triple and an Infinity's own triple, is log entry 10 (DESIGN CHOICE). -/
def Obligations.PdblDoublesAndPnegNegates : Prop :=
  ∀ (s : State) (w : CmdWord) (d a : PReg), s.cfg.FieldValid → isRepPoint s.cfg (s.srcP a) → s.cur = some w →
    (decode (packWord 0x3A d a 0 0) = .instr (.pdbl d a) ∧
      ∃ t q, exec (.pdbl d a) s = .next t ∧ CompletedOk s t w ∧ OnlyP s t d q ∧
        IsGroupSum s.cfg (s.srcP a) (s.srcP a) q ∧ IsTripleOf s.cfg (pointDbl s.cfg (s.srcP a)) q) ∧
    (decode (packWord 0x3B d a 0 0) = .instr (.pneg d a) ∧
      ∃ t, exec (.pneg d a) s = .next t ∧ CompletedOk s t w ∧
        OnlyP s t d ⟨(s.srcP a).x, (s.cfg.p - (s.srcP a).y) % s.cfg.p, (s.srcP a).z⟩)

/-- R213 and R215: PMADD fails PRECONDITION_VIOLATION / MADD_NOT_NORMALIZED exactly when the right operand's Z is neither
ONE nor 0, whatever the left operand; else it writes the sum, the same logical point as Add's. The law on affine points is
derived from R17 and R213. What a drawn POINT_FORMULAS (R210) may answer, one scaling of a Finite triple and an Infinity's
own triple, is log entry 10 (DESIGN CHOICE). -/
def Obligations.PmaddChecksThenAdds : Prop :=
  ∀ (s : State) (w : CmdWord) (d a b : PReg), s.cfg.FieldValid → isRepPoint s.cfg (s.srcP a) →
    isRepPoint s.cfg (s.srcP b) → s.cur = some w →
    decode (packWord 0x39 d a b 0) = .instr (.pmadd d a b) ∧
    ((s.srcP b).z ≠ s.cfg.rm → (s.srcP b).z ≠ 0 →
      ∃ t, exec (.pmadd d a b) s = .next t ∧ CompletedFail s t w .preconditionViolation .maddNotNormalized) ∧
    ((s.srcP b).z = s.cfg.rm ∨ (s.srcP b).z = 0 →
      ∃ t q base, exec (.pmadd d a b) s = .next t ∧ CompletedOk s t w ∧ OnlyP s t d q ∧
        IsGroupSum s.cfg (s.srcP a) (s.srcP b) q ∧ pointMAdd? s.cfg (s.srcP a) (s.srcP b) = some base ∧
        IsTripleOf s.cfg base q ∧ LogicalEq s.cfg q (pointAdd s.cfg (s.srcP a) (s.srcP b)))

/-- The source's property that 90_conflicts.md C2 quotes and R220 serves: a point that add, mixed add, double,
negate, multiply or normalize makes of points on the curve is on the curve. -/
def Obligations.GroupOperationsStayOnTheCurve : Prop :=
  ∀ (c : Config) (q1 q2 : Point) (k : Nat), c.FieldValid → isRepPoint c q1 → isRepPoint c q2 →
    onCurve c q1 = true → onCurve c q2 = true →
    onCurve c (pointAdd c q1 q2) = true ∧ (∀ q, pointMAdd? c q1 q2 = some q → onCurve c q = true) ∧
    onCurve c (pointDbl c q1) = true ∧ onCurve c (pointNeg c q1) = true ∧
    onCurve c (scalarMul c k q1) = true ∧ onCurve c (normalize c q1) = true ∧
    onCurve c (pointO c) = true ∧ onCurve c (pointG c) = true

/-- R218, R219 and R220: PEQ decides whether the two triples stand for one logical point, PISZ whether the point is
Infinity, PWF whether it is Infinity or its affine point is on the curve; each sets Z for an Infinity first operand. -/
def Obligations.PointTestsDecideTheirProperties : Prop :=
  ∀ (s : State) (w : CmdWord) (a b : PReg), s.cfg.FieldValid → isRepPoint s.cfg (s.srcP a) →
    isRepPoint s.cfg (s.srcP b) → s.cur = some w →
    (decode (packWord 0x40 0 a b 0) = .instr (.peq a b) ∧
      ∃ t, exec (.peq a b) s = .next t ∧ CompletedOk s t w ∧
        OnlyFlags s t (LogicalEq s.cfg (s.srcP a) (s.srcP b)) ((s.srcP a).z = 0)) ∧
    (decode (packWord 0x41 0 a 0 0) = .instr (.pisz a) ∧
      ∃ t, exec (.pisz a) s = .next t ∧ CompletedOk s t w ∧ OnlyFlags s t ((s.srcP a).z = 0) ((s.srcP a).z = 0)) ∧
    (decode (packWord 0x42 0 a 0 0) = .instr (.pwf a) ∧
      ∃ t, exec (.pwf a) s = .next t ∧ CompletedOk s t w ∧
        OnlyFlags s t ((s.srcP a).z = 0 ∨ affineY s.cfg (s.srcP a) ^ 2 = affineX s.cfg (s.srcP a) ^ 3 + s.cfg.b)
          ((s.srcP a).z = 0))

/-- R240: ScalarMul is double-and-add from the most significant bit: its recursion on the scalar. -/
def Obligations.ScalarMulIsDoubleAndAdd : Prop :=
  ∀ (c : Config) (q : Point), scalarMul c 0 q = ⟨0, 2 ^ c.w % c.p, 0⟩ ∧
    ∀ k, 2 * k + 1 < 2 ^ c.w →
      scalarMul c (2 * k) q = pointDbl c (scalarMul c k q) ∧
      scalarMul c (2 * k + 1) q = pointAdd c (pointDbl c (scalarMul c k q)) q

/-- R241, R243, R244 and R245: PSMUL and PCOF write the triple of ScalarMul by the whole scalar and by the cofactor; a
scalar 0 gives O and a scalar 1 the operand's own triple, and so does an Infinity operand with any other. PSSG tells
whether r times the point is Infinity, which it is for Infinity. What a drawn POINT_FORMULAS (R210) may answer, one scaling
of a Finite triple, an Infinity's own triple, and no scaling for the scalars 0 and 1, is log entry 10 (DESIGN CHOICE). -/
def Obligations.ScalarMultiplicationCommandsComplete : Prop :=
  ∀ (s : State) (w : CmdWord) (d a : PReg) (b : KReg), s.cfg.admissible = true → s.srcK b < 2 ^ s.cfg.w →
    s.cur = some w →
    (decode (packWord 0x3C d a b 0) = .instr (.psmul d a b) ∧
      ∃ t q, exec (.psmul d a b) s = .next t ∧ CompletedOk s t w ∧ OnlyP s t d q ∧
        IsTripleOf s.cfg (scalarMul s.cfg (s.srcK b) (s.srcP a)) q ∧
        (s.srcK b = 0 → q = pointO s.cfg) ∧ (s.srcK b = 1 → q = s.srcP a) ∧
        (s.srcK b ≠ 0 → (s.srcP a).z = 0 → q = s.srcP a)) ∧
    (decode (packWord 0x3D d a 0 0) = .instr (.pcof d a) ∧
      ∃ t q, exec (.pcof d a) s = .next t ∧ CompletedOk s t w ∧ OnlyP s t d q ∧
        IsTripleOf s.cfg (scalarMul s.cfg s.cfg.h (s.srcP a)) q ∧ (s.cfg.h = 1 → q = s.srcP a) ∧
        ((s.srcP a).z = 0 → q = s.srcP a)) ∧
    (decode (packWord 0x43 0 a 0 0) = .instr (.pssg a) ∧
      ∃ t, exec (.pssg a) s = .next t ∧ CompletedOk s t w ∧
        OnlyFlags s t ((scalarMul s.cfg s.cfg.r (s.srcP a)).z = 0) ((s.srcP a).z = 0) ∧
        ((s.srcP a).z = 0 → t.flags.t = true))

/-! ### Normalization and codec (45_normalize_codec.md) -/

/-- R260 and R261: PNORM writes O for an Infinity, else the triple with Z = ONE that is logically equal to the operand; two
logically equal operands give one triple. -/
def Obligations.PnormGivesTheCanonicalTriple : Prop :=
  ∀ (s : State) (w : CmdWord) (d a : PReg), s.cfg.FieldValid → isRepPoint s.cfg (s.srcP a) → s.cur = some w →
    decode (packWord 0x48 d a 0 0) = .instr (.pnorm d a) ∧
    ∃ t q, exec (.pnorm d a) s = .next t ∧ CompletedOk s t w ∧ OnlyP s t d q ∧ q = normalize s.cfg (s.srcP a) ∧
      LogicalEq s.cfg q (s.srcP a) ∧ isRepPoint s.cfg q ∧ ((s.srcP a).z = 0 → q = ⟨0, s.cfg.rm, 0⟩) ∧
      ((s.srcP a).z ≠ 0 → q.z = s.cfg.rm) ∧ ((s.srcP a).z = s.cfg.rm → q = s.srcP a) ∧
      (∀ q2, isRepPoint s.cfg q2 → LogicalEq s.cfg q2 (s.srcP a) → normalize s.cfg q2 = q)

/-- R105, R262 and R263: PBNORM, a range that leaves the point file aside (it is ILL_INDEX), fails
PRECONDITION_VIOLATION / BNORM_INFINITY when some point of the batch is Infinity; else every register of the batch holds
what Normalize gives of its own point, and no other register changes. The word of such a range fails at decode; that `exec`
of the command it would be fails alike is log entry 19 (DESIGN CHOICE). -/
def Obligations.PbnormNormalizesEachPointOfTheBatch : Prop :=
  ∀ (s : State) (w : CmdWord) (a : PReg) (b : Fin 16), s.cfg.FieldValid → s.snapshot.Ok s.cfg → s.cur = some w →
    (16 < a.val + b.val + 1 → decode (packWord 0x49 0 a b 0) = .illegal .illIndex ∧
      ∃ t, exec (.pbnorm a b) s = .next t ∧ CompletedFail s t w .illegalCommand .illIndex) ∧
    (a.val + b.val + 1 ≤ 16 → decode (packWord 0x49 0 a b 0) = .instr (.pbnorm a b) ∧
      ((∃ j : PReg, a.val ≤ j.val ∧ j.val ≤ a.val + b.val ∧ (s.srcP j).z = 0) →
        ∃ t, exec (.pbnorm a b) s = .next t ∧ CompletedFail s t w .preconditionViolation .bnormInfinity) ∧
      ((∀ j : PReg, a.val ≤ j.val → j.val ≤ a.val + b.val → (s.srcP j).z ≠ 0) →
        ∃ t, exec (.pbnorm a b) s = .next t ∧ CompletedOk s t w ∧ t.flags = s.flags ∧
          (∀ j : PReg, t.regs.readP j =
            if a.val ≤ j.val ∧ j.val ≤ a.val + b.val then normalize s.cfg (s.srcP j) else s.regs.readP j) ∧
          (∀ j, t.regs.readF j = s.regs.readF j) ∧ (∀ j, t.regs.readK j = s.regs.readK j)))

/-- R264 and R265: PCOMP writes x and the flag word together: for a Finite point the representative of its affine x and the
parity of the standard residue of its affine y; for Infinity 0 and 3. -/
def Obligations.PcompWritesXAndTheFlagWord : Prop :=
  ∀ (s : State) (w : CmdWord) (d : FReg) (a : PReg) (b : KReg), s.cfg.FieldValid → isRepPoint s.cfg (s.srcP a) →
    s.cur = some w →
    decode (packWord 0x4A d a b 0) = .instr (.pcomp d a b) ∧
    ∃ t x v, exec (.pcomp d a b) s = .next t ∧ CompletedOk s t w ∧ t.flags = s.flags ∧ t.regs.readF d = x ∧
      t.regs.readK b = v ∧ (∀ j, j ≠ d → t.regs.readF j = s.regs.readF j) ∧
      (∀ j, j ≠ b → t.regs.readK j = s.regs.readK j) ∧ (∀ j, t.regs.readP j = s.regs.readP j) ∧
      ((s.srcP a).z = 0 → x = 0 ∧ v = 3) ∧
      ((s.srcP a).z ≠ 0 → x < s.cfg.p ∧ toZ s.cfg x = affineX s.cfg (s.srcP a) ∧
        v = (affineY s.cfg (s.srcP a)).val % 2)

/-- R266 and R267: PDCMP fails MALFORMED_INPUT / DCMP_BAD_FLAGS for a flag word above 3; gives O when its bit 1 is set;
fails DCMP_NOT_RESIDUE when x³ + b is no square; else gives the point (x, y, ONE) of the curve whose y has the parity bit,
or is 0. -/
def Obligations.PdcmpDecodesTheFlagWord : Prop :=
  ∀ (s : State) (w : CmdWord) (d : PReg) (a : FReg) (b : KReg), s.cfg.FieldValid → s.srcF a < s.cfg.p →
    s.cur = some w →
    let square := fun y => y < s.cfg.p ∧ toZ s.cfg y ^ 2 = toZ s.cfg (s.srcF a) ^ 3 + s.cfg.b
    decode (packWord 0x4B d a b 0) = .instr (.pdcmp d a b) ∧
    (4 ≤ s.srcK b → ∃ t, exec (.pdcmp d a b) s = .next t ∧ CompletedFail s t w .malformedInput .dcmpBadFlags) ∧
    (s.srcK b = 2 ∨ s.srcK b = 3 →
      ∃ t, exec (.pdcmp d a b) s = .next t ∧ CompletedOk s t w ∧ OnlyP s t d ⟨0, s.cfg.rm, 0⟩) ∧
    (s.srcK b < 2 → (¬ ∃ y, square y) →
      ∃ t, exec (.pdcmp d a b) s = .next t ∧ CompletedFail s t w .malformedInput .dcmpNotResidue) ∧
    (s.srcK b < 2 → (∃ y, square y) →
      ∃ t y, exec (.pdcmp d a b) s = .next t ∧ CompletedOk s t w ∧ OnlyP s t d ⟨s.srcF a, y, s.cfg.rm⟩ ∧ square y ∧
        (y ≠ 0 → std s.cfg y % 2 = s.srcK b))

/-- R268: decompressing a compressed point of the curve gives its normal form, and flipping the parity bit of a Finite
one gives the normal form of its negation. -/
def Obligations.DecompressInvertsCompress : Prop :=
  ∀ (c : Config) (q : Point), c.FieldValid → isRepPoint c q → onCurve c q = true →
    decompress c (compress c q).1 (compress c q).2 = .point (normalize c q) ∧
    (q.z ≠ 0 → decompress c (compress c q).1 ((compress c q).2 ^^^ 1) = .point (normalize c (pointNeg c q)))
end

