-- ==== Sys2Proof/Laws/Montgomery.lean ====
section
/-! SUPPORT. What an admissible configuration gives, the derived constants (R9), and REDC (R160): its value is below p and,
times R, congruent to its argument. -/

namespace Sys2Proof

/-! ### Admissible configurations -/

/-- What the arithmetic needs of an admissible configuration. -/
structure Config.FieldFacts (c : Config) : Prop where
  nPos : 1 ≤ c.n
  nLe : c.n ≤ 32
  pTop : 2 ^ (c.w - 64) ≤ c.p
  pLt : c.p < c.radix
  pGe : 5 ≤ c.p
  pOdd : c.p % 2 = 1

theorem Config.admissible_fieldFacts {c : Config} (h : c.admissible = true) : c.FieldFacts := by
  simp only [Config.admissible, Bool.and_eq_true, decide_eq_true_eq] at h
  obtain ⟨⟨⟨⟨⟨⟨⟨⟨hn, hp⟩, -⟩, -⟩, -⟩, -⟩, -⟩, -⟩, -⟩ := h
  exact ⟨hn.1, hn.2, hp.1, hp.2.1, hp.2.2.1, hp.2.2.2⟩

/-- What the constants of R56 to R58 need of an admissible configuration. -/
structure Config.ParamFacts (c : Config) : Prop where
  bPos : 1 ≤ c.b
  bLt : c.b < c.p
  gxLt : c.gx < c.p
  gyLt : c.gy < c.p
  gOn : c.gy ^ 2 % c.p = (c.gx ^ 3 + c.b) % c.p
  rGe : 2 ≤ c.r
  rLt : c.r < c.radix
  hPos : 1 ≤ c.h
  hLt : c.h < c.radix
  nqrPos : 1 ≤ c.nqr
  nqrLt : c.nqr < c.p
  nqrNot : powMod c.p c.nqr c.w c.pm1h = c.p - 1
  rootLt : c.root < c.p
  baseAligned : c.base % 0x2000 = 0

theorem Config.admissible_paramFacts {c : Config} (h : c.admissible = true) : c.ParamFacts := by
  simp only [Config.admissible, Bool.and_eq_true, decide_eq_true_eq] at h
  obtain ⟨⟨⟨⟨⟨⟨⟨⟨-, -⟩, hb⟩, hg⟩, hr⟩, hh⟩, hq⟩, hroot⟩, hbase⟩ := h
  exact ⟨hb.1, hb.2, hg.1, hg.2.1, hg.2.2, hr.1, hr.2, hh.1, hh.2, hq.1, hq.2.1, hq.2.2, hroot.1, hbase⟩

theorem Config.radix_pos (c : Config) : 0 < c.radix := Nat.two_pow_pos _

theorem Config.FieldFacts.pPos {c : Config} (h : c.FieldFacts) : 0 < c.p := by have := h.pGe; omega

/-- p is prime to R, because p is odd. -/
theorem Config.FieldFacts.coprime {c : Config} (h : c.FieldFacts) : Nat.Coprime c.p c.radix :=
  Nat.Coprime.pow_right _ (Nat.coprime_two_right.mpr (Nat.odd_iff.mpr h.pOdd))

theorem Config.FieldFacts.w_le {c : Config} (h : c.FieldFacts) : c.w ≤ 2048 := by
  have := h.nLe; unfold Config.w; omega

theorem Config.FieldFacts.w_ge {c : Config} (h : c.FieldFacts) : 64 ≤ c.w := by
  have := h.nPos; unfold Config.w; omega

/-- 2^64 divides R, so 64-bit constants fit a scalar. -/
theorem Config.FieldFacts.two64_le_radix {c : Config} (h : c.FieldFacts) : 2 ^ 64 ≤ c.radix :=
  Nat.pow_le_pow_right (by decide) h.w_ge

/-! ### The inverse of p modulo a power of two -/

/-- A Newton step doubles the number of correct low bits. -/
theorem newtonStep_correct {p x k j : Nat} (h : (p * x : ℤ) ≡ 1 [ZMOD 2 ^ j]) :
    (p * newtonStep p (2 ^ k) x : ℤ) ≡ 1 [ZMOD 2 ^ min k (2 * j)] := by
  have hm : (0 : ℤ) < 2 ^ k := by positivity
  have hle : p * x % 2 ^ k ≤ 2 ^ k := (Nat.mod_lt _ (Nat.two_pow_pos k)).le
  have hstep : (newtonStep p (2 ^ k) x : ℤ) ≡ x * (2 - p * x) [ZMOD 2 ^ k] := by
    unfold newtonStep
    push_cast [Nat.cast_sub hle]
    refine (Int.mod_modEq _ _).trans (Int.ModEq.mul_left _ ?_)
    have : ((p : ℤ) * x % 2 ^ k) ≡ p * x [ZMOD 2 ^ k] := Int.mod_modEq _ _
    have h2 : (2 ^ k : ℤ) ≡ 0 [ZMOD 2 ^ k] := by simp [Int.ModEq]
    calc (2 + (2 ^ k - (p : ℤ) * x % 2 ^ k)) ≡ 2 + (0 - p * x) [ZMOD 2 ^ k] :=
          Int.ModEq.add_left _ (h2.sub this)
      _ = 2 - p * x := by ring
  have hdvd : ((2 : ℤ) ^ min k (2 * j)) ∣ 2 ^ k := pow_dvd_pow _ (min_le_left _ _)
  have h1 := (hstep.of_dvd hdvd).mul_left (p : ℤ)
  refine h1.trans ?_
  have hsq : ((2 : ℤ) ^ min k (2 * j)) ∣ (1 - p * x) * (1 - p * x) := by
    have hj : ((2 : ℤ) ^ j) ∣ 1 - p * x := h.dvd
    exact (pow_dvd_pow _ (min_le_right _ _)).trans (by rw [two_mul, pow_add]; exact mul_dvd_mul hj hj)
  refine (Int.modEq_iff_dvd.mpr ?_)
  have : (1 : ℤ) - p * (x * (2 - p * x)) = (1 - p * x) * (1 - p * x) := by ring
  rw [this]; exact hsq

/-- `invPow2` inverts the odd p modulo a power of two of at most 2048 bits. -/
theorem invPow2_correct {p k : Nat} (hp : p % 2 = 1) (hk1 : 1 ≤ k) (hk : k ≤ 2048) :
    (p * invPow2 p (2 ^ k) : ℤ) ≡ 1 [ZMOD 2 ^ k] := by
  have key : ∀ (i x j : Nat), (p * x : ℤ) ≡ 1 [ZMOD 2 ^ min k j] →
      (p * (newtonStep p (2 ^ k))^[i] x : ℤ) ≡ 1 [ZMOD 2 ^ min k (2 ^ i * j)] := by
    intro i
    induction i with
    | zero => intro x j h; simpa using h
    | succ i ih =>
      intro x j h
      rw [Function.iterate_succ_apply]
      have h1 := newtonStep_correct (k := k) h
      have e : min k (2 * min k j) = min k (2 * j) := by omega
      rw [e] at h1
      have := ih (newtonStep p (2 ^ k) x) (2 * j) h1
      rwa [← mul_assoc, ← pow_succ] at this
  have h0 : (p * (1 : Nat) : ℤ) ≡ 1 [ZMOD 2 ^ min k 1] := by
    rw [min_eq_right hk1]
    simp only [Nat.cast_one, mul_one, pow_one]
    exact_mod_cast (show p % 2 = 1 % 2 from hp)
  have h11 := key 11 1 1 h0
  rw [show 2 ^ 11 * 1 = 2048 from rfl, min_eq_left hk] at h11
  exact h11

theorem newtonStep_lt {p m x : Nat} (hm : 0 < m) : newtonStep p m x < m := Nat.mod_lt _ hm

theorem negMod_add {m x : Nat} (hx : x ≤ m) : (negMod m x + x) % m = 0 := by
  unfold negMod
  rw [Nat.mod_add_mod, Nat.sub_add_cancel hx, Nat.mod_self]

theorem invPow2_lt {p m : Nat} (hm : 0 < m) : invPow2 p m < m := by
  unfold invPow2
  rw [Function.iterate_succ_apply']
  exact newtonStep_lt hm

/-- (−p⁻¹)·p ≡ −1 modulo a power of two. -/
theorem negInv_mul {p k : Nat} (hp : p % 2 = 1) (hk1 : 1 ≤ k) (hk : k ≤ 2048) :
    2 ^ k ∣ negMod (2 ^ k) (invPow2 p (2 ^ k)) * p + 1 := by
  have hpos := Nat.two_pow_pos k
  have h1 := invPow2_correct hp hk1 hk
  have h2 := negMod_add (invPow2_lt (p := p) hpos).le
  have hz : ((2 : ℤ) ^ k) ∣ (negMod (2 ^ k) (invPow2 p (2 ^ k)) + invPow2 p (2 ^ k) : ℤ) := by
    exact_mod_cast Nat.dvd_of_mod_eq_zero h2
  have hd : ((2 : ℤ) ^ k) ∣ 1 - p * invPow2 p (2 ^ k) := h1.dvd
  have : ((2 : ℤ) ^ k) ∣ (negMod (2 ^ k) (invPow2 p (2 ^ k)) * p + 1 : ℤ) := by
    have e : (negMod (2 ^ k) (invPow2 p (2 ^ k)) * p + 1 : ℤ)
        = (negMod (2 ^ k) (invPow2 p (2 ^ k)) + invPow2 p (2 ^ k)) * p + (1 - p * invPow2 p (2 ^ k)) := by ring
    rw [e]; exact dvd_add (Dvd.dvd.mul_right hz _) hd
  exact_mod_cast this

/-! ### REDC (R160) -/

/-- The division in REDC is exact (R160). -/
theorem redc_exact {c : Config} (h : c.FieldFacts) (x : Nat) :
    c.radix ∣ x + x % c.radix * c.invW % c.radix * c.p := by
  have hk := negInv_mul (p := c.p) h.pOdd (le_trans (by decide) h.w_ge) h.w_le
  have hk' : c.radix ∣ c.invW * c.p + 1 := hk
  apply Nat.dvd_of_mod_eq_zero
  have e : x + x % c.radix * c.invW % c.radix * c.p ≡ x * (c.invW * c.p + 1) [MOD c.radix] := by
    have h1 : x % c.radix * c.invW % c.radix ≡ x * c.invW [MOD c.radix] :=
      (Nat.mod_modEq _ _).trans ((Nat.mod_modEq _ _).mul_right _)
    calc x + x % c.radix * c.invW % c.radix * c.p ≡ x + x * c.invW * c.p [MOD c.radix] :=
          Nat.ModEq.add_left _ (h1.mul_right _)
      _ = x * (c.invW * c.p + 1) := by ring
  exact e.trans (Nat.modEq_zero_iff_dvd.mpr (Dvd.dvd.mul_left hk' _))

/-- REDC(T)·R ≡ T modulo p (R160). -/
theorem redc_mul_radix {c : Config} (h : c.FieldFacts) (x : Nat) : redc c x * c.radix ≡ x [MOD c.p] := by
  have hu : (x + x % c.radix * c.invW % c.radix * c.p) / c.radix * c.radix ≡ x [MOD c.p] := by
    rw [Nat.div_mul_cancel (redc_exact h x)]
    simp [Nat.ModEq]
  unfold redc
  simp only
  split
  · rename_i hle
    refine Nat.ModEq.trans ?_ hu
    conv_rhs => rw [← Nat.sub_add_cancel hle, add_mul]
    simp [Nat.ModEq]
  · exact hu

/-- REDC of an integer below p·R is below p (R160). -/
theorem redc_lt {c : Config} {x : Nat} (hx : x < c.p * c.radix) : redc c x < c.p := by
  have hR := c.radix_pos
  have hm : x % c.radix * c.invW % c.radix < c.radix := Nat.mod_lt _ hR
  have hu : (x + x % c.radix * c.invW % c.radix * c.p) / c.radix < 2 * c.p := by
    rw [Nat.div_lt_iff_lt_mul hR]
    have : x % c.radix * c.invW % c.radix * c.p ≤ c.radix * c.p := Nat.mul_le_mul_right _ hm.le
    calc _ < c.p * c.radix + c.radix * c.p := by omega
      _ = 2 * c.p * c.radix := by ring
  unfold redc
  simp only
  split <;> omega

end Sys2Proof
end

