-- ==== Sys2Proof/Laws/Field.lean ====
section
/-! SUPPORT. Field arithmetic on representatives read as arithmetic in ZMod p: `toZ` is the value of a representative,
every operator is the field's on values and keeps representatives below p (R161 to R165, R176), and a representative is
determined by its value. -/

namespace Sys2Proof

section
variable {c : Config}

theorem radix_mul_inv (h : c.FieldFacts) : (c.radix : ZMod c.p) * (c.radix : ZMod c.p)⁻¹ = 1 :=
  ZMod.coe_mul_inv_eq_one _ h.coprime.symm

theorem toZ_mul_radix (h : c.FieldFacts) (a : Nat) : toZ c a * (c.radix : ZMod c.p) = a := by
  unfold toZ; rw [mul_assoc, mul_comm ((c.radix : ZMod c.p)⁻¹), radix_mul_inv h, mul_one]

/-- Two integers of one value are congruent modulo p. -/
theorem toZ_eq_iff (h : c.FieldFacts) (a b : Nat) : toZ c a = toZ c b ↔ a ≡ b [MOD c.p] := by
  rw [← ZMod.natCast_eq_natCast_iff]
  constructor
  · intro e; rw [← toZ_mul_radix h a, e, toZ_mul_radix h b]
  · intro e; unfold toZ; rw [e]

/-- Representatives are canonical (R15). -/
theorem toZ_inj (h : c.FieldFacts) {a b : Nat} (ha : a < c.p) (hb : b < c.p) : toZ c a = toZ c b ↔ a = b := by
  rw [toZ_eq_iff h]
  exact ⟨fun e => Nat.ModEq.eq_of_lt_of_lt e ha hb, fun e => e ▸ rfl⟩

@[simp] theorem toZ_zero : toZ c 0 = 0 := by simp [toZ]

theorem toZ_eq_zero (h : c.FieldFacts) {a : Nat} (ha : a < c.p) : toZ c a = 0 ↔ a = 0 := by
  rw [← toZ_zero (c := c), toZ_inj h ha h.pPos]

theorem toZ_mod (h : c.FieldFacts) (a : Nat) : toZ c (a % c.p) = toZ c a :=
  (toZ_eq_iff h _ _).mpr (Nat.mod_modEq _ _)

theorem toZ_modulus : toZ c c.p = 0 := by simp [toZ]

theorem toZ_add (a b : Nat) : toZ c (a + b) = toZ c a + toZ c b := by simp [toZ, add_mul]

theorem toZ_sub {a b : Nat} (hab : b ≤ a) : toZ c (a - b) = toZ c a - toZ c b := by
  simp [toZ, Nat.cast_sub hab, sub_mul]

/-! ### The operators -/

/-- ⊗ is multiplication of values (R161). -/
@[simp] theorem toZ_montMul (h : c.FieldFacts) (a b : Nat) : toZ c (montMul c a b) = toZ c a * toZ c b := by
  have e : ((montMul c a b * c.radix : Nat) : ZMod c.p) = ((a * b : Nat) : ZMod c.p) :=
    (ZMod.natCast_eq_natCast_iff _ _ _).mpr (redc_mul_radix h (a * b))
  push_cast at e
  have : (montMul c a b : ZMod c.p) = toZ c (a * b) := by
    unfold toZ
    push_cast
    rw [← e, mul_assoc, radix_mul_inv h, mul_one]
  unfold toZ at this ⊢
  rw [this]
  push_cast
  ring

@[simp] theorem toZ_sq (h : c.FieldFacts) (a : Nat) : toZ c (sq c a) = toZ c a * toZ c a := toZ_montMul h a a

/-- ⊕ is addition of values (R163). -/
@[simp] theorem toZ_fieldAdd (a b : Nat) : toZ c (fieldAdd c a b) = toZ c a + toZ c b := by
  unfold fieldAdd
  split
  · rename_i h; rw [toZ_sub h, toZ_add, toZ_modulus, sub_zero]
  · exact toZ_add a b

/-- ⊖ is subtraction of values (R164). -/
theorem toZ_fieldSub {a b : Nat} (hb : b < c.p) : toZ c (fieldSub c a b) = toZ c a - toZ c b := by
  unfold fieldSub
  split
  · rename_i h; exact toZ_sub h
  · rw [toZ_sub (by omega), toZ_add, toZ_modulus, add_zero]

/-- Negation of values (R165). -/
theorem toZ_fieldNeg {a : Nat} (ha : a < c.p) : toZ c (fieldNeg c a) = -toZ c a := by
  unfold fieldNeg
  split
  · rename_i h; simp [h]
  · rw [toZ_sub ha.le, toZ_modulus, zero_sub]

/-- ONE has value 1 (R9, R15). -/
@[simp] theorem toZ_rm (h : c.FieldFacts) : toZ c c.rm = 1 := by
  unfold Config.rm; rw [toZ_mod h]; unfold toZ; exact radix_mul_inv h

/-- mont(v) has value v (R14). -/
@[simp] theorem toZ_mont (h : c.FieldFacts) (v : Nat) : toZ c (c.mont v) = v := by
  unfold Config.mont; rw [toZ_mod h]; unfold toZ; push_cast
  rw [mul_assoc, radix_mul_inv h, mul_one]

/-! ### Every result is a representative (R32, R176) -/

theorem montMul_lt {a b : Nat} (ha : a < c.p) (hb : b ≤ c.radix) : montMul c a b < c.p :=
  redc_lt (by
    rcases Nat.eq_zero_or_pos b with rfl | hb0
    · simpa using Nat.mul_pos (by omega) c.radix_pos
    · exact lt_of_lt_of_le (Nat.mul_lt_mul_of_pos_right ha hb0) (Nat.mul_le_mul_left _ hb))

theorem montMul_rep (h : c.FieldFacts) {a b : Nat} (ha : a < c.p) (hb : b < c.p) : montMul c a b < c.p :=
  montMul_lt ha (hb.trans h.pLt).le

theorem sq_rep (h : c.FieldFacts) {a : Nat} (ha : a < c.p) : sq c a < c.p := montMul_rep h ha ha

theorem fieldAdd_rep {a b : Nat} (ha : a < c.p) (hb : b < c.p) : fieldAdd c a b < c.p := by
  unfold fieldAdd; split <;> omega

theorem fieldSub_rep {a b : Nat} (ha : a < c.p) : fieldSub c a b < c.p := by
  unfold fieldSub; split <;> omega

theorem fieldNeg_rep {a : Nat} (hp : 0 < c.p) : fieldNeg c a < c.p := by
  unfold fieldNeg; split <;> omega

theorem rm_rep (h : c.FieldFacts) : c.rm < c.p := Nat.mod_lt _ h.pPos

theorem mont_rep (h : c.FieldFacts) (v : Nat) : c.mont v < c.p := Nat.mod_lt _ h.pPos

/-- ONE is not 0: p is prime to R and above 1. -/
theorem rm_ne_zero (h : c.FieldFacts) : c.rm ≠ 0 := by
  intro e
  have := toZ_rm h
  rw [e, toZ_zero] at this
  have hp : Fact (1 < c.p) := ⟨by have := h.pGe; omega⟩
  exact zero_ne_one this

/-! ### Standard residues (R14) -/

theorem std_rep {a : Nat} (ha : a < c.p) : std c a < c.p := montMul_lt ha c.radix_pos

/-- std(m) is the residue m·R⁻¹ mod p. -/
theorem std_cast (h : c.FieldFacts) (a : Nat) : (std c a : ZMod c.p) = toZ c a := by
  have e : ((std c a * c.radix : Nat) : ZMod c.p) = ((a * 1 : Nat) : ZMod c.p) :=
    (ZMod.natCast_eq_natCast_iff _ _ _).mpr (redc_mul_radix h (a * 1))
  push_cast at e
  unfold toZ
  rw [mul_one] at e
  rw [← e, mul_assoc, radix_mul_inv h, mul_one]

/-! ### Powers (R9, R172) -/

theorem powMod_eq (m x : Nat) : ∀ k e, e < 2 ^ k → powMod m x k e = x ^ e % m
  | 0, e, he => by
    have : e = 0 := by omega
    subst this; rfl
  | k + 1, e, he => by
    have he2 : e / 2 < 2 ^ k := by rw [pow_succ] at he; omega
    have ih := powMod_eq m x k (e / 2) he2
    rw [powMod]
    split
    · rename_i h0; subst h0; rfl
    · simp only [ih]
      have hsplit : e = e / 2 + e / 2 + e % 2 := by omega
      split
      · rename_i h1
        conv_rhs => rw [hsplit, h1, pow_succ, pow_add]
        simp [Nat.mul_mod]
      · rename_i h1
        have h0 : e % 2 = 0 := by omega
        conv_rhs => rw [hsplit, h0, add_zero, pow_add]
        simp [Nat.mul_mod]

theorem powLoop_rep (h : c.FieldFacts) {a : Nat} (ha : a < c.p) (e : Nat) :
    ∀ i res found, res < c.p → powLoop c a e i res found < c.p
  | 0, _, _, hr => hr
  | i + 1, res, found, hr => by
    have hs : (if found then montMul c res res else res) < c.p := by
      split
      · exact montMul_rep h hr hr
      · exact hr
    rw [powLoop]
    split
    · exact powLoop_rep h ha e i _ _ (montMul_rep h hs ha)
    · exact powLoop_rep h ha e i _ _ hs

theorem fieldPow_rep (h : c.FieldFacts) {a : Nat} (ha : a < c.p) (e : Nat) : fieldPow c a e < c.p :=
  powLoop_rep h ha e _ _ _ (rm_rep h)

/-- The loop of Pow shifts the exponent so far left by the bits still to come and adds them. -/
theorem toZ_powLoop (h : c.FieldFacts) (a e : Nat) :
    ∀ i res found, (found = false → toZ c res = 1) →
      toZ c (powLoop c a e i res found) = toZ c res ^ 2 ^ i * toZ c a ^ (e % 2 ^ i)
  | 0, res, found, _ => by simp [powLoop, Nat.mod_one]
  | i + 1, res, found, hf => by
    have hs : toZ c (if found then montMul c res res else res) = toZ c res ^ 2 := by
      cases found with
      | true => simp [toZ_montMul h, pow_two]
      | false => simp [hf rfl]
    have hbit : e % 2 ^ (i + 1) = 2 ^ i * (e.testBit i).toNat + e % 2 ^ i := by
      rw [Nat.mod_pow_succ, Nat.testBit_eq_decide_div_mod_eq]
      rcases Nat.mod_two_eq_zero_or_one (e / 2 ^ i) with h0 | h0 <;> simp [h0]; omega
    rw [powLoop]
    split
    · rename_i hb
      rw [toZ_powLoop h a e i _ true (by simp), toZ_montMul h, hs, hbit, hb, pow_succ 2 i]
      simp only [Bool.toNat_true, mul_one, mul_pow, pow_add, pow_mul']
      ring
    · rename_i hb
      have hb' : e.testBit i = false := by simpa using hb
      rw [toZ_powLoop h a e i _ found (fun hfalse => by rw [hs, hf hfalse, one_pow]), hs, hbit, hb', pow_succ 2 i]
      simp only [Bool.toNat_false, mul_zero, zero_add, pow_mul']

/-- Pow on values, for an exponent of W bits (R172). -/
theorem toZ_fieldPow (h : c.FieldFacts) (a : Nat) {e : Nat} (he : e < 2 ^ c.w) :
    toZ c (fieldPow c a e) = toZ c a ^ e := by
  unfold fieldPow
  rw [toZ_powLoop h a e c.w c.rm false (fun _ => toZ_rm h), toZ_rm h, one_pow, one_mul, Nat.mod_eq_of_lt he]

/-! ### The inverse (R190) -/

theorem modInverse_rep (h : c.FieldFacts) (a : Nat) : modInverse c a < c.p := by
  unfold modInverse
  rw [powMod_eq _ _ _ _ (lt_of_le_of_lt (Nat.sub_le _ _) h.pLt)]
  exact Nat.mod_lt _ h.pPos

theorem modInverse_mul (h : c.FieldFacts) (hp : c.p.Prime) {a : Nat} (ha : a < c.p) (h0 : a ≠ 0) :
    ((modInverse c a : ZMod c.p)) * a = 1 := by
  have : Fact c.p.Prime := ⟨hp⟩
  have hne : (a : ZMod c.p) ≠ 0 := by
    rw [Ne, ZMod.natCast_eq_zero_iff]
    exact fun hd => h0 (Nat.eq_zero_of_dvd_of_lt hd ha)
  unfold modInverse
  rw [powMod_eq _ _ _ _ (lt_of_le_of_lt (Nat.sub_le _ _) h.pLt), ZMod.natCast_mod]
  push_cast
  rw [← pow_succ, show c.p - 2 + 1 = c.p - 1 by have := h.pGe; omega]
  exact ZMod.pow_card_sub_one_eq_one hne

theorem r3_rep (h : c.FieldFacts) : c.r3 < c.p := Nat.mod_lt _ h.pPos

theorem r2_rep (h : c.FieldFacts) : c.r2 < c.p := Nat.mod_lt _ h.pPos

/-- FieldInv fails exactly on 0. -/
theorem fieldInv?_eq_none (a : Nat) : fieldInv? c a = none ↔ a = 0 := by
  unfold fieldInv?; split <;> simp_all

/-- What FieldInv answers is a representative. -/
theorem fieldInv?_rep (h : c.FieldFacts) {a x : Nat} (hx : fieldInv? c a = some x) : x < c.p := by
  unfold fieldInv? at hx
  split at hx
  · simp at hx
  · rw [← Option.some.inj hx]; exact montMul_rep h (modInverse_rep h a) (r3_rep h)

/-- On values, FieldInv is the inverse (R190). -/
theorem toZ_fieldInv? (h : c.FieldFacts) (hp : c.p.Prime) {a x : Nat} (ha : a < c.p)
    (hx : fieldInv? c a = some x) : toZ c a * toZ c x = 1 := by
  unfold fieldInv? at hx
  split at hx
  · simp at hx
  · rename_i h0
    rw [← Option.some.inj hx, toZ_montMul h]
    have hinv := modInverse_mul h hp ha h0
    have h3 : toZ c c.r3 = (c.radix : ZMod c.p) * c.radix := by
      unfold Config.r3
      rw [toZ_mod h]
      unfold toZ
      push_cast
      calc (c.radix : ZMod c.p) ^ 3 * (c.radix : ZMod c.p)⁻¹
          = c.radix * c.radix * (c.radix * (c.radix : ZMod c.p)⁻¹) := by ring
        _ = c.radix * c.radix := by rw [radix_mul_inv h, mul_one]
    rw [h3]
    unfold toZ
    calc (a : ZMod c.p) * (c.radix : ZMod c.p)⁻¹ * (modInverse c a * (c.radix : ZMod c.p)⁻¹ * (c.radix * c.radix))
        = (modInverse c a * a) * (c.radix * (c.radix : ZMod c.p)⁻¹) * (c.radix * (c.radix : ZMod c.p)⁻¹) := by ring
      _ = 1 := by rw [hinv, radix_mul_inv h]; ring

/-! ### Sqrt (R194) -/

theorem squareTimes_rep (h : c.FieldFacts) : ∀ k {x : Nat}, x < c.p → squareTimes c k x < c.p
  | 0, _, hx => hx
  | k + 1, _, hx => squareTimes_rep h k (montMul_rep h hx hx)

theorem toZ_squareTimes (h : c.FieldFacts) : ∀ k (x : Nat), toZ c (squareTimes c k x) = toZ c x ^ 2 ^ k
  | 0, x => by simp [squareTimes]
  | k + 1, x => by
    rw [squareTimes, toZ_squareTimes h k, toZ_montMul h, pow_succ', pow_mul, pow_two]

theorem sqrtLoop_rep (h : c.FieldFacts) :
    ∀ k {v z x b r : Nat}, z < c.p → x < c.p → sqrtLoop c k v z x b = some r → r < c.p
  | 0, _, _, _, _, _, _, _, hr => by simp [sqrtLoop] at hr
  | k + 1, v, z, x, b, r, hz, hx, hr => by
    rw [sqrtLoop] at hr
    split at hr
    · rw [← Option.some.inj hr]; exact hx
    · simp only at hr
      split at hr
      · simp at hr
      · have hw := squareTimes_rep h (v - orderLoop c v 0 b - 1) hz
        exact sqrtLoop_rep h k (montMul_rep h hw hw) (montMul_rep h hx hw) hr

/-- The inner loop counts the squarings that bring b2m to ONE, from `m` up, and no more than its first argument. -/
theorem orderLoop_bounds (c : Config) : ∀ k m b2m, m ≤ orderLoop c k m b2m ∧ orderLoop c k m b2m ≤ m + k
  | 0, m, _ => by simp [orderLoop]
  | k + 1, m, b2m => by
    rw [orderLoop]
    split
    · omega
    · have := orderLoop_bounds c k (m + 1) (montMul c b2m b2m); omega

/-- What Sqrt answers is a representative. -/
theorem fieldSqrt?_rep (h : c.FieldFacts) {a r : Nat} (ha : a < c.p) (hr : fieldSqrt? c a = some r) : r < c.p := by
  unfold fieldSqrt? at hr
  split at hr
  · rw [← Option.some.inj hr]; exact h.pPos
  · exact sqrtLoop_rep h _ (mont_rep h _) (montMul_rep h ha (fieldPow_rep h ha _)) hr

end

end Sys2Proof
end

