-- ==== Sys2Proof/Laws/Group.lean ====
section
/-! SUPPORT. The group operations keep triples of representatives (R34), whatever the triple (R221). -/

namespace Sys2Proof.Machine

section
variable {c : Config}

theorem isRepPoint_mk (x y z : Nat) : isRepPoint c ⟨x, y, z⟩ ↔ x < c.p ∧ y < c.p ∧ z < c.p := Iff.rfl

theorem pointO_rep (h : c.FieldFacts) : isRepPoint c (pointO c) := ⟨h.pPos, rm_rep h, h.pPos⟩

theorem pointG_rep (h : c.FieldFacts) : isRepPoint c (pointG c) := ⟨mont_rep h _, mont_rep h _, rm_rep h⟩

theorem dblFormula_rep (h : c.FieldFacts) {q : Point} (hq : isRepPoint c q) : isRepPoint c (dblFormula c q) := by
  obtain ⟨hx, hy, hz⟩ := hq
  have ha := sq_rep h hx
  have hb := sq_rep h hy
  have hd0 := fieldSub_rep (b := sq c (sq c q.y)) (fieldSub_rep (b := sq c q.x) (sq_rep h (fieldAdd_rep hx hb)))
  have hd := fieldAdd_rep hd0 hd0
  have he := fieldAdd_rep (fieldAdd_rep ha ha) ha
  have hyz := montMul_rep h hy hz
  exact ⟨fieldSub_rep (sq_rep h he), fieldSub_rep (montMul_rep h he (fieldSub_rep hd)), fieldAdd_rep hyz hyz⟩

theorem pointDbl_rep (h : c.FieldFacts) {q : Point} (hq : isRepPoint c q) : isRepPoint c (pointDbl c q) := by
  unfold pointDbl
  split
  · exact hq
  · exact dblFormula_rep h hq

theorem addFormula_rep (h : c.FieldFacts) {q1 q2 : Point} (h1 : isRepPoint c q1) (h2 : isRepPoint c q2) :
    isRepPoint c (addFormula c q1 q2) := by
  obtain ⟨hx1, hy1, hz1⟩ := h1
  obtain ⟨hx2, hy2, hz2⟩ := h2
  have hu1 := montMul_rep h hx1 (sq_rep h hz2)
  have hu2 := montMul_rep h hx2 (sq_rep h hz1)
  have hs2 := montMul_rep h hy2 (montMul_rep h hz1 (sq_rep h hz1))
  have hh := fieldSub_rep (b := montMul c q1.x (sq c q2.z)) hu2
  have hr0 := fieldSub_rep (b := montMul c q1.y (montMul c q2.z (sq c q2.z))) hs2
  have hr := fieldAdd_rep hr0 hr0
  have hi := sq_rep h (fieldAdd_rep hh hh)
  exact ⟨fieldSub_rep (fieldSub_rep (sq_rep h hr)),
    fieldSub_rep (montMul_rep h hr (fieldSub_rep (montMul_rep h hu1 hi))),
    montMul_rep h (fieldSub_rep (fieldSub_rep (sq_rep h (fieldAdd_rep hz1 hz2)))) hh⟩

theorem pointAdd_rep (h : c.FieldFacts) {q1 q2 : Point} (h1 : isRepPoint c q1) (h2 : isRepPoint c q2) :
    isRepPoint c (pointAdd c q1 q2) := by
  unfold pointAdd
  split
  · exact h2
  split
  · exact h1
  split
  · exact pointDbl_rep h h1
  · exact addFormula_rep h h1 h2

theorem maddFormula_rep (h : c.FieldFacts) {q1 q2 : Point} (h1 : isRepPoint c q1) (h2 : isRepPoint c q2) :
    isRepPoint c (maddFormula c q1 q2) := by
  obtain ⟨hx1, hy1, hz1⟩ := h1
  obtain ⟨hx2, hy2, hz2⟩ := h2
  have hu2 := montMul_rep h hx2 (sq_rep h hz1)
  have hs2 := montMul_rep h hy2 (montMul_rep h hz1 (sq_rep h hz1))
  have hh := fieldSub_rep (b := q1.x) hu2
  have hhh := sq_rep h hh
  have hi2 := fieldAdd_rep hhh hhh
  have hi := fieldAdd_rep hi2 hi2
  have hr0 := fieldSub_rep (b := q1.y) hs2
  have hr := fieldAdd_rep hr0 hr0
  exact ⟨fieldSub_rep (fieldSub_rep (fieldSub_rep (sq_rep h hr))),
    fieldSub_rep (fieldSub_rep (montMul_rep h hr (fieldSub_rep (montMul_rep h hx1 hi)))),
    fieldSub_rep (fieldSub_rep (sq_rep h (fieldAdd_rep hz1 hh)))⟩

/-- MAdd fails exactly on a right operand that is neither Infinity nor Normalized (R213). -/
theorem pointMAdd?_eq_none (q1 q2 : Point) : pointMAdd? c q1 q2 = none ↔ q2.z ≠ c.rm ∧ q2.z ≠ 0 := by
  unfold pointMAdd?
  split
  · simp_all
  · rename_i hn
    simp only [hn, iff_false]
    split
    · simp
    split
    · simp
    split <;> simp

theorem pointMAdd?_rep (h : c.FieldFacts) {q1 q2 q : Point} (h1 : isRepPoint c q1) (h2 : isRepPoint c q2)
    (hq : pointMAdd? c q1 q2 = some q) : isRepPoint c q := by
  unfold pointMAdd? at hq
  split at hq
  · simp at hq
  split at hq
  · exact Option.some.inj hq ▸ h2
  split at hq
  · exact Option.some.inj hq ▸ h1
  split at hq
  · exact Option.some.inj hq ▸ pointDbl_rep h h1
  · exact Option.some.inj hq ▸ maddFormula_rep h h1 h2

theorem pointNeg_rep (h : c.FieldFacts) {q : Point} (hq : isRepPoint c q) : isRepPoint c (pointNeg c q) :=
  ⟨hq.1, fieldNeg_rep h.pPos, hq.2.2⟩

theorem scalarLoop_rep (h : c.FieldFacts) (k : Nat) {q : Point} (hq : isRepPoint c q) :
    ∀ i res found, isRepPoint c res → isRepPoint c (scalarLoop c k q i res found)
  | 0, _, _, hr => hr
  | i + 1, res, found, hr => by
    have hd : isRepPoint c (if found then pointDbl c res else res) := by
      split
      · exact pointDbl_rep h hr
      · exact hr
    rw [scalarLoop]
    split
    · exact scalarLoop_rep h k hq i _ _ (pointAdd_rep h hd hq)
    · exact scalarLoop_rep h k hq i _ _ hd

theorem scalarMul_rep (h : c.FieldFacts) (k : Nat) {q : Point} (hq : isRepPoint c q) :
    isRepPoint c (scalarMul c k q) :=
  scalarLoop_rep h k hq _ _ _ (pointO_rep h)

theorem scaleToAffine_rep (h : c.FieldFacts) {q : Point} (hq : isRepPoint c q) {zi : Nat} (hz : zi < c.p) :
    isRepPoint c (scaleToAffine c q zi) :=
  ⟨montMul_rep h hq.1 (sq_rep h hz), montMul_rep h hq.2.1 (montMul_rep h (sq_rep h hz) hz), rm_rep h⟩

/-- Normalize answers O on Infinity and a Normalized triple on a Finite point (R260). -/
theorem normalize_cases (c : Config) (q : Point) :
    (q.z = 0 ∧ normalize c q = pointO c) ∨
      (q.z ≠ 0 ∧ ∃ zi, fieldInv? c q.z = some zi ∧ normalize c q = scaleToAffine c q zi) := by
  unfold normalize
  cases hz : fieldInv? c q.z with
  | none => exact .inl ⟨(fieldInv?_eq_none _).mp hz, rfl⟩
  | some zi =>
    refine .inr ⟨fun h0 => ?_, zi, rfl, rfl⟩
    rw [(fieldInv?_eq_none _).mpr h0] at hz
    simp at hz

theorem normalize_rep (h : c.FieldFacts) {q : Point} (hq : isRepPoint c q) : isRepPoint c (normalize c q) := by
  rcases normalize_cases c q with ⟨-, e⟩ | ⟨-, zi, hz, e⟩
  · rw [e]; exact pointO_rep h
  · rw [e]; exact scaleToAffine_rep h hq (fieldInv?_rep h hz)

/-! ### BatchNorm (R263) -/

theorem runningProducts_rep (h : c.FieldFacts) :
    ∀ (qs : List Point) {acc : Nat}, acc < c.p → (∀ q ∈ qs, isRepPoint c q) →
      ∀ v ∈ runningProducts c acc qs, v < c.p
  | [], _, _, _, v, hv => by simp [runningProducts] at hv
  | q :: rest, acc, ha, hq, v, hv => by
    have hm := montMul_rep h ha (hq q (List.mem_cons_self ..)).2.2
    simp only [runningProducts, List.mem_cons] at hv
    rcases hv with rfl | hv
    · exact hm
    · exact runningProducts_rep h rest hm (fun q hr => hq q (List.mem_cons_of_mem _ hr)) v hv

theorem runningProducts_length (c : Config) : ∀ (acc : Nat) (qs : List Point),
    (runningProducts c acc qs).length = qs.length
  | _, [] => rfl
  | acc, q :: rest => by simp [runningProducts, runningProducts_length c _ rest]

theorem walkBack_rep (h : c.FieldFacts) :
    ∀ (qs : List Point) (pre : List Nat) {ia : Nat} {out : List Nat}, ia < c.p → (∀ q ∈ qs, isRepPoint c q) →
      (∀ v ∈ pre, v < c.p) → (∀ v ∈ out, v < c.p) → ∀ v ∈ walkBack c ia qs pre out, v < c.p
  | [], _, _, _, _, _, _, ho, v, hv => ho v (by simpa [walkBack] using hv)
  | _ :: _, [], _, _, _, _, _, ho, v, hv => ho v (by simpa [walkBack] using hv)
  | q :: qs, p0 :: pre, ia, out, hi, hq, hp, ho, v, hv => by
    rw [walkBack] at hv
    refine walkBack_rep h qs pre (montMul_rep h hi (hq q (List.mem_cons_self ..)).2.2)
      (fun q hr => hq q (List.mem_cons_of_mem _ hr)) (fun v hr => hp v (List.mem_cons_of_mem _ hr)) ?_ v hv
    intro u hu
    rcases List.mem_cons.mp hu with rfl | hu
    · cases pre with
      | nil => exact hi
      | cons b _ => exact montMul_rep h hi (hp b (by simp))
    · exact ho u hu

theorem walkBack_length (c : Config) :
    ∀ (qs : List Point) (pre : List Nat) (ia : Nat) (out : List Nat), pre.length = qs.length →
      (walkBack c ia qs pre out).length = qs.length + out.length
  | [], [], _, _, _ => by simp [walkBack]
  | [], _ :: _, _, _, hl => by simp at hl
  | _ :: _, [], _, _, hl => by simp at hl
  | q :: qs, p0 :: pre, ia, out, hl => by
    rw [walkBack, walkBack_length c qs pre _ _ (by simpa using hl)]
    simp; omega

/-- What BatchNorm answers: a failure on an Infinity, or one representative triple for each of the batch. -/
theorem batchNormalize_cases (h : c.FieldFacts) {qs : List Point} (hq : ∀ q ∈ qs, isRepPoint c q) :
    (qs.any isInf = true ∧ batchNormalize c qs = .failed .infinity) ∨
    (qs.any isInf = false ∧ batchNormalize c qs = .failed .zeroProduct) ∨
    (qs.any isInf = false ∧ ∃ out, batchNormalize c qs = .points out ∧ out.length = qs.length ∧
      ∀ q ∈ out, isRepPoint c q) := by
  unfold batchNormalize
  cases ha : qs.any isInf with
  | true => exact .inl ⟨rfl, by simp⟩
  | false =>
    refine .inr ?_
    cases hi : fieldInv? c ((runningProducts c c.rm qs).getLastD c.rm) with
    | none => exact .inl ⟨rfl, by simp [-List.getLastD_eq_getLast?, hi]⟩
    | some ia =>
      refine .inr ⟨rfl, _, by simp only [Bool.false_eq_true, if_false, hi]; rfl, ?_, ?_⟩
      · rw [List.length_zipWith, walkBack_length _ _ _ _ _ (by simp [runningProducts_length])]
        simp
      · intro q hm
        obtain ⟨i, hi', rfl⟩ := List.mem_iff_getElem.mp hm
        rw [List.getElem_zipWith]
        refine scaleToAffine_rep h (hq _ (List.getElem_mem _)) ?_
        refine walkBack_rep h _ _ (fieldInv?_rep h hi) (fun q hr => hq q (List.mem_reverse.mp hr))
          (fun v hr => runningProducts_rep h qs (rm_rep h) hq v (List.mem_reverse.mp hr)) (by simp) _
          (List.getElem_mem _)

/-! ### The codec (R264, R266) -/

theorem compress_rep (h : c.FieldFacts) {q : Point} (hq : isRepPoint c q) : (compress c q).1 < c.p :=
  (normalize_rep h hq).1

/-- The flag word has two bits (R265). -/
theorem compress_flag_lt (c : Config) (q : Point) : (compress c q).2 < 4 := by
  have : parity c (normalize c q).y < 2 := Nat.mod_lt _ (by decide)
  simp only [compress]
  split <;> omega

theorem decompress_rep (h : c.FieldFacts) {x w : Nat} (hx : x < c.p) {q : Point}
    (hq : decompress c x w = .point q) : isRepPoint c q := by
  unfold decompress at hq
  split at hq
  · simp at hq
  split at hq
  · rw [← Decompressed.point.inj hq]; exact pointO_rep h
  · cases hy : fieldSqrt? c (fieldAdd c (montMul c x (sq c x)) (c.mont c.b)) with
    | none => simp [hy] at hq
    | some y =>
      simp only [hy, Decompressed.point.injEq] at hq
      subst hq
      have hyr := fieldSqrt?_rep h (fieldAdd_rep (montMul_rep h hx (sq_rep h hx)) (mont_rep h _)) hy
      refine ⟨hx, ?_, rm_rep h⟩
      simp only
      split
      · exact hyr
      · exact fieldNeg_rep h.pPos

theorem rescale_rep (h : c.FieldFacts) {lam : Nat} (hl : lam < c.p) {q : Point} (hq : isRepPoint c q) :
    isRepPoint c (rescale c lam q) :=
  ⟨montMul_rep h (sq_rep h hl) hq.1, montMul_rep h (montMul_rep h (sq_rep h hl) hl) hq.2.1, montMul_rep h hl hq.2.2⟩

/-- A drawn scale is a representative other than 0. -/
theorem drawnScale_bounds (h : c.FieldFacts) (i : Nat) : 0 < drawnScale c i ∧ drawnScale c i < c.p := by
  have := Nat.mod_lt (Config.pointScale i) (show 0 < c.p - 1 by have := h.pGe; omega)
  have := h.pGe
  unfold drawnScale
  omega

end

end Sys2Proof.Machine
end

