-- ==== Sys2Proof/Laws/CurveGroup.lean ====
section
/-! SUPPORT. The triples of R17 against the group of the curve y² = x³ + b: over a prime field Dbl, Add and ScalarMul
(R211, R212, R240) double, add and multiply the points their operands stand for. -/

namespace Sys2Proof

section
variable {c : Config}

/-- The curve y² = x³ + b over F_p (R3), as Mathlib's. -/
def Config.curve (c : Config) : WeierstrassCurve.Affine (ZMod c.p) := ⟨0, 0, 0, 0, (c.b : ZMod c.p)⟩

namespace Machine

/-- A triple stands for a point of the curve: Infinity for the group's zero, else the affine point. -/
def Stands (c : Config) (q : Point) (P : c.curve.Point) : Prop :=
  (q.z = 0 ∧ P = 0) ∨ (q.z ≠ 0 ∧ ∃ h, P = .some (affineX c q) (affineY c q) h)

/-- The formula of Dbl (R211) on values. -/
theorem toZ_dblFormula (h : c.FieldFacts) {q : Point} (hq : isRepPoint c q) :
    let X := toZ c q.x; let Y := toZ c q.y; let Z := toZ c q.z
    toZ c (dblFormula c q).x = (3 * X ^ 2) ^ 2 - 8 * X * Y ^ 2 ∧
    toZ c (dblFormula c q).y = 3 * X ^ 2 * (12 * X * Y ^ 2 - (3 * X ^ 2) ^ 2) - 8 * Y ^ 4 ∧
    toZ c (dblFormula c q).z = 2 * Y * Z := by
  obtain ⟨hx, hy, hz⟩ := hq
  simp (disch := repeat first | assumption | apply sq_rep h | apply montMul_rep h | apply fieldAdd_rep |
    apply fieldSub_rep) only [dblFormula, toZ_fieldSub, toZ_fieldAdd, toZ_sq h, toZ_montMul h]
  refine ⟨by ring, by ring, by ring⟩

/-- The formula of Add (R212) on values. -/
theorem toZ_addFormula (h : c.FieldFacts) {q1 q2 : Point} (h1 : isRepPoint c q1) (h2 : isRepPoint c q2) :
    let U1 := toZ c q1.x * toZ c q2.z ^ 2; let U2 := toZ c q2.x * toZ c q1.z ^ 2
    let S1 := toZ c q1.y * toZ c q2.z ^ 3; let S2 := toZ c q2.y * toZ c q1.z ^ 3
    toZ c (addFormula c q1 q2).x = 4 * ((S2 - S1) ^ 2 - (U2 - U1) ^ 3 - 2 * U1 * (U2 - U1) ^ 2) ∧
    toZ c (addFormula c q1 q2).y = 8 * ((S2 - S1) * (U1 * (U2 - U1) ^ 2 -
      ((S2 - S1) ^ 2 - (U2 - U1) ^ 3 - 2 * U1 * (U2 - U1) ^ 2)) - S1 * (U2 - U1) ^ 3) ∧
    toZ c (addFormula c q1 q2).z = 2 * toZ c q1.z * toZ c q2.z * (U2 - U1) := by
  obtain ⟨hx, hy, hz⟩ := h1
  obtain ⟨hx2, hy2, hz2⟩ := h2
  simp (disch := repeat first | assumption | apply sq_rep h | apply montMul_rep h | apply fieldAdd_rep |
    apply fieldSub_rep) only [addFormula, toZ_fieldSub, toZ_fieldAdd, toZ_sq h, toZ_montMul h]
  refine ⟨by ring, by ring, by ring⟩

variable [Fact c.p.Prime]

theorem value_two_ne_zero (h : c.FieldFacts) : (2 : ZMod c.p) ≠ 0 := by
  have h5 := h.pGe
  intro e
  have := (ZMod.natCast_eq_zero_iff 2 c.p).mp (by exact_mod_cast e)
  have := Nat.le_of_dvd (by decide) this
  omega

@[simp] theorem curve_negY (x y : ZMod c.p) : c.curve.negY x y = -y := by
  simp [WeierstrassCurve.Affine.negY, Config.curve]

theorem curve_addX (x1 x2 l : ZMod c.p) : c.curve.addX x1 x2 l = l ^ 2 - x1 - x2 := by
  simp [WeierstrassCurve.Affine.addX, Config.curve]

theorem curve_addY (x1 x2 y1 l : ZMod c.p) :
    c.curve.addY x1 x2 y1 l = l * (x1 - (l ^ 2 - x1 - x2)) - y1 := by
  simp only [WeierstrassCurve.Affine.addY, WeierstrassCurve.Affine.negAddY, curve_addX, curve_negY]; ring

theorem curve_slope_self (x y : ZMod c.p) (hy : y ≠ -y) : c.curve.slope x x y y = 3 * x ^ 2 / (2 * y) := by
  rw [WeierstrassCurve.Affine.slope_of_Y_ne rfl (by rw [curve_negY]; exact hy)]
  simp only [curve_negY]
  simp only [Config.curve]
  congr 1 <;> ring

/-- Dbl doubles in the group of the curve (R211). -/
theorem stands_pointDbl (h : c.FieldFacts) {q : Point} (hq : isRepPoint c q) {P : c.curve.Point} (hs : Stands c q P) :
    Stands c (pointDbl c q) (P + P) := by
  unfold pointDbl
  rcases hs with ⟨hz, rfl⟩ | ⟨hz, hns, rfl⟩
  · rw [if_pos hz]; exact .inl ⟨hz, by simp⟩
  rw [if_neg hz]
  have h2 := value_two_ne_zero h
  obtain ⟨ex, ey, ez⟩ := toZ_dblFormula h hq
  have hrep := dblFormula_rep h hq
  have hZ : toZ c q.z ≠ 0 := fun e => hz ((toZ_eq_zero h hq.2.2).mp e)
  by_cases hy : toZ c q.y = 0
  · refine .inl ⟨(toZ_eq_zero h hrep.2.2).mp (by rw [ez, hy]; ring), ?_⟩
    exact WeierstrassCurve.Affine.Point.add_self_of_Y_eq (by rw [curve_negY]; simp [affineY, hy])
  · have hne : affineY c q ≠ -affineY c q := by
      intro e
      have e2 : 2 * affineY c q = 0 := by linear_combination e
      simp [h2, affineY, hy, hZ] at e2
    have hz3 : toZ c (dblFormula c q).z ≠ 0 := by rw [ez]; exact mul_ne_zero (mul_ne_zero h2 hy) hZ
    refine .inr ⟨fun e => hz3 (by rw [e, toZ_zero]), ?_⟩
    have hadd := WeierstrassCurve.Affine.Point.add_self_of_Y_ne (h₁ := hns) (by rw [curve_negY]; exact hne)
    have eX : affineX c (dblFormula c q) =
        c.curve.addX (affineX c q) (affineX c q) (c.curve.slope (affineX c q) (affineX c q) (affineY c q) (affineY c q)) := by
      rw [curve_addX, curve_slope_self _ _ hne]
      simp only [affineX, affineY, ex, ez]
      field_simp
      ring
    have eY : affineY c (dblFormula c q) =
        c.curve.addY (affineX c q) (affineX c q) (affineY c q)
          (c.curve.slope (affineX c q) (affineX c q) (affineY c q) (affineY c q)) := by
      rw [curve_addY, curve_slope_self _ _ hne]
      simp only [affineX, affineY, ey, ez]
      field_simp
      ring
    rw [eX, eY]
    exact ⟨_, hadd⟩

/-- The formula of Add adds two Finite points outside the doubling case (R212). -/
theorem stands_addFormula (h : c.FieldFacts) {q1 q2 : Point} (h1 : isRepPoint c q1) (h2 : isRepPoint c q2)
    (hz1 : q1.z ≠ 0) (hz2 : q2.z ≠ 0) (hne : crossEqual c q1 q2 = false)
    {n1 : c.curve.Nonsingular (affineX c q1) (affineY c q1)} {n2 : c.curve.Nonsingular (affineX c q2) (affineY c q2)} :
    Stands c (addFormula c q1 q2) (.some _ _ n1 + .some _ _ n2) := by
  have t2 := value_two_ne_zero h
  have hZ1 : toZ c q1.z ≠ 0 := fun e => hz1 ((toZ_eq_zero h h1.2.2).mp e)
  have hZ2 : toZ c q2.z ≠ 0 := fun e => hz2 ((toZ_eq_zero h h2.2.2).mp e)
  obtain ⟨ex, ey, ez⟩ := toZ_addFormula h h1 h2
  have hrep := addFormula_rep h h1 h2
  have hU : affineX c q1 = affineX c q2 ↔ toZ c q1.x * toZ c q2.z ^ 2 = toZ c q2.x * toZ c q1.z ^ 2 := by
    simp only [affineX]; rw [← div_eq_mul_inv, ← div_eq_mul_inv, div_eq_div_iff (by positivity) (by positivity)]
  have hS : affineY c q1 = affineY c q2 ↔ toZ c q1.y * toZ c q2.z ^ 3 = toZ c q2.y * toZ c q1.z ^ 3 := by
    simp only [affineY]; rw [← div_eq_mul_inv, ← div_eq_mul_inv, div_eq_div_iff (by positivity) (by positivity)]
  by_cases hx : affineX c q1 = affineX c q2
  · -- one x: opposite points
    have hy : affineY c q1 ≠ affineY c q2 := by
      intro e
      refine Bool.false_ne_true (hne.symm.trans ?_)
      simp only [crossEqual, Bool.and_eq_true, beq_iff_eq]
      obtain ⟨a1, a2, a3⟩ := h1
      obtain ⟨b1, b2, b3⟩ := h2
      constructor
      · refine (toZ_inj h (montMul_rep h a1 (sq_rep h b3)) (montMul_rep h b1 (sq_rep h a3))).mp ?_
        simp only [toZ_montMul h, toZ_sq h]
        linear_combination hU.mp hx
      · refine (toZ_inj h (montMul_rep h a2 (montMul_rep h b3 (sq_rep h b3)))
          (montMul_rep h b2 (montMul_rep h a3 (sq_rep h a3)))).mp ?_
        simp only [toZ_montMul h, toZ_sq h]
        linear_combination hS.mp e
    have e1 := (WeierstrassCurve.Affine.equation_iff _ _).mp n1.1
    have e2 := (WeierstrassCurve.Affine.equation_iff _ _).mp n2.1
    simp only [Config.curve] at e1 e2
    have hopp : affineY c q1 = -affineY c q2 := by
      have : (affineY c q1 - affineY c q2) * (affineY c q1 + affineY c q2) = 0 := by
        rw [hx] at e1; linear_combination e1 - e2
      rcases mul_eq_zero.mp this with e | e
      · exact absurd (sub_eq_zero.mp e) hy
      · linear_combination e
    refine .inl ⟨(toZ_eq_zero h hrep.2.2).mp (by rw [ez, hU.mp hx]; ring), ?_⟩
    exact WeierstrassCurve.Affine.Point.add_of_Y_eq hx (by rw [curve_negY]; exact hopp)
  · have hUne : toZ c q2.x * toZ c q1.z ^ 2 - toZ c q1.x * toZ c q2.z ^ 2 ≠ 0 :=
      fun e => hx (hU.mpr (by linear_combination -e))
    have hz3 : toZ c (addFormula c q1 q2).z ≠ 0 := by
      rw [ez]; exact mul_ne_zero (mul_ne_zero (mul_ne_zero t2 hZ1) hZ2) hUne
    refine .inr ⟨fun e => hz3 (by rw [e, toZ_zero]), ?_⟩
    have hadd := WeierstrassCurve.Affine.Point.add_of_X_ne (h₁ := n1) (h₂ := n2) hx
    have hl : c.curve.slope (affineX c q1) (affineX c q2) (affineY c q1) (affineY c q2) =
        (toZ c q2.y * toZ c q1.z ^ 3 - toZ c q1.y * toZ c q2.z ^ 3) /
          (toZ c q1.z * toZ c q2.z * (toZ c q2.x * toZ c q1.z ^ 2 - toZ c q1.x * toZ c q2.z ^ 2)) := by
      rw [WeierstrassCurve.Affine.slope_of_X_ne hx]
      have hsub : affineX c q1 - affineX c q2 ≠ 0 := sub_ne_zero.mpr hx
      rw [div_eq_div_iff hsub (mul_ne_zero (mul_ne_zero hZ1 hZ2) hUne)]
      simp only [affineX, affineY]
      field_simp
      ring
    have eX : affineX c (addFormula c q1 q2) = c.curve.addX (affineX c q1) (affineX c q2)
        (c.curve.slope (affineX c q1) (affineX c q2) (affineY c q1) (affineY c q2)) := by
      rw [curve_addX, hl]
      simp only [affineX, ex, ez]
      generalize hD : toZ c q2.x * toZ c q1.z ^ 2 - toZ c q1.x * toZ c q2.z ^ 2 = D at *
      have hx2 : toZ c q2.x = (D + toZ c q1.x * toZ c q2.z ^ 2) / toZ c q1.z ^ 2 := by
        field_simp; linear_combination hD
      rw [hx2]
      field_simp
      ring
    have eY : affineY c (addFormula c q1 q2) = c.curve.addY (affineX c q1) (affineX c q2) (affineY c q1)
        (c.curve.slope (affineX c q1) (affineX c q2) (affineY c q1) (affineY c q2)) := by
      rw [curve_addY, hl]
      simp only [affineX, affineY, ey, ez]
      generalize hD : toZ c q2.x * toZ c q1.z ^ 2 - toZ c q1.x * toZ c q2.z ^ 2 = D at *
      have hx2 : toZ c q2.x = (D + toZ c q1.x * toZ c q2.z ^ 2) / toZ c q1.z ^ 2 := by
        field_simp; linear_combination hD
      rw [hx2]
      field_simp
      ring
    rw [eX, eY]
    exact ⟨_, hadd⟩

/-- Add adds in the group of the curve (R212). -/
theorem stands_pointAdd (h : c.FieldFacts) {q1 q2 : Point} (h1 : isRepPoint c q1) (h2 : isRepPoint c q2)
    {P1 P2 : c.curve.Point} (s1 : Stands c q1 P1) (s2 : Stands c q2 P2) : Stands c (pointAdd c q1 q2) (P1 + P2) := by
  unfold pointAdd
  rcases s1 with ⟨hz1, rfl⟩ | ⟨hz1, n1, rfl⟩
  · rw [if_pos hz1, zero_add]; exact s2
  rw [if_neg hz1]
  rcases s2 with ⟨hz2, rfl⟩ | ⟨hz2, n2, rfl⟩
  · rw [if_pos hz2, add_zero]; exact .inr ⟨hz1, n1, rfl⟩
  rw [if_neg hz2]
  cases hc : crossEqual c q1 q2 with
  | false => exact stands_addFormula h h1 h2 hz1 hz2 hc
  | true =>
    have hZ1 : toZ c q1.z ≠ 0 := fun e => hz1 ((toZ_eq_zero h h1.2.2).mp e)
    have hZ2 : toZ c q2.z ≠ 0 := fun e => hz2 ((toZ_eq_zero h h2.2.2).mp e)
    simp only [crossEqual, Bool.and_eq_true, beq_iff_eq] at hc
    have eu := congrArg (toZ c) hc.1
    have es := congrArg (toZ c) hc.2
    simp only [toZ_montMul h, toZ_sq h] at eu es
    have ex : affineX c q1 = affineX c q2 := by
      simp only [affineX]; field_simp; linear_combination eu
    have ey : affineY c q1 = affineY c q2 := by
      simp only [affineY]; field_simp; linear_combination es
    have e : WeierstrassCurve.Affine.Point.some _ _ n2 = WeierstrassCurve.Affine.Point.some _ _ n1 := by
      simp only [WeierstrassCurve.Affine.Point.some.injEq]; exact ⟨ex.symm, ey.symm⟩
    rw [e]
    exact stands_pointDbl h h1 (.inr ⟨hz1, n1, rfl⟩)

/-- The loop of ScalarMul shifts the multiple so far left by the bits still to come and adds them. -/
theorem stands_scalarLoop (h : c.FieldFacts) (k : Nat) {q : Point} (hq : isRepPoint c q) {P : c.curve.Point}
    (hs : Stands c q P) : ∀ i res found (Q : c.curve.Point), isRepPoint c res → Stands c res Q → (found = false → Q = 0) →
      Stands c (scalarLoop c k q i res found) (2 ^ i • Q + (k % 2 ^ i) • P)
  | 0, res, found, Q, _, sr, _ => by simpa [scalarLoop, Nat.mod_one] using sr
  | i + 1, res, found, Q, hr, sr, hf => by
    have hdr : isRepPoint c (if found then pointDbl c res else res) := by
      split
      · exact pointDbl_rep h hr
      · exact hr
    have hds : Stands c (if found then pointDbl c res else res) (2 • Q) := by
      cases found with
      | true => rw [two_nsmul]; exact stands_pointDbl h hr sr
      | false => rw [hf rfl] at sr ⊢; simpa using sr
    have hbit : k % 2 ^ (i + 1) = 2 ^ i * (k.testBit i).toNat + k % 2 ^ i := by
      rw [Nat.mod_pow_succ, Nat.testBit_eq_decide_div_mod_eq]
      rcases Nat.mod_two_eq_zero_or_one (k / 2 ^ i) with h0 | h0 <;> simp [h0]; omega
    rw [scalarLoop]
    split
    · rename_i hb
      have := stands_scalarLoop h k hq hs i _ true _ (pointAdd_rep h hdr hq) (stands_pointAdd h hdr hq hds hs) (by simp)
      have e : 2 ^ i • (2 • Q + P) + (k % 2 ^ i) • P = 2 ^ (i + 1) • Q + (k % 2 ^ (i + 1)) • P := by
        rw [hbit, hb, pow_succ]; simp only [Bool.toNat_true, mul_one, nsmul_add, add_nsmul, mul_nsmul']; abel
      rwa [e] at this
    · rename_i hb
      have hb' : k.testBit i = false := by simpa using hb
      have := stands_scalarLoop h k hq hs i _ found _ hdr hds (fun hfalse => by rw [hf hfalse]; simp)
      have e : 2 ^ i • (2 • Q) + (k % 2 ^ i) • P = 2 ^ (i + 1) • Q + (k % 2 ^ (i + 1)) • P := by
        rw [hbit, hb', pow_succ]; simp [mul_smul]
      rwa [e] at this

/-- ScalarMul multiplies in the group of the curve, for a scalar of W bits (R240). -/
theorem stands_scalarMul (h : c.FieldFacts) {k : Nat} (hk : k < 2 ^ c.w) {q : Point} (hq : isRepPoint c q)
    {P : c.curve.Point} (hs : Stands c q P) : Stands c (scalarMul c k q) (k • P) := by
  have := stands_scalarLoop h k hq hs c.w (pointO c) false 0 (pointO_rep h) (.inl ⟨rfl, rfl⟩) (fun _ => rfl)
  rw [nsmul_zero, zero_add, Nat.mod_eq_of_lt hk] at this
  exact this
end Machine
end
end Sys2Proof
end

