-- ==== Sys2Proof/Laws/Validity.lean ====
section
/-! SUPPORT. The check of R8 that a step makes (R10) is R8: trial division decides primality, Euler's criterion counts the
points of the curve, and `Config.satisfiesR8` holds exactly where `Config.Valid` does. -/

namespace Sys2Proof

open Sys2Proof.Machine

/-! ### Primes -/

theorem noDivisorFrom_iff (n : Nat) : ∀ k d, 1 ≤ d → n < (d + k) * (d + k) →
    (noDivisorFrom n k d = true ↔ ∀ m, d ≤ m → m * m ≤ n → ¬m ∣ n)
  | 0, d, _, hn => by
    simp only [noDivisorFrom, true_iff]
    intro m hm hmn
    have := Nat.mul_le_mul hm hm
    simp only [add_zero] at hn
    omega
  | k + 1, d, hd, hn => by
    rw [noDivisorFrom]
    split
    · rename_i hlt
      simp only [true_iff]
      intro m hm hmn
      have := Nat.mul_le_mul hm hm
      omega
    · rename_i hle
      split
      · rename_i h0
        simp only [Bool.false_eq_true, false_iff, not_forall, not_not]
        exact ⟨d, le_rfl, by omega, Nat.dvd_of_mod_eq_zero h0⟩
      · rename_i h0
        rw [noDivisorFrom_iff n k (d + 1) (by omega) (by rwa [show d + 1 + k = d + (k + 1) by omega])]
        constructor
        · intro h m hm hmn
          rcases Nat.eq_or_lt_of_le hm with rfl | hlt
          · exact fun hdv => h0 (Nat.mod_eq_zero_of_dvd hdv)
          · exact h m hlt hmn
        · exact fun h m hm => h m (by omega)

theorem isPrime_iff (n : Nat) : isPrime n = true ↔ n.Prime := by
  unfold isPrime
  rw [Bool.and_eq_true, decide_eq_true_eq, noDivisorFrom_iff n n 2 (by decide) (by nlinarith), Nat.prime_def_le_sqrt]
  exact and_congr_right fun _ => forall_congr' fun m => forall_congr' fun _ => by rw [Nat.le_sqrt]

/-! ### The points of the curve -/

section
variable {c : Config}

theorem rootCount_le (c : Config) (v : Nat) : c.rootCount v ≤ 2 := by
  unfold Config.rootCount; split <;> [omega; (split <;> omega)]

/-- Euler's criterion counts the square roots of a residue. -/
theorem rootCount_eq [Fact c.p.Prime] (h : c.FieldFacts) {v : Nat} (hv : v < c.p) :
    c.rootCount v = ((Finset.range c.p).filter (fun y => y ^ 2 % c.p = v)).card := by
  have h2 : c.p ≠ 2 := by have := h.pGe; omega
  have hc : ((Finset.range c.p).filter (fun y => y ^ 2 % c.p = v)).card =
      ({x : ZMod c.p | x ^ 2 = ((v : Int) : ZMod c.p)}.toFinset).card := by
    refine Finset.card_nbij' (fun y => (y : ZMod c.p)) (fun x => x.val) ?_ ?_ ?_ ?_
    · intro y hy
      simp only [Finset.coe_filter, Finset.mem_range] at hy
      have := congrArg (fun n : Nat => (n : ZMod c.p)) hy.2
      simpa using this
    · intro x hx
      have hx : x ^ 2 = (v : ZMod c.p) := by simpa using hx
      simp only [Finset.coe_filter, Finset.mem_range]
      refine ⟨ZMod.val_lt _, ?_⟩
      have : ((x.val ^ 2 : Nat) : ZMod c.p) = (v : ZMod c.p) := by push_cast; simpa using hx
      have := (ZMod.natCast_eq_natCast_iff _ _ _).mp this
      rwa [Nat.ModEq, Nat.mod_eq_of_lt hv] at this
    · intro y hy
      simp only [Finset.coe_filter, Finset.mem_range] at hy
      exact ZMod.val_cast_of_lt hy.1
    · intro x _; simp
  have hl := legendreSym.card_sqrts c.p h2 (v : Int)
  rw [← hc] at hl
  have hlt : c.pm1h < 2 ^ c.w := by
    have := h.pLt; unfold Config.radix at this; unfold Config.pm1h; omega
  have hhalf : (c.p - 1) / 2 = c.p / 2 := by have := h.pOdd; omega
  have hcast : ((powMod c.p v c.w c.pm1h : Nat) : ZMod c.p) = (v : ZMod c.p) ^ (c.p / 2) := by
    rw [powMod_eq _ _ _ _ hlt, ZMod.natCast_mod, Config.pm1h, hhalf]; push_cast; rfl
  have hpow : powMod c.p v c.w c.pm1h = 1 ↔ (v : ZMod c.p) ^ (c.p / 2) = 1 := by
    have hp1 : (1 : Nat) < c.p := by have := h.pGe; omega
    have hlt' : powMod c.p v c.w c.pm1h < c.p := by rw [powMod_eq _ _ _ _ hlt]; exact Nat.mod_lt _ h.pPos
    rw [← hcast]
    constructor
    · intro e; rw [e]; exact Nat.cast_one
    · intro e
      have := (ZMod.natCast_eq_natCast_iff _ 1 _).mp (e.trans Nat.cast_one.symm)
      exact Nat.ModEq.eq_of_lt_of_lt this hlt' hp1
  have h0 : ((v : Int) : ZMod c.p) = 0 ↔ v = 0 := by
    rw [Int.cast_natCast, ZMod.natCast_eq_zero_iff]
    exact ⟨fun hd => Nat.eq_zero_of_dvd_of_lt hd hv, fun e => e ▸ dvd_zero _⟩
  unfold Config.rootCount
  split
  · rename_i e
    have : legendreSym c.p (v : Int) = 0 := (legendreSym.eq_zero_iff _ _).mpr (h0.mpr e)
    omega
  · rename_i e
    have hne : ((v : Int) : ZMod c.p) ≠ 0 := fun x => e (h0.mp x)
    have hone := legendreSym.eq_one_iff c.p hne
    rw [ZMod.euler_criterion c.p hne, Int.cast_natCast, ← hpow] at hone
    split
    · rename_i e1
      have := hone.mpr e1
      omega
    · rename_i e1
      have := (legendreSym.eq_one_or_neg_one c.p hne).resolve_left (fun x => e1 (hone.mp x))
      omega

theorem pointCount_eq [Fact c.p.Prime] (h : c.FieldFacts) : c.pointCount = c.curveOrder := by
  unfold Config.pointCount Config.curveOrder
  rw [Finset.card_filter, Finset.sum_product, ← List.sum_toFinset _ List.nodup_range, List.toFinset_range]
  congr 1
  refine Finset.sum_congr rfl fun x _ => ?_
  rw [rootCount_eq h (Nat.mod_lt _ h.pPos), Finset.card_filter]

theorem curveOrder_le [Fact c.p.Prime] (h : c.FieldFacts) : c.curveOrder ≤ 2 * c.p + 1 := by
  rw [← pointCount_eq h]
  unfold Config.pointCount
  rw [← List.sum_toFinset _ List.nodup_range, List.toFinset_range]
  have := Finset.sum_le_card_nsmul (Finset.range c.p) (fun x => c.rootCount ((x ^ 3 + c.b) % c.p)) 2
    (fun x _ => rootCount_le _ _)
  simp only [Finset.card_range, smul_eq_mul] at this
  omega

/-! ### The whole of R8 -/

theorem s_pos (h : c.FieldFacts) : 1 ≤ c.s := by
  have hw := h.w_ge
  have he : (c.p - 1) % 2 = 0 := by have := h.pOdd; omega
  unfold Config.s
  obtain ⟨k, hk⟩ := Nat.exists_eq_add_of_le' (le_trans (by decide : 1 ≤ 64) hw)
  rw [hk, twoAdic, if_pos he]
  omega

/-- The constraints on the numbers, as R8 writes them. -/
theorem admissible_iff : c.admissible = true ↔
    (1 ≤ c.n ∧ c.n ≤ 32) ∧ (c.p % 2 = 1 ∧ 2 ^ (64 * c.n - 64) ≤ c.p ∧ c.p < 2 ^ (64 * c.n) ∧ 5 ≤ c.p) ∧
    (1 ≤ c.b ∧ c.b < c.p) ∧ (c.gx < c.p ∧ c.gy < c.p ∧ c.gy ^ 2 % c.p = (c.gx ^ 3 + c.b) % c.p) ∧
    (2 ≤ c.r ∧ c.r < 2 ^ (64 * c.n)) ∧ (1 ≤ c.h ∧ c.h < 2 ^ (64 * c.n)) ∧
    (1 ≤ c.nqr ∧ c.nqr < c.p ∧ c.nqr ^ ((c.p - 1) / 2) % c.p = c.p - 1) ∧
    (c.root < c.p ∧ c.root ^ 2 ^ c.s % c.p = 1 ∧ c.root ^ 2 ^ (c.s - 1) % c.p ≠ 1) ∧ c.base % 0x2000 = 0 := by
  simp only [Config.admissible, Bool.and_eq_true, decide_eq_true_eq]
  have powers : (1 ≤ c.n ∧ c.n ≤ 32) → (c.p % 2 = 1 ∧ 2 ^ (64 * c.n - 64) ≤ c.p ∧ c.p < 2 ^ (64 * c.n) ∧ 5 ≤ c.p) →
      powMod c.p c.nqr c.w c.pm1h = c.nqr ^ ((c.p - 1) / 2) % c.p ∧
      powMod c.p c.root (c.s + 1) (2 ^ c.s) = c.root ^ 2 ^ c.s % c.p ∧
      powMod c.p c.root c.s (2 ^ (c.s - 1)) = c.root ^ 2 ^ (c.s - 1) % c.p := by
    intro hn hp
    have hf : c.FieldFacts := ⟨hn.1, hn.2, hp.2.1, hp.2.2.1, hp.2.2.2, hp.1⟩
    have hs := s_pos hf
    refine ⟨powMod_eq _ _ _ _ ?_, powMod_eq _ _ _ _ (Nat.pow_lt_pow_right (by decide) (by omega)),
      powMod_eq _ _ _ _ (Nat.pow_lt_pow_right (by decide) (by omega))⟩
    have := hp.2.2.1
    unfold Config.pm1h Config.w
    omega
  unfold Config.radix
  constructor
  · rintro ⟨⟨⟨⟨⟨⟨⟨⟨hn, hp⟩, hb⟩, hg⟩, hr⟩, hh⟩, hq⟩, ho⟩, hw⟩
    have hp' : c.p % 2 = 1 ∧ 2 ^ (64 * c.n - 64) ≤ c.p ∧ c.p < 2 ^ (64 * c.n) ∧ 5 ≤ c.p :=
      ⟨hp.2.2.2, hp.1, hp.2.1, hp.2.2.1⟩
    obtain ⟨e1, e2, e3⟩ := powers hn hp'
    rw [e1] at hq
    rw [e2, e3] at ho
    exact ⟨hn, hp', hb, hg, hr, hh, hq, ho, hw⟩
  · rintro ⟨hn, hp, hb, hg, hr, hh, hq, ho, hw⟩
    obtain ⟨e1, e2, e3⟩ := powers hn hp
    rw [e1, e2, e3]
    exact ⟨⟨⟨⟨⟨⟨⟨⟨hn, hp.2.1, hp.2.2.1, hp.2.2.2, hp.1⟩, hb⟩, hg⟩, hr⟩, hh⟩, hq⟩, ho⟩, hw⟩

theorem Config.Valid.admissible (v : c.Valid) : c.admissible = true :=
  admissible_iff.mpr ⟨v.limbs, v.modulus.2, v.coefficient, v.generator, ⟨v.order.1.two_le, v.order.2⟩,
    ⟨v.cofactor.1, v.cofactor.2.1⟩, v.nonResidue, v.rootOfUnity, v.window⟩

theorem Config.Valid.fieldValid (v : c.Valid) : c.FieldValid := ⟨v.admissible, v.modulus.1⟩

/-- R8 beyond the constraints on the numbers. -/
theorem valid_iff_of_admissible (h : c.admissible = true) : c.Valid ↔ c.p.Prime ∧ c.r.Prime ∧ c.curveOrder = c.h * c.r ∧
    isInf (scalarMul c c.r (pointG c)) = true := by
  obtain ⟨hn, hp, hb, hg, hr, hh, hq, ho, hw⟩ := admissible_iff.mp h
  constructor
  · exact fun v => ⟨v.modulus.1, v.order.1, v.cofactor.2.2.symm, v.generatorOrder⟩
  · rintro ⟨pp, rp, e, g⟩
    exact ⟨hn, ⟨pp, hp⟩, hb, hg, g, ⟨rp, hr.2⟩, ⟨hh.1, hh.2, e.symm⟩, hq, ho, hw⟩

/-- The evaluation of R8 is R8. -/
theorem satisfiesR8_iff : c.satisfiesR8 = true ↔ c.Valid := by
  unfold Config.satisfiesR8
  simp only [Bool.and_eq_true, isPrime_iff, beq_iff_eq]
  constructor
  · rintro ⟨⟨⟨⟨h, pp⟩, rp⟩, e⟩, g⟩
    have : Fact c.p.Prime := ⟨pp⟩
    exact (valid_iff_of_admissible h).mpr ⟨pp, rp, pointCount_eq (Config.admissible_fieldFacts h) ▸ e, g⟩
  · intro v
    have hv := (valid_iff_of_admissible v.admissible).mp v
    have : Fact c.p.Prime := ⟨hv.1⟩
    exact ⟨⟨⟨⟨v.admissible, hv.1⟩, hv.2.1⟩, (pointCount_eq (Config.admissible_fieldFacts v.admissible)).trans hv.2.2.1⟩,
      hv.2.2.2⟩

end

/-! ### Two configurations of one curve -/

section
variable {c d : Config}

theorem montMul_congr (hn : c.n = d.n) (hp : c.p = d.p) : montMul c = montMul d := by
  cases c; cases d; cases hn; cases hp; rfl

theorem fieldAdd_congr (hp : c.p = d.p) : fieldAdd c = fieldAdd d := by
  cases c; cases d; cases hp; rfl

theorem fieldSub_congr (hp : c.p = d.p) : fieldSub c = fieldSub d := by
  cases c; cases d; cases hp; rfl

theorem pointDbl_congr (hn : c.n = d.n) (hp : c.p = d.p) : pointDbl c = pointDbl d := by
  funext q
  simp only [pointDbl, dblFormula, sq, montMul_congr hn hp, fieldAdd_congr hp, fieldSub_congr hp]

theorem addFormula_congr (hn : c.n = d.n) (hp : c.p = d.p) : addFormula c = addFormula d := by
  funext q1 q2
  simp only [addFormula, sq, montMul_congr hn hp, fieldAdd_congr hp, fieldSub_congr hp]

theorem crossEqual_congr (hn : c.n = d.n) (hp : c.p = d.p) : crossEqual c = crossEqual d := by
  funext q1 q2
  simp only [crossEqual, sq, montMul_congr hn hp]

theorem pointAdd_congr (hn : c.n = d.n) (hp : c.p = d.p) : pointAdd c = pointAdd d := by
  funext q1 q2
  simp only [pointAdd, addFormula_congr hn hp, crossEqual_congr hn hp, pointDbl_congr hn hp]

theorem scalarLoop_congr (hn : c.n = d.n) (hp : c.p = d.p) (k : Nat) (q : Point) :
    ∀ i res found, scalarLoop c k q i res found = scalarLoop d k q i res found
  | 0, _, _ => rfl
  | i + 1, res, found => by
    simp only [scalarLoop, pointDbl_congr hn hp, pointAdd_congr hn hp, scalarLoop_congr hn hp k q i]

/-- R8 but for BASE speaks of the curve alone. -/
theorem Config.Valid.of_sameCurve (v : d.Valid) (h : c.sameCurve d = true) (hw : c.base % 0x2000 = 0) : c.Valid := by
  simp only [Config.sameCurve, Bool.and_eq_true, beq_iff_eq] at h
  obtain ⟨⟨⟨⟨⟨⟨⟨⟨hn, hp⟩, hb⟩, hgx⟩, hgy⟩, hr⟩, hh⟩, hq⟩, ho⟩ := h
  have hs : c.s = d.s := by simp only [Config.s, Config.w, hn, hp]
  have hcurve : c.curveOrder = d.curveOrder := by simp only [Config.curveOrder, hp, hb]
  have hgen : scalarMul c c.r (pointG c) = scalarMul d d.r (pointG d) := by
    simp only [scalarMul, pointG, pointO, Config.mont, Config.rm, Config.radix, Config.w, scalarLoop_congr hn hp, hn, hp,
      hgx, hgy, hr]
  exact ⟨hn ▸ v.limbs, by rw [hp, hn]; exact v.modulus, by rw [hp, hb]; exact v.coefficient,
    by rw [hp, hb, hgx, hgy]; exact v.generator, by rw [hgen]; exact v.generatorOrder,
    by rw [hr, hn]; exact v.order, by rw [hh, hr, hn, hcurve]; exact v.cofactor, by rw [hp, hq]; exact v.nonResidue,
    by rw [hp, ho, hs]; exact v.rootOfUnity, hw⟩

end

/-- TOY97 obeys every constraint of R8 (95_test_vectors.md §1.1). -/
theorem toy97_valid : Config.toy97.Valid := satisfiesR8_iff.mp (by decide +kernel)

end Sys2Proof
end

