-- ==== Sys2Proof/Laws/Bn254.lean ====
section
/-! SUPPORT. The realistic configuration of the spec (95_test_vectors.md §1.2) obeys R8: Pratt certificates for its p and
r, and the order of its curve by the order of its generator, so that `Config.obeysR8` answers for it as `satisfiesR8`
would. -/

namespace Sys2Proof

open Sys2Proof.Machine

/-! ### The order of the curve against the order of its generator -/

section
variable {c : Config} [Fact c.p.Prime]

theorem curve_Δ_ne_zero (h : c.FieldFacts) (hb : 1 ≤ c.b ∧ c.b < c.p) : c.curve.Δ ≠ 0 := by
  have h5 := h.pGe
  have small : ∀ n : Nat, 0 < n → n < c.p → (n : ZMod c.p) ≠ 0 := fun n h0 hn e => by
    have := Nat.le_of_dvd h0 ((ZMod.natCast_eq_zero_iff _ _).mp e); omega
  have e : c.curve.Δ = -((2 : Nat) : ZMod c.p) ^ 4 * ((3 : Nat) : ZMod c.p) ^ 3 * c.b ^ 2 := by
    simp only [WeierstrassCurve.Δ, WeierstrassCurve.b₂, WeierstrassCurve.b₄, WeierstrassCurve.b₆, WeierstrassCurve.b₈,
      Config.curve]
    push_cast
    ring
  rw [e]
  exact mul_ne_zero (mul_ne_zero (neg_ne_zero.mpr (pow_ne_zero _ (small 2 (by decide) (by omega))))
    (pow_ne_zero _ (small 3 (by decide) (by omega)))) (pow_ne_zero _ (small _ hb.1 hb.2))

theorem curve_nonsingular_iff (h : c.FieldFacts) (hb : 1 ≤ c.b ∧ c.b < c.p) (x y : ZMod c.p) :
    c.curve.Nonsingular x y ↔ y ^ 2 = x ^ 3 + c.b := by
  rw [← WeierstrassCurve.Affine.equation_iff_nonsingular_of_Δ_ne_zero (curve_Δ_ne_zero h hb),
    WeierstrassCurve.Affine.equation_iff]
  simp [Config.curve]

/-- The solutions of the curve equation, over ZMod p and over the residues. -/
theorem card_solutions :
    ((Finset.univ : Finset (ZMod c.p × ZMod c.p)).filter (fun q => q.2 ^ 2 = q.1 ^ 3 + (c.b : ZMod c.p))).card =
      ((Finset.range c.p ×ˢ Finset.range c.p).filter (fun q => q.2 ^ 2 % c.p = (q.1 ^ 3 + c.b) % c.p)).card := by
  have key : ∀ x y : Nat, y ^ 2 % c.p = (x ^ 3 + c.b) % c.p ↔ (y : ZMod c.p) ^ 2 = (x : ZMod c.p) ^ 3 + c.b := by
    intro x y
    rw [← Nat.ModEq, ← ZMod.natCast_eq_natCast_iff]
    push_cast
    rfl
  refine Finset.card_nbij' (fun q => (q.1.val, q.2.val)) (fun q => ((q.1 : ZMod c.p), (q.2 : ZMod c.p))) ?_ ?_ ?_ ?_
  · intro q hq
    simp only [Finset.coe_filter, Finset.mem_univ, true_and] at hq
    simp only [Finset.coe_filter, Finset.mem_product, Finset.mem_range]
    exact ⟨⟨ZMod.val_lt _, ZMod.val_lt _⟩, (key _ _).mpr (by simpa using hq)⟩
  · intro q hq
    simp only [Finset.coe_filter, Finset.mem_product, Finset.mem_range] at hq
    simp only [Finset.coe_filter, Finset.mem_univ, true_and]
    exact (key _ _).mp hq.2
  · intro q _; simp
  · intro q hq
    simp only [Finset.coe_filter, Finset.mem_product, Finset.mem_range] at hq
    exact Prod.ext (ZMod.val_cast_of_lt hq.1.1) (ZMod.val_cast_of_lt hq.1.2)

/-- The points of the group are those R8 counts. -/
theorem curve_card (h : c.FieldFacts) (hb : 1 ≤ c.b ∧ c.b < c.p) : Nat.card c.curve.Point = c.curveOrder := by
  classical
  rw [Nat.card_congr (WeierstrassCurve.Affine.nonsingularPointEquiv c.curve)]
  refine Finite.card_option.trans ?_
  rw [Config.curveOrder, ← card_solutions, Nat.card_eq_fintype_card, Fintype.card_subtype]
  simp only [curve_nonsingular_iff h hb]

/-- A point of order 2 is a root of x³ + b, and −b is then a cube, whose power of (p − 1)/3 is 1. -/
theorem curveOrder_odd (h : c.FieldFacts) (hb : 1 ≤ c.b ∧ c.b < c.p) (h3 : c.p % 3 = 1)
    (hc : powMod c.p (c.p - c.b) c.w ((c.p - 1) / 3) ≠ 1) : ¬2 ∣ c.curveOrder := by
  intro hd
  rw [← curve_card h hb] at hd
  have : Finite c.curve.Point := Nat.finite_of_card_ne_zero (by rw [curve_card h hb]; unfold Config.curveOrder; omega)
  have : Fact (Nat.Prime 2) := ⟨Nat.prime_two⟩
  obtain ⟨P, hP⟩ := exists_prime_addOrderOf_dvd_card' 2 hd
  have hne : P ≠ 0 := by rintro rfl; simp at hP
  have h2P : P + P = 0 := by rw [← two_nsmul, ← hP]; exact addOrderOf_nsmul_eq_zero P
  cases P with
  | zero => exact hne rfl
  | some x y hns =>
    have hy : y = -y := by
      by_contra e
      rw [WeierstrassCurve.Affine.Point.add_self_of_Y_ne (by rw [curve_negY]; exact e)] at h2P
      cases h2P
    have hy0 : y = 0 := by
      have : 2 * y = 0 := by linear_combination hy
      exact (mul_eq_zero.mp this).resolve_left (value_two_ne_zero h)
    have hx := (curve_nonsingular_iff h hb x y).mp hns
    have hb0 : (c.b : ZMod c.p) ≠ 0 := fun e => by
      have := Nat.le_of_dvd hb.1 ((ZMod.natCast_eq_zero_iff _ _).mp e); omega
    have hx3 : x ^ 3 = ((c.p - c.b : Nat) : ZMod c.p) := by
      rw [Nat.cast_sub hb.2.le, ZMod.natCast_self, hy0] at *; linear_combination -hx
    have hx0 : x ≠ 0 := by
      rintro rfl
      rw [hy0] at hx
      exact hb0 (by linear_combination -hx)
    have hlt : (c.p - 1) / 3 < 2 ^ c.w := by
      have := h.pLt; unfold Config.radix at this; omega
    have hval : (powMod c.p (c.p - c.b) c.w ((c.p - 1) / 3) : ZMod c.p) = 1 := by
      rw [powMod_eq _ _ _ _ hlt, ZMod.natCast_mod]
      push_cast
      rw [← hx3, ← pow_mul, show 3 * ((c.p - 1) / 3) = c.p - 1 by omega]
      exact ZMod.pow_card_sub_one_eq_one hx0
    refine hc ?_
    have hp1 : 1 < c.p := by have := h.pGe; omega
    have hlt' : powMod c.p (c.p - c.b) c.w ((c.p - 1) / 3) < c.p := by
      rw [powMod_eq _ _ _ _ hlt]; exact Nat.mod_lt _ h.pPos
    exact Nat.ModEq.eq_of_lt_of_lt ((ZMod.natCast_eq_natCast_iff _ 1 _).mp (hval.trans Nat.cast_one.symm)) hlt' hp1

/-- G stands for a point other than Infinity. -/
theorem stands_pointG (h : c.FieldFacts) (hb : 1 ≤ c.b ∧ c.b < c.p)
    (hg : c.gy ^ 2 % c.p = (c.gx ^ 3 + c.b) % c.p) : ∃ P : c.curve.Point, Stands c (pointG c) P ∧ P ≠ 0 := by
  have hx : affineX c (pointG c) = c.gx := by simp [affineX, pointG, toZ_mont h, toZ_rm h]
  have hy : affineY c (pointG c) = c.gy := by simp [affineY, pointG, toZ_mont h, toZ_rm h]
  have hns : c.curve.Nonsingular (affineX c (pointG c)) (affineY c (pointG c)) := by
    rw [curve_nonsingular_iff h hb, hx, hy]
    exact_mod_cast (ZMod.natCast_eq_natCast_iff _ _ _).mpr hg
  exact ⟨.some _ _ hns, .inr ⟨rm_ne_zero h, hns, rfl⟩, by simp⟩

/-- Where r is above a third of the most points a curve can have, the curve's order is r as soon as G has order r and the
curve has no point of order 2. -/
theorem curveOrder_eq_order (h : c.admissible = true) (hr : c.r.Prime) (hbig : 2 * c.p + 1 < 3 * c.r)
    (hG : isInf (scalarMul c c.r (pointG c)) = true) (h3 : c.p % 3 = 1)
    (hc : powMod c.p (c.p - c.b) c.w ((c.p - 1) / 3) ≠ 1) : c.curveOrder = c.r := by
  have hf := Config.admissible_fieldFacts h
  have hpf := Config.admissible_paramFacts h
  have hb := And.intro hpf.bPos hpf.bLt
  obtain ⟨P, hs, hP⟩ := stands_pointG hf hb hpf.gOn
  have hrP : c.r • P = 0 := by
    rcases stands_scalarMul hf hpf.rLt (pointG_rep hf) hs with ⟨-, e⟩ | ⟨hz, -⟩
    · exact e
    · exact absurd (by simpa [isInf] using hG) hz
  have : Fact c.r.Prime := ⟨hr⟩
  have hord : addOrderOf P = c.r := addOrderOf_eq_prime hrP hP
  have hdvd : c.r ∣ c.curveOrder := by
    rw [← curve_card hf hb, ← hord]; exact addOrderOf_dvd_natCard P
  obtain ⟨m, hm⟩ := hdvd
  have hle := curveOrder_le hf
  have hpos : 0 < c.curveOrder := by unfold Config.curveOrder; omega
  have hm3 : m < 3 := by
    by_contra hge
    have : c.r * 3 ≤ c.r * m := Nat.mul_le_mul_left _ (by omega)
    omega
  interval_cases m
  · omega
  · omega
  · exact absurd ⟨c.r, by omega⟩ (curveOrder_odd hf hb h3 hc)

end

/-! ### Pratt certificates -/

/-- A certificate that `n` is prime, given that the numbers `large` are: a generator `a`, and the factors of n − 1, of which
trial division decides those of `small`. -/
def prattStep (n a : Nat) (small large : List Nat) : Bool :=
  decide (n < 2 ^ 256) && decide (2 ≤ n) && decide ((small ++ large).prod = n - 1) && powMod n a 256 (n - 1) == 1 &&
    small.all isPrime && (small ++ large).all (fun q => powMod n a 256 ((n - 1) / q) != 1)

theorem prime_of_prattStep {n a : Nat} {small large : List Nat} (h : prattStep n a small large = true)
    (hl : ∀ q ∈ large, q.Prime) : n.Prime := by
  simp only [prattStep, Bool.and_eq_true, decide_eq_true_eq, beq_iff_eq, List.all_eq_true, bne_iff_ne] at h
  obtain ⟨⟨⟨⟨⟨hn, h2⟩, hprod⟩, h1⟩, hs⟩, hall⟩ := h
  have hq : ∀ q ∈ small ++ large, q.Prime := fun q hq =>
    (List.mem_append.mp hq).elim (fun hm => (isPrime_iff q).mp (hs q hm)) (hl q)
  have cast : ∀ e, e ≤ n - 1 → (powMod n a 256 e : ZMod n) = (a : ZMod n) ^ e := fun e he => by
    rw [powMod_eq _ _ _ _ (by omega), ZMod.natCast_mod]; push_cast; rfl
  refine lucas_primality n (a : ZMod n) (by rw [← cast _ le_rfl, h1, Nat.cast_one]) fun q hqp hqd e => ?_
  rw [← hprod] at hqd
  obtain ⟨r, hr, hqr⟩ := (hqp.prime.dvd_prod_iff).mp hqd
  rw [(Nat.prime_dvd_prime_iff_eq hqp (hq r hr)).mp hqr] at e
  refine hall r hr ?_
  rw [← cast _ (Nat.div_le_self _ _)] at e
  have hlt : powMod n a 256 ((n - 1) / r) < n := by
    have : (n - 1) / r ≤ n - 1 := Nat.div_le_self _ _
    rw [powMod_eq _ _ _ _ (by omega)]; exact Nat.mod_lt _ (by omega)
  exact Nat.ModEq.eq_of_lt_of_lt ((ZMod.natCast_eq_natCast_iff _ 1 _).mp (e.trans Nat.cast_one.symm)) hlt (by omega)

theorem prime_1593227 : Nat.Prime 1593227 :=
  prime_of_prattStep (a := 2) (small := [2, 19, 41927])
    (large := []) (by decide +kernel) (by simp)

theorem prime_1853641 : Nat.Prime 1853641 :=
  prime_of_prattStep (a := 17) (small := [2, 2, 2, 3, 3, 5, 19, 271])
    (large := []) (by decide +kernel) (by simp)

theorem prime_4562087 : Nat.Prime 4562087 :=
  prime_of_prattStep (a := 5) (small := [2, 17, 109, 1231])
    (large := []) (by decide +kernel) (by simp)

theorem prime_173171039 : Nat.Prime 173171039 :=
  prime_of_prattStep (a := 13) (small := [2, 73, 89, 13327])
    (large := []) (by decide +kernel) (by simp)

theorem prime_405928799 : Nat.Prime 405928799 :=
  prime_of_prattStep (a := 22) (small := [2, 11, 3691, 4999])
    (large := []) (by decide +kernel) (by simp)

theorem prime_639533339 : Nat.Prime 639533339 :=
  prime_of_prattStep (a := 2) (small := [2, 229, 853, 1637])
    (large := []) (by decide +kernel) (by simp)

theorem prime_1263766531 : Nat.Prime 1263766531 :=
  prime_of_prattStep (a := 10) (small := [2, 3, 5, 13, 911, 3557])
    (large := []) (by decide +kernel) (by simp)

theorem prime_11465965001 : Nat.Prime 11465965001 :=
  prime_of_prattStep (a := 3) (small := [2, 2, 2, 5, 5, 5, 5, 7, 327599])
    (large := []) (by decide +kernel) (by simp)

theorem prime_12048837557 : Nat.Prime 12048837557 :=
  prime_of_prattStep (a := 2) (small := [2, 2, 7, 7, 661, 93001])
    (large := []) (by decide +kernel) (by simp)

theorem prime_35385462869 : Nat.Prime 35385462869 :=
  prime_of_prattStep (a := 2) (small := [2, 2, 7])
    (large := [1263766531]) (by decide +kernel) (by
    simp only [List.forall_mem_cons, List.not_mem_nil, IsEmpty.forall_iff, implies_true, and_true]
    exact prime_1263766531)

theorem prime_5156902474397 : Nat.Prime 5156902474397 :=
  prime_of_prattStep (a := 2) (small := [2, 2, 107])
    (large := [12048837557]) (by decide +kernel) (by
    simp only [List.forall_mem_cons, List.not_mem_nil, IsEmpty.forall_iff, implies_true, and_true]
    exact prime_12048837557)

theorem prime_1670836401704629 : Nat.Prime 1670836401704629 :=
  prime_of_prattStep (a := 2) (small := [2, 2, 3, 3, 3, 3])
    (large := [5156902474397]) (by decide +kernel) (by
    simp only [List.forall_mem_cons, List.not_mem_nil, IsEmpty.forall_iff, implies_true, and_true]
    exact prime_5156902474397)

theorem prime_2480874801745591 : Nat.Prime 2480874801745591 :=
  prime_of_prattStep (a := 6) (small := [2, 3, 3, 5, 19, 41])
    (large := [35385462869]) (by decide +kernel) (by
    simp only [List.forall_mem_cons, List.not_mem_nil, IsEmpty.forall_iff, implies_true, and_true]
    exact prime_35385462869)

theorem prime_65865678001877903 : Nat.Prime 65865678001877903 :=
  prime_of_prattStep (a := 5) (small := [2, 83, 379, 1637])
    (large := [639533339]) (by decide +kernel) (by
    simp only [List.forall_mem_cons, List.not_mem_nil, IsEmpty.forall_iff, implies_true, and_true]
    exact prime_639533339)

theorem prime_13818364434197438864469338081 : Nat.Prime 13818364434197438864469338081 :=
  prime_of_prattStep (a := 3) (small := [2, 2, 2, 2, 2, 5, 823])
    (large := [1593227, 65865678001877903]) (by decide +kernel) (by
    simp only [List.forall_mem_cons, List.not_mem_nil, IsEmpty.forall_iff, implies_true, and_true]
    exact ⟨prime_1593227, prime_65865678001877903⟩)

theorem prime_13427688667394608761327070753331941386769 : Nat.Prime 13427688667394608761327070753331941386769 :=
  prime_of_prattStep (a := 17) (small := [2, 2, 2, 2, 3, 7, 11])
    (large := [1853641, 4562087, 173171039, 2480874801745591]) (by decide +kernel) (by
    simp only [List.forall_mem_cons, List.not_mem_nil, IsEmpty.forall_iff, implies_true, and_true]
    exact ⟨prime_1853641, prime_4562087, prime_173171039, prime_2480874801745591⟩)

theorem bn254_r_prime : Nat.Prime 21888242871839275222246405745257275088548364400416034343698204186575808495617 :=
  prime_of_prattStep (a := 5) (small := List.replicate 28 2 ++ [3, 3, 13, 29, 983, 11003, 237073])
    (large := [405928799, 1670836401704629, 13818364434197438864469338081]) (by decide +kernel) (by
    simp only [List.forall_mem_cons, List.not_mem_nil, IsEmpty.forall_iff, implies_true, and_true]
    exact ⟨prime_405928799, prime_1670836401704629, prime_13818364434197438864469338081⟩)

theorem bn254_p_prime : Nat.Prime 21888242871839275222246405745257275088696311157297823662689037894645226208583 :=
  prime_of_prattStep (a := 3) (small := [2, 3, 3, 13, 29, 67, 229, 311, 983, 11003])
    (large := [405928799, 11465965001, 13427688667394608761327070753331941386769]) (by decide +kernel) (by
    simp only [List.forall_mem_cons, List.not_mem_nil, IsEmpty.forall_iff, implies_true, and_true]
    exact ⟨prime_405928799, prime_11465965001, prime_13427688667394608761327070753331941386769⟩)

/-! ### The configuration -/

theorem bn254_admissible : Config.bn254.admissible = true := by decide +kernel

theorem bn254_generatorOrder : isInf (scalarMul .bn254 Config.bn254.r (pointG .bn254)) = true := by decide +kernel

/-- BN254 obeys every constraint of R8 (95_test_vectors.md §1.2). -/
theorem bn254_valid : Config.bn254.Valid := by
  have pp : Config.bn254.p.Prime := bn254_p_prime
  have rp : Config.bn254.r.Prime := bn254_r_prime
  have : Fact Config.bn254.p.Prime := ⟨pp⟩
  refine (valid_iff_of_admissible bn254_admissible).mpr ⟨pp, rp, ?_, bn254_generatorOrder⟩
  rw [curveOrder_eq_order bn254_admissible rp (by decide) bn254_generatorOrder (by decide) (by decide +kernel)]
  exact (Nat.one_mul _).symm

/-- What a step asks of a configuration (R10) is every constraint of R8. -/
theorem Config.obeysR8_iff {c : Config} : c.obeysR8 = true ↔ c.Valid := by
  unfold Config.obeysR8
  simp only [Bool.or_eq_true, Bool.and_eq_true, beq_iff_eq]
  constructor
  · rintro (⟨h | h, hw⟩ | h)
    · exact toy97_valid.of_sameCurve h hw
    · exact bn254_valid.of_sameCurve h hw
    · exact satisfiesR8_iff.mp h
  · exact fun v => .inr (satisfiesR8_iff.mpr v)

end Sys2Proof
end

