-- ==== Sys2Proof/Laws/State.lean ====
section
/-! SUPPORT. One lemma per field per update of the state: what each named operation leaves in each field. -/

namespace Sys2Proof.Machine

/-! ### State.tick -/

@[simp] theorem State.tick_cfg (s : State) : s.tick.cfg = s.cfg := rfl
@[simp] theorem State.tick_regs (s : State) : s.tick.regs = s.regs := rfl
@[simp] theorem State.tick_snapshot (s : State) : s.tick.snapshot = s.snapshot := rfl
@[simp] theorem State.tick_ctrl (s : State) : s.tick.ctrl = s.ctrl := rfl
@[simp] theorem State.tick_status (s : State) : s.tick.status = s.status := rfl
@[simp] theorem State.tick_cmd (s : State) : s.tick.cmd = s.cmd := rfl
@[simp] theorem State.tick_err (s : State) : s.tick.err = s.err := rfl
@[simp] theorem State.tick_flags (s : State) : s.tick.flags = s.flags := rfl
@[simp] theorem State.tick_cur (s : State) : s.tick.cur = s.cur := rfl
@[simp] theorem State.tick_inbox (s : State) : s.tick.inbox = s.inbox := rfl
@[simp] theorem State.tick_rand (s : State) : s.tick.rand = s.rand := rfl
@[simp] theorem State.tick_draws (s : State) : s.tick.draws = s.draws + 1 := rfl
@[simp] theorem State.tick_readData (s : State) : s.tick.readData = s.readData := rfl

/-! ### State.complete -/

@[simp] theorem State.complete_ok_cfg (s : State) (ws : List RegWrite) (fl : Option Flags) : (s.complete (.ok ws fl)).cfg = s.cfg := rfl
@[simp] theorem State.complete_ok_regs (s : State) (ws : List RegWrite) (fl : Option Flags) : (s.complete (.ok ws fl)).regs = s.regs.applyAll ws := rfl
@[simp] theorem State.complete_ok_snapshot (s : State) (ws : List RegWrite) (fl : Option Flags) : (s.complete (.ok ws fl)).snapshot = s.snapshot := rfl
@[simp] theorem State.complete_ok_ctrl (s : State) (ws : List RegWrite) (fl : Option Flags) : (s.complete (.ok ws fl)).ctrl = s.ctrl := rfl
@[simp] theorem State.complete_ok_status (s : State) (ws : List RegWrite) (fl : Option Flags) : (s.complete (.ok ws fl)).status = { s.status with busy := false, done := true } := rfl
@[simp] theorem State.complete_ok_cmd (s : State) (ws : List RegWrite) (fl : Option Flags) : (s.complete (.ok ws fl)).cmd = s.cmd := rfl
@[simp] theorem State.complete_ok_err (s : State) (ws : List RegWrite) (fl : Option Flags) : (s.complete (.ok ws fl)).err = ⟨.none, .none, s.curWord⟩ := rfl
@[simp] theorem State.complete_ok_flags (s : State) (ws : List RegWrite) (fl : Option Flags) : (s.complete (.ok ws fl)).flags = fl.getD s.flags := rfl
@[simp] theorem State.complete_ok_cur (s : State) (ws : List RegWrite) (fl : Option Flags) : (s.complete (.ok ws fl)).cur = none := rfl
@[simp] theorem State.complete_ok_inbox (s : State) (ws : List RegWrite) (fl : Option Flags) : (s.complete (.ok ws fl)).inbox = s.inbox := rfl
@[simp] theorem State.complete_ok_rand (s : State) (ws : List RegWrite) (fl : Option Flags) : (s.complete (.ok ws fl)).rand = s.rand := rfl
@[simp] theorem State.complete_ok_draws (s : State) (ws : List RegWrite) (fl : Option Flags) : (s.complete (.ok ws fl)).draws = s.draws := rfl
@[simp] theorem State.complete_ok_readData (s : State) (ws : List RegWrite) (fl : Option Flags) : (s.complete (.ok ws fl)).readData = s.readData := rfl

/-! ### State.complete -/

@[simp] theorem State.complete_fail_cfg (s : State) (f : Failure) : (s.complete (.fail f)).cfg = s.cfg := rfl
@[simp] theorem State.complete_fail_regs (s : State) (f : Failure) : (s.complete (.fail f)).regs = s.regs := rfl
@[simp] theorem State.complete_fail_snapshot (s : State) (f : Failure) : (s.complete (.fail f)).snapshot = s.snapshot := rfl
@[simp] theorem State.complete_fail_ctrl (s : State) (f : Failure) : (s.complete (.fail f)).ctrl = s.ctrl := rfl
@[simp] theorem State.complete_fail_status (s : State) (f : Failure) : (s.complete (.fail f)).status = { s.status with busy := false, done := true, fail := true } := rfl
@[simp] theorem State.complete_fail_cmd (s : State) (f : Failure) : (s.complete (.fail f)).cmd = s.cmd := rfl
@[simp] theorem State.complete_fail_err (s : State) (f : Failure) : (s.complete (.fail f)).err = ⟨f.cat, f.cause, s.curWord⟩ := rfl
@[simp] theorem State.complete_fail_flags (s : State) (f : Failure) : (s.complete (.fail f)).flags = s.flags := rfl
@[simp] theorem State.complete_fail_cur (s : State) (f : Failure) : (s.complete (.fail f)).cur = none := rfl
@[simp] theorem State.complete_fail_inbox (s : State) (f : Failure) : (s.complete (.fail f)).inbox = s.inbox := rfl
@[simp] theorem State.complete_fail_rand (s : State) (f : Failure) : (s.complete (.fail f)).rand = s.rand := rfl
@[simp] theorem State.complete_fail_draws (s : State) (f : Failure) : (s.complete (.fail f)).draws = s.draws := rfl
@[simp] theorem State.complete_fail_readData (s : State) (f : Failure) : (s.complete (.fail f)).readData = s.readData := rfl

/-! ### State.accept -/

@[simp] theorem State.accept_cfg (s : State) (w : CmdWord) : (s.accept w).cfg = s.cfg := rfl
@[simp] theorem State.accept_regs (s : State) (w : CmdWord) : (s.accept w).regs = s.regs := rfl
@[simp] theorem State.accept_snapshot (s : State) (w : CmdWord) : (s.accept w).snapshot = s.regs := rfl
@[simp] theorem State.accept_ctrl (s : State) (w : CmdWord) : (s.accept w).ctrl = s.ctrl := rfl
@[simp] theorem State.accept_status (s : State) (w : CmdWord) : (s.accept w).status = { s.status with done := false, busy := true } := rfl
@[simp] theorem State.accept_cmd (s : State) (w : CmdWord) : (s.accept w).cmd = w := rfl
@[simp] theorem State.accept_err (s : State) (w : CmdWord) : (s.accept w).err = s.err := rfl
@[simp] theorem State.accept_flags (s : State) (w : CmdWord) : (s.accept w).flags = s.flags := rfl
@[simp] theorem State.accept_cur (s : State) (w : CmdWord) : (s.accept w).cur = some w := rfl
@[simp] theorem State.accept_inbox (s : State) (w : CmdWord) : (s.accept w).inbox = s.inbox := rfl
@[simp] theorem State.accept_rand (s : State) (w : CmdWord) : (s.accept w).rand = s.rand := rfl
@[simp] theorem State.accept_draws (s : State) (w : CmdWord) : (s.accept w).draws = s.draws := rfl
@[simp] theorem State.accept_readData (s : State) (w : CmdWord) : (s.accept w).readData = s.readData := rfl

/-! ### State.assertReset -/

@[simp] theorem State.assertReset_cfg (s : State) : s.assertReset.cfg = s.cfg := rfl
@[simp] theorem State.assertReset_regs (s : State) : s.assertReset.regs = Files.atReset s.cfg := rfl
@[simp] theorem State.assertReset_snapshot (s : State) : s.assertReset.snapshot = Files.atReset s.cfg := rfl
@[simp] theorem State.assertReset_ctrl (s : State) : s.assertReset.ctrl = ⟨false, false⟩ := rfl
@[simp] theorem State.assertReset_status (s : State) : s.assertReset.status = ⟨true, false, false, false, false, false⟩ := rfl
@[simp] theorem State.assertReset_cmd (s : State) : s.assertReset.cmd = 0 := rfl
@[simp] theorem State.assertReset_err (s : State) : s.assertReset.err = ⟨.none, .none, 0⟩ := rfl
@[simp] theorem State.assertReset_flags (s : State) : s.assertReset.flags = ⟨false, false⟩ := rfl
@[simp] theorem State.assertReset_cur (s : State) : s.assertReset.cur = none := rfl
@[simp] theorem State.assertReset_inbox (s : State) : s.assertReset.inbox = s.inbox := rfl
@[simp] theorem State.assertReset_rand (s : State) : s.assertReset.rand = s.rand := rfl
@[simp] theorem State.assertReset_draws (s : State) : s.assertReset.draws = s.draws := rfl
@[simp] theorem State.assertReset_readData (s : State) : s.assertReset.readData = s.readData := rfl

/-! ### State.initDone -/

@[simp] theorem State.initDone_cfg (s : State) : s.initDone.cfg = s.cfg := rfl
@[simp] theorem State.initDone_regs (s : State) : s.initDone.regs = { s.regs with p := Vector.replicate 16 (pointO s.cfg) } := rfl
@[simp] theorem State.initDone_snapshot (s : State) : s.initDone.snapshot = s.snapshot := rfl
@[simp] theorem State.initDone_ctrl (s : State) : s.initDone.ctrl = s.ctrl := rfl
@[simp] theorem State.initDone_status (s : State) : s.initDone.status = { s.status with ready := true, busy := false } := rfl
@[simp] theorem State.initDone_cmd (s : State) : s.initDone.cmd = s.cmd := rfl
@[simp] theorem State.initDone_err (s : State) : s.initDone.err = s.err := rfl
@[simp] theorem State.initDone_flags (s : State) : s.initDone.flags = s.flags := rfl
@[simp] theorem State.initDone_cur (s : State) : s.initDone.cur = s.cur := rfl
@[simp] theorem State.initDone_inbox (s : State) : s.initDone.inbox = s.inbox := rfl
@[simp] theorem State.initDone_rand (s : State) : s.initDone.rand = s.rand := rfl
@[simp] theorem State.initDone_draws (s : State) : s.initDone.draws = s.draws := rfl
@[simp] theorem State.initDone_readData (s : State) : s.initDone.readData = s.readData := rfl

/-! ### State.accessError -/

@[simp] theorem State.accessError_cfg (s : State) : s.accessError.cfg = s.cfg := rfl
@[simp] theorem State.accessError_regs (s : State) : s.accessError.regs = s.regs := rfl
@[simp] theorem State.accessError_snapshot (s : State) : s.accessError.snapshot = s.snapshot := rfl
@[simp] theorem State.accessError_ctrl (s : State) : s.accessError.ctrl = s.ctrl := rfl
@[simp] theorem State.accessError_status (s : State) : s.accessError.status = { s.status with accErr := true } := rfl
@[simp] theorem State.accessError_cmd (s : State) : s.accessError.cmd = s.cmd := rfl
@[simp] theorem State.accessError_err (s : State) : s.accessError.err = s.err := rfl
@[simp] theorem State.accessError_flags (s : State) : s.accessError.flags = s.flags := rfl
@[simp] theorem State.accessError_cur (s : State) : s.accessError.cur = s.cur := rfl
@[simp] theorem State.accessError_inbox (s : State) : s.accessError.inbox = s.inbox := rfl
@[simp] theorem State.accessError_rand (s : State) : s.accessError.rand = s.rand := rfl
@[simp] theorem State.accessError_draws (s : State) : s.accessError.draws = s.draws := rfl
@[simp] theorem State.accessError_readData (s : State) : s.accessError.readData = s.readData := rfl

/-! ### State.hazard -/

@[simp] theorem State.hazard_cfg (s : State) : s.hazard.cfg = s.cfg := rfl
@[simp] theorem State.hazard_regs (s : State) : s.hazard.regs = s.regs := rfl
@[simp] theorem State.hazard_snapshot (s : State) : s.hazard.snapshot = s.snapshot := rfl
@[simp] theorem State.hazard_ctrl (s : State) : s.hazard.ctrl = s.ctrl := rfl
@[simp] theorem State.hazard_status (s : State) : s.hazard.status = { s.status with hzd := true } := rfl
@[simp] theorem State.hazard_cmd (s : State) : s.hazard.cmd = s.cmd := rfl
@[simp] theorem State.hazard_err (s : State) : s.hazard.err = s.err := rfl
@[simp] theorem State.hazard_flags (s : State) : s.hazard.flags = s.flags := rfl
@[simp] theorem State.hazard_cur (s : State) : s.hazard.cur = s.cur := rfl
@[simp] theorem State.hazard_inbox (s : State) : s.hazard.inbox = s.inbox := rfl
@[simp] theorem State.hazard_rand (s : State) : s.hazard.rand = s.rand := rfl
@[simp] theorem State.hazard_draws (s : State) : s.hazard.draws = s.draws := rfl
@[simp] theorem State.hazard_readData (s : State) : s.hazard.readData = s.readData := rfl

/-! ### State.withPending -/

@[simp] theorem State.withPending_cfg (s : State) (w : CmdWord) : (s.withPending w).cfg = s.cfg := rfl
@[simp] theorem State.withPending_regs (s : State) (w : CmdWord) : (s.withPending w).regs = s.regs := rfl
@[simp] theorem State.withPending_snapshot (s : State) (w : CmdWord) : (s.withPending w).snapshot = s.regs := rfl
@[simp] theorem State.withPending_ctrl (s : State) (w : CmdWord) : (s.withPending w).ctrl = s.ctrl := rfl
@[simp] theorem State.withPending_status (s : State) (w : CmdWord) : (s.withPending w).status = { s.status with ready := true, done := false, busy := true } := rfl
@[simp] theorem State.withPending_cmd (s : State) (w : CmdWord) : (s.withPending w).cmd = w := rfl
@[simp] theorem State.withPending_err (s : State) (w : CmdWord) : (s.withPending w).err = s.err := rfl
@[simp] theorem State.withPending_flags (s : State) (w : CmdWord) : (s.withPending w).flags = s.flags := rfl
@[simp] theorem State.withPending_cur (s : State) (w : CmdWord) : (s.withPending w).cur = some w := rfl
@[simp] theorem State.withPending_inbox (s : State) (w : CmdWord) : (s.withPending w).inbox = .engine :: s.inbox := rfl
@[simp] theorem State.withPending_rand (s : State) (w : CmdWord) : (s.withPending w).rand = s.rand := rfl
@[simp] theorem State.withPending_draws (s : State) (w : CmdWord) : (s.withPending w).draws = s.draws := rfl
@[simp] theorem State.withPending_readData (s : State) (w : CmdWord) : (s.withPending w).readData = s.readData := rfl

/-! ### The pending word and the lock -/

@[simp] theorem State.curWord_tick (s : State) : s.tick.curWord = s.curWord := rfl

theorem State.curWord_of_cur {s : State} {w : CmdWord} (h : s.cur = some w) : s.curWord = w := by
  simp [State.curWord, h]

theorem Status.locked_eq_false (v : Status) : v.locked = false ↔ v.busy = false ∧ v.ready = true := by
  simp [Status.locked]

theorem State.inInit_eq_false (s : State) : s.inInit = false ↔ s.status.ready = true := by
  simp [State.inInit]

theorem State.isIdle_iff (s : State) : s.isIdle = true ↔ s.status.locked = false := by
  simp [State.isIdle, Status.locked, and_comm]

end Sys2Proof.Machine
end

