-- ==== Sys2Proof/Laws/Files.lean ====
section
/-! SUPPORT. The register files: what a write leaves to every read (R36), what the collected writes of a command do, and
the bounds R32, R34 and R35 under them. -/

namespace Sys2Proof.Machine

/-! ### One write -/

theorem Files.readF_writeF (r : Files) (i j : FReg) (v : Nat) :
    (r.writeF i v).readF j = if j = i then v else r.readF j := by
  simp only [Files.readF, Files.writeF, Vector.get_eq_getElem, Vector.getElem_set, Fin.ext_iff]
  simp only [eq_comm]

theorem Files.readP_writeP (r : Files) (i j : PReg) (q : Point) :
    (r.writeP i q).readP j = if j = i then q else r.readP j := by
  simp only [Files.readP, Files.writeP, Vector.get_eq_getElem, Vector.getElem_set, Fin.ext_iff]
  simp only [eq_comm]

theorem Files.readK_writeK (r : Files) (i j : KReg) (v : Nat) :
    (r.writeK i v).readK j = if j = i then v else r.readK j := by
  simp only [Files.readK, Files.writeK, Vector.get_eq_getElem, Vector.getElem_set, Fin.ext_iff]
  simp only [eq_comm]

@[simp] theorem Files.writeF_p (r : Files) (i : FReg) (v : Nat) : (r.writeF i v).p = r.p := rfl
@[simp] theorem Files.writeF_k (r : Files) (i : FReg) (v : Nat) : (r.writeF i v).k = r.k := rfl
@[simp] theorem Files.writeP_f (r : Files) (i : PReg) (q : Point) : (r.writeP i q).f = r.f := rfl
@[simp] theorem Files.writeP_k (r : Files) (i : PReg) (q : Point) : (r.writeP i q).k = r.k := rfl
@[simp] theorem Files.writeK_f (r : Files) (i : KReg) (v : Nat) : (r.writeK i v).f = r.f := rfl
@[simp] theorem Files.writeK_p (r : Files) (i : KReg) (v : Nat) : (r.writeK i v).p = r.p := rfl

@[simp] theorem Files.readP_writeF (r : Files) (i : FReg) (v : Nat) (j : PReg) :
    (r.writeF i v).readP j = r.readP j := rfl
@[simp] theorem Files.readK_writeF (r : Files) (i : FReg) (v : Nat) (j : KReg) :
    (r.writeF i v).readK j = r.readK j := rfl
@[simp] theorem Files.readF_writeP (r : Files) (i : PReg) (q : Point) (j : FReg) :
    (r.writeP i q).readF j = r.readF j := rfl
@[simp] theorem Files.readK_writeP (r : Files) (i : PReg) (q : Point) (j : KReg) :
    (r.writeP i q).readK j = r.readK j := rfl
@[simp] theorem Files.readF_writeK (r : Files) (i : KReg) (v : Nat) (j : FReg) :
    (r.writeK i v).readF j = r.readF j := rfl
@[simp] theorem Files.readP_writeK (r : Files) (i : KReg) (v : Nat) (j : PReg) :
    (r.writeK i v).readP j = r.readP j := rfl

/-! ### The writes of a command (R305) -/

@[simp] theorem Files.applyAll_nil (r : Files) : r.applyAll [] = r := rfl
@[simp] theorem Files.applyAll_cons (r : Files) (w : RegWrite) (ws : List RegWrite) :
    r.applyAll (w :: ws) = (r.apply w).applyAll ws := rfl
@[simp] theorem Files.apply_f (r : Files) (i : FReg) (v : Nat) : r.apply (.f i v) = r.writeF i v := rfl
@[simp] theorem Files.apply_p (r : Files) (i : PReg) (q : Point) : r.apply (.p i q) = r.writeP i q := rfl
@[simp] theorem Files.apply_k (r : Files) (i : KReg) (v : Nat) : r.apply (.k i v) = r.writeK i v := rfl

/-- The collected writes of a batch leave F and K alone. -/
theorem Files.applyAll_p_f (qs : List Point) : ∀ (is : List PReg) (r : Files),
    (r.applyAll (List.zipWith RegWrite.p is qs)).f = r.f ∧ (r.applyAll (List.zipWith RegWrite.p is qs)).k = r.k := by
  induction qs with
  | nil => intro is r; simp
  | cons q qs ih =>
    intro is r
    cases is with
    | nil => simp
    | cons i is => simpa using ih is (r.writeP i q)

/-- A point register outside a batch keeps its triple. -/
theorem Files.readP_applyAll_not_mem (qs : List Point) : ∀ (is : List PReg) (r : Files) (j : PReg), j ∉ is →
    (r.applyAll (List.zipWith RegWrite.p is qs)).readP j = r.readP j := by
  induction qs with
  | nil => intro is r j _; simp
  | cons q qs ih =>
    intro is r j hj
    cases is with
    | nil => simp
    | cons i is =>
      simp only [List.mem_cons, not_or] at hj
      simp only [List.zipWith_cons_cons, Files.applyAll_cons, Files.apply_p]
      rw [ih is _ j hj.2, Files.readP_writeP, if_neg hj.1]

/-- A point register of a batch without repeats takes the triple at its place. -/
theorem Files.readP_applyAll_mem (qs : List Point) : ∀ (is : List PReg) (r : Files), is.Nodup →
    ∀ (n : Nat) (hi : n < is.length) (hq : n < qs.length),
      (r.applyAll (List.zipWith RegWrite.p is qs)).readP is[n] = qs[n] := by
  induction qs with
  | nil => intro is r _ n _ hq; simp at hq
  | cons q qs ih =>
    intro is r hn n hi hq
    cases is with
    | nil => simp at hi
    | cons i is =>
      simp only [List.nodup_cons] at hn
      simp only [List.zipWith_cons_cons, Files.applyAll_cons, Files.apply_p]
      cases n with
      | zero => simp [Files.readP_applyAll_not_mem _ _ _ _ hn.1, Files.readP_writeP]
      | succ n => simpa using ih is (r.writeP i q) hn.2 n (by simpa using hi) (by simpa using hq)

/-! ### Bounds (R32, R34, R35) -/

/-- The bound one collected write must meet. -/
def RegWrite.Ok (c : Config) : RegWrite → Prop
  | .f _ v => isRep c v
  | .p _ q => isRepPoint c q
  | .k _ v => v < 2 ^ c.w

theorem Files.Ok.apply {c : Config} {r : Files} (hr : r.Ok c) {w : RegWrite} (hw : w.Ok c) : (r.apply w).Ok c := by
  cases w with
  | f i v =>
    refine ⟨fun j => ?_, hr.p, hr.k⟩
    rw [Files.apply_f, Files.readF_writeF]
    split
    · exact hw
    · exact hr.f j
  | p i q =>
    refine ⟨hr.f, fun j => ?_, hr.k⟩
    rw [Files.apply_p, Files.readP_writeP]
    split
    · exact hw
    · exact hr.p j
  | k i v =>
    refine ⟨hr.f, hr.p, fun j => ?_⟩
    rw [Files.apply_k, Files.readK_writeK]
    split
    · exact hw
    · exact hr.k j

theorem Files.Ok.applyAll {c : Config} : ∀ (ws : List RegWrite) {r : Files}, r.Ok c → (∀ w ∈ ws, w.Ok c) →
    (r.applyAll ws).Ok c
  | [], _, hr, _ => hr
  | w :: ws, _, hr, hw =>
    Files.Ok.applyAll ws (hr.apply (hw w (List.mem_cons_self ..))) (fun v hv => hw v (List.mem_cons_of_mem _ hv))

theorem Files.atReset_readF (c : Config) (i : FReg) : (Files.atReset c).readF i = 0 := by
  simp [Files.readF, Files.atReset, Vector.get_eq_getElem]

theorem Files.atReset_readP (c : Config) (i : PReg) : (Files.atReset c).readP i = pointO c := by
  simp [Files.readP, Files.atReset, Vector.get_eq_getElem]

theorem Files.atReset_readK (c : Config) (i : KReg) : (Files.atReset c).readK i = 0 := by
  simp [Files.readK, Files.atReset, Vector.get_eq_getElem]

/-! ### Batches (R105) -/

theorem batchRegs_length (a b : Fin 16) : (batchRegs a b).length = b.val + 1 := by
  simp [batchRegs, batchLength]

theorem batchRegs_getElem {a b : Fin 16} {n : Nat} (h : n < (batchRegs a b).length) :
    (batchRegs a b)[n]'h = Fin.ofNat 16 (a.val + n) := by
  simp [batchRegs]

/-- The registers of a batch in range are all different. -/
theorem batchRegs_nodup {a b : Fin 16} (h : batchInRange a b = true) : (batchRegs a b).Nodup := by
  unfold batchInRange at h
  refine List.Nodup.map_on ?_ List.nodup_range
  intro x hx y hy e
  simp only [batchLength, List.mem_range, decide_eq_true_eq] at hx hy h
  have := congrArg Fin.val e
  simp only [Fin.val_ofNat] at this
  omega

/-- A register is in the batch exactly when its number is A to A + n − 1 (R105). -/
theorem mem_batchRegs {a b : Fin 16} (h : batchInRange a b = true) (j : PReg) :
    j ∈ batchRegs a b ↔ a.val ≤ j.val ∧ j.val ≤ a.val + b.val := by
  simp only [batchInRange, decide_eq_true_eq] at h
  simp only [batchRegs, batchLength, List.mem_map, List.mem_range, Fin.ext_iff, Fin.val_ofNat]
  constructor
  · rintro ⟨x, hx, e⟩; omega
  · intro hj; exact ⟨j.val - a.val, by omega, by omega⟩

end Sys2Proof.Machine
end

