-- ==== Sys2Proof/Laws/Bus.lean ====
section
/-! SUPPORT. Where bus accesses land (R71 to R76), what they can do to the state (R78 to R81), and limbs (R76). -/

namespace Sys2Proof.Machine

/-! ### Where an access lands -/

theorem windowOffset_base (c : Config) {off : Nat} (h : off < windowSize) :
    windowOffset c (c.base + off) = some off := by
  unfold windowOffset
  rw [if_pos ⟨by omega, by omega⟩]
  congr 1; omega

theorem locate_csr (c : Config) (r : Csr) : locate c r.offset 64 = .csr r := by cases r <;> rfl

theorem Csr.offset_lt (r : Csr) : r.offset < windowSize := by cases r <;> decide

theorem limbOffset_lt {i : KReg} {j : Nat} (hj : j < 32) : limbOffset i j < windowSize := by
  unfold limbOffset windowSize; omega

theorem locate_limb (c : Config) (i : KReg) {j : Nat} (hj : j < c.n) (hn : c.n ≤ 32) :
    locate c (limbOffset i j) 64 = .limb i j := by
  unfold locate limbOffset
  rw [if_neg (by omega), if_neg (by omega)]
  simp only
  rw [if_pos (by omega)]
  congr 1
  · ext; simp only [Fin.val_ofNat]; omega
  · omega

theorem locate_bad_access (c : Config) {off width : Nat} (h : width ≠ 64 ∨ off % 8 ≠ 0) :
    locate c off width = .undefined := by
  unfold locate; rw [if_pos h]

/-- A limb target is within the scalar (R74, R76). -/
theorem locate_limb_lt {c : Config} {off width : Nat} {i : KReg} {j : Nat} (h : locate c off width = .limb i j) :
    j < c.n := by
  unfold locate at h
  split at h
  · simp at h
  split at h
  · split at h <;> simp at h
  · simp only at h
    split at h
    · rename_i hj; simp only [Target.limb.injEq] at h; omega
    · simp at h

theorem busRead_csr (s : State) (r : Csr) : s.busRead (s.cfg.base + r.offset) 64 = s.hostRead (.csr r) := by
  unfold State.busRead; rw [windowOffset_base _ r.offset_lt]; simp only [locate_csr]

theorem busWrite_csr (s : State) (r : Csr) (v : BusWord) :
    s.busWrite (s.cfg.base + r.offset) 64 v = s.writeCsr v r := by
  unfold State.busWrite; rw [windowOffset_base _ r.offset_lt]; simp only [locate_csr]; rfl

theorem busRead_limb (s : State) (i : KReg) {j : Nat} (hj : j < s.cfg.n) (hn : s.cfg.n ≤ 32) :
    s.busRead (s.cfg.base + limbOffset i j) 64 = s.hostRead (.limb i j) := by
  unfold State.busRead; rw [windowOffset_base _ (limbOffset_lt (by omega))]; simp only [locate_limb _ _ hj hn]

theorem busWrite_limb (s : State) (i : KReg) {j : Nat} (hj : j < s.cfg.n) (hn : s.cfg.n ≤ 32) (v : BusWord) :
    s.busWrite (s.cfg.base + limbOffset i j) 64 v = s.hostWrite v (.limb i j) := by
  unfold State.busWrite; rw [windowOffset_base _ (limbOffset_lt (by omega))]; simp only [locate_limb _ _ hj hn]

/-! ### What an access can do -/

/-- A read changes the data delivered, the count of free values, and, only through an undefined access, ACCERR. -/
theorem hostRead_cases (s : State) (t : Target) :
    (t = .undefined ∧ s.hostRead t = { s.accessError with readData := 0 }) ∨
      (t ≠ .undefined ∧ ∃ d n, s.hostRead t = { s with draws := n, readData := d }) := by
  cases t with
  | csr r => exact .inr ⟨by simp, s.readCsr r, s.draws, rfl⟩
  | undefined => exact .inl ⟨rfl, rfl⟩
  | limb i j =>
    refine .inr ⟨by simp, ?_⟩
    cases h : s.status.locked with
    | true => exact ⟨_, s.draws + 1, by simp only [State.hostRead, State.afterRead, h, if_true]; rfl⟩
    | false => exact ⟨_, s.draws, by simp only [State.hostRead, State.afterRead, h, Bool.false_eq_true, if_false]; rfl⟩

/-- Everything a write can do. -/
theorem hostWrite_cases (s : State) (v : BusWord) (t : Target) :
    s.hostWrite v t = s.accessError ∨ s.hostWrite v t = s.hazard ∨
      (t = .csr .ctrl ∧ s.hostWrite v t = { s with ctrl := Ctrl.ofWord v }) ∨
      (t = .csr .status ∧ s.hostWrite v t = { s with status := s.status.writeOneToClear v }) ∨
      (t = .csr .cmd ∧ s.status.locked = false ∧ s.hostWrite v t = s.accept (v.setWidth 32)) ∨
      (∃ i j, t = .limb i j ∧ s.status.locked = false ∧
        s.hostWrite v t = { s with regs := s.regs.writeK i (withLimb (s.regs.readK i) j v) }) := by
  cases t with
  | undefined => exact .inl rfl
  | csr r =>
    cases r with
    | id | err | flags => exact .inl rfl
    | ctrl => exact .inr (.inr (.inl ⟨rfl, rfl⟩))
    | status => exact .inr (.inr (.inr (.inl ⟨rfl, rfl⟩)))
    | cmd =>
      cases h : s.status.locked with
      | true => exact .inr (.inl (by simp [State.hostWrite, State.writeCsr, State.issue, h]))
      | false =>
        exact .inr (.inr (.inr (.inr (.inl ⟨rfl, rfl, by simp [State.hostWrite, State.writeCsr, State.issue, h]⟩))))
  | limb i j =>
    cases h : s.status.locked with
    | true => exact .inr (.inl (by simp [State.hostWrite, h]))
    | false => exact .inr (.inr (.inr (.inr (.inr ⟨i, j, rfl, rfl, by simp [State.hostWrite, h]⟩))))

/-! ### Limbs -/

/-- The digit arithmetic of a replaced limb: a quotient below `q`, a limb below `b`, a rest below `m`. -/
theorem digits_lt {x d y q b m : Nat} (hx : x < q) (hd : d < b) (hy : y < m) : x * (b * m) + d * m + y < q * (b * m) := by
  calc x * (b * m) + d * m + y < x * (b * m) + (d + 1) * m := by rw [add_mul d 1 m, one_mul]; omega
    _ ≤ x * (b * m) + b * m := Nat.add_le_add_left (Nat.mul_le_mul_right _ hd) _
    _ = (x + 1) * (b * m) := by rw [add_mul x 1, one_mul]
    _ ≤ q * (b * m) := Nat.mul_le_mul_right _ hx

/-- Replacing a limb below N keeps a scalar within W bits. -/
theorem withLimb_lt {k j n : Nat} (hj : j < n) (hk : k < 2 ^ (64 * n)) (v : BusWord) :
    withLimb k j v < 2 ^ (64 * n) := by
  have hv : v.toNat < 2 ^ 64 := v.isLt
  have e1 : 2 ^ (64 * (j + 1)) = 2 ^ 64 * 2 ^ (64 * j) := by
    rw [show 64 * (j + 1) = 64 + 64 * j by ring, pow_add]
  have e2 : 2 ^ (64 * n) = 2 ^ (64 * (n - (j + 1))) * 2 ^ (64 * (j + 1)) := by
    rw [← pow_add, show 64 * (n - (j + 1)) + 64 * (j + 1) = 64 * n by omega]
  have hq : k / 2 ^ (64 * (j + 1)) < 2 ^ (64 * (n - (j + 1))) :=
    Nat.div_lt_of_lt_mul (by rw [mul_comm, ← e2]; exact hk)
  have hr : k % 2 ^ (64 * j) < 2 ^ (64 * j) := Nat.mod_lt _ (Nat.two_pow_pos _)
  unfold withLimb
  rw [e2]
  rw [e1] at hq ⊢
  exact digits_lt hq hv hr

end Sys2Proof.Machine
end

