-- ==== Sys2Proof/Laws/Cios.lean ====
section
/-! SUPPORT. Limbs as digits, and what one row of the word-level multiplier computes (R162). -/

namespace Sys2Proof

theorem limbsOf_length : ∀ (n x : Nat), (limbsOf n x).length = n
  | 0, _ => rfl
  | n + 1, x => by simp [limbsOf, limbsOf_length n]

theorem limbsOf_lt : ∀ (n x : Nat), ∀ d ∈ limbsOf n x, d < limbBase
  | 0, _, d, h => by simp [limbsOf] at h
  | n + 1, x, d, h => by
    simp only [limbsOf, List.mem_cons] at h
    rcases h with rfl | h
    · exact Nat.mod_lt _ (Nat.two_pow_pos 64)
    · exact limbsOf_lt n _ d h

/-- The limbs of an integer are its digits. -/
theorem ofLimbs_limbsOf : ∀ (n x : Nat), x < limbBase ^ n → ofLimbs (limbsOf n x) = x
  | 0, x, h => by simp only [pow_zero, Nat.lt_one_iff] at h; subst h; rfl
  | n + 1, x, h => by
    rw [limbsOf, ofLimbs, ofLimbs_limbsOf n (x / limbBase)
      (Nat.div_lt_of_lt_mul (by rw [mul_comm, ← pow_succ]; exact h))]
    exact Nat.mod_add_div _ _

theorem ofLimbs_append : ∀ (ds es : List Nat), ofLimbs (ds ++ es) = ofLimbs ds + limbBase ^ ds.length * ofLimbs es
  | [], es => by simp [ofLimbs]
  | d :: ds, es => by
    simp only [List.cons_append, ofLimbs, ofLimbs_append ds es, List.length_cons, pow_succ']
    ring

theorem ofLimbs_lt : ∀ (ds : List Nat), (∀ d ∈ ds, d < limbBase) → ofLimbs ds < limbBase ^ ds.length
  | [], _ => by simp [ofLimbs]
  | d :: ds, h => by
    have hd := h d (List.mem_cons_self ..)
    have ih := ofLimbs_lt ds (fun e he => h e (List.mem_cons_of_mem _ he))
    simp only [ofLimbs, List.length_cons, pow_succ']
    calc d + limbBase * ofLimbs ds < limbBase + limbBase * ofLimbs ds := by omega
      _ = limbBase * (ofLimbs ds + 1) := by ring
      _ ≤ _ := Nat.mul_le_mul_left _ ih

theorem macRow_length (b : Nat) : ∀ (ts as : List Nat) (carry : Nat), (macRow b ts as carry).1.length = ts.length
  | [], _, _ => rfl
  | _ :: _, [], _ => rfl
  | t :: ts, a :: as, carry => by simp [macRow, macRow_length b ts as]

theorem macRow_lt (b : Nat) : ∀ (ts as : List Nat) (carry : Nat), (∀ t ∈ ts, t < limbBase) →
    ∀ d ∈ (macRow b ts as carry).1, d < limbBase
  | [], _, _, _, d, h => by simp [macRow] at h
  | _ :: _, [], _, ht, d, h => ht d (by simpa [macRow] using h)
  | t :: ts, a :: as, carry, ht, d, h => by
    simp only [macRow, List.mem_cons] at h
    rcases h with rfl | h
    · exact Nat.mod_lt _ (Nat.two_pow_pos 64)
    · exact macRow_lt b ts as _ (fun e he => ht e (List.mem_cons_of_mem _ he)) d h

/-- A row adds a·b and the carry to the accumulator: its limbs and the carry out are the exact sum. -/
theorem macRow_value (b : Nat) : ∀ (ts as : List Nat) (carry : Nat), ts.length = as.length →
    ofLimbs (macRow b ts as carry).1 + limbBase ^ ts.length * (macRow b ts as carry).2 =
      ofLimbs ts + ofLimbs as * b + carry
  | [], [], carry, _ => by simp [macRow, ofLimbs]
  | t :: ts, a :: as, carry, h => by
    have ih := macRow_value b ts as ((t + a * b + carry) / limbBase) (by simpa using h)
    have hv := Nat.mod_add_div (t + a * b + carry) limbBase
    simp only [macRow, ofLimbs, List.length_cons, pow_succ']
    calc _ = (t + a * b + carry) % limbBase + limbBase * (ofLimbs (macRow b ts as ((t + a * b + carry) / limbBase)).1 +
          limbBase ^ ts.length * (macRow b ts as ((t + a * b + carry) / limbBase)).2) := by ring
      _ = (t + a * b + carry) % limbBase + limbBase * ((t + a * b + carry) / limbBase) +
          limbBase * (ofLimbs ts + ofLimbs as * b) := by rw [ih]; ring
      _ = _ := by rw [hv]; ring

end Sys2Proof
end

