-- ==== Sys2Proof/Laws/Decode.lean ====
section
/-! SUPPORT. The fields of a packed word, and a word as the packing of its fields (R101, R114). -/

namespace Sys2Proof

theorem packWord_toNat {op : Nat} (h : op < 256) (d a b c : Fin 16) :
    (packWord op d a b c).toNat = c.val * 2 ^ 20 + b.val * 2 ^ 16 + a.val * 2 ^ 12 + d.val * 2 ^ 8 + op := by
  unfold packWord
  rw [BitVec.toNat_ofNat]
  exact Nat.mod_eq_of_lt (by omega)

theorem opField_packWord {op : Nat} (h : op < 256) (d a b c : Fin 16) : opField (packWord op d a b c) = op := by
  unfold opField; rw [packWord_toNat h]; omega

theorem rsvField_packWord {op : Nat} (h : op < 256) (d a b c : Fin 16) : rsvField (packWord op d a b c) = 0 := by
  unfold rsvField; rw [packWord_toNat h]; omega

theorem dField_packWord {op : Nat} (h : op < 256) (d a b c : Fin 16) : dField (packWord op d a b c) = d := by
  unfold dField; rw [packWord_toNat h]; ext; simp only [Fin.val_ofNat]; omega

theorem aField_packWord {op : Nat} (h : op < 256) (d a b c : Fin 16) : aField (packWord op d a b c) = a := by
  unfold aField; rw [packWord_toNat h]; ext; simp only [Fin.val_ofNat]; omega

theorem bField_packWord {op : Nat} (h : op < 256) (d a b c : Fin 16) : bField (packWord op d a b c) = b := by
  unfold bField; rw [packWord_toNat h]; ext; simp only [Fin.val_ofNat]; omega

theorem cField_packWord {op : Nat} (h : op < 256) (d a b c : Fin 16) : cField (packWord op d a b c) = c := by
  unfold cField; rw [packWord_toNat h]; ext; simp only [Fin.val_ofNat]; omega

/-- Decoding a packed word decodes its fields, with RSV 0. -/
theorem decode_packWord {op : Nat} (h : op < 256) (d a b c : Fin 16) :
    decode (packWord op d a b c) = decodeFields op 0 d a b c := by
  unfold decode
  rw [opField_packWord h, rsvField_packWord h, dField_packWord h, aField_packWord h, bField_packWord h,
    cField_packWord h]

/-- A word with RSV 0 is the packing of its fields. -/
theorem packWord_fields {w : CmdWord} (h : rsvField w = 0) :
    packWord (opField w) (dField w) (aField w) (bField w) (cField w) = w := by
  apply BitVec.eq_of_toNat_eq
  have hw := w.isLt
  have h8 : opField w < 256 := Nat.mod_lt _ (by decide)
  rw [packWord_toNat h8]
  unfold rsvField at h
  simp only [opField, dField, aField, bField, cField, Fin.val_ofNat]
  omega

/-! ### The checks of the decoder (R109 to R111) -/

theorem unusedThen_eq_instr {fs : List Nat} {next : Decoded} {i : Instr} :
    unusedThen fs next = .instr i ↔ fs.all (· == 0) = true ∧ next = .instr i := by
  unfold unusedThen
  by_cases h : fs.all (· == 0) = true <;> simp [h]

theorem selectThen_eq_instr {α : Type} {sel : Option α} {f : α → Instr} {i : Instr} :
    selectThen sel f = .instr i ↔ ∃ v, sel = some v ∧ f v = i := by
  cases sel <;> simp [selectThen]

theorem batchThen_eq_instr {a b : Fin 16} {i : Instr} :
    batchThen a b = .instr i ↔ batchInRange a b = true ∧ .pbnorm a b = i := by
  unfold batchThen; split <;> simp_all

/-! ### Selectors -/

@[simp] theorem FConst.ofField_toField (k : FConst) : FConst.ofField k.toField = some k := by cases k <;> rfl
@[simp] theorem KConst.ofField_toField (k : KConst) : KConst.ofField k.toField = some k := by cases k <;> rfl
@[simp] theorem PConst.ofField_toField (k : PConst) : PConst.ofField k.toField = some k := by cases k <;> rfl
@[simp] theorem Coord.ofField_toField (k : Coord) : Coord.ofField k.toField = some k := by cases k <;> rfl

/-- A field value names at most one selector: the encoding of what it names is the value. -/
theorem FConst.toField_of_ofField : ∀ (v : Fin 16) (k : FConst), FConst.ofField v = some k → k.toField = v := by decide
theorem KConst.toField_of_ofField : ∀ (v : Fin 16) (k : KConst), KConst.ofField v = some k → k.toField = v := by
  intro v k; revert v; cases k <;> decide
theorem PConst.toField_of_ofField : ∀ (v : Fin 16) (k : PConst), PConst.ofField v = some k → k.toField = v := by
  intro v k; revert v; cases k <;> decide
theorem Coord.toField_of_ofField : ∀ (v : Fin 16) (k : Coord), Coord.ofField v = some k → k.toField = v := by
  intro v k; revert v; cases k <;> decide

end Sys2Proof
end

