-- ==== Sys2Proof/Laws/Exec.lean ====
section
/-! SUPPORT. What a command can do: the draws change nothing but the inputs, and every meaning is one completion of the
state, or one rejected round of FRAND. -/

namespace Sys2Proof.Machine

/-! ### Draws (R60) -/

/-- `t` is `s` but for the words of RAND still to come and the count of free values used. -/
def SameButDraws (s t : State) : Prop := t = { s with rand := t.rand, draws := t.draws }

theorem SameButDraws.refl (s : State) : SameButDraws s s := rfl

theorem SameButDraws.trans {s t u : State} (h1 : SameButDraws s t) (h2 : SameButDraws t u) : SameButDraws s u := by
  unfold SameButDraws at *
  rw [h2, h1]

theorem tick_same (s : State) : SameButDraws s s.tick := rfl

theorem drawWord_same (s : State) : SameButDraws s s.drawWord.2 := by
  unfold State.drawWord
  split <;> rfl

theorem drawLimbs_same (k : Nat) : ∀ s : State, SameButDraws s (s.drawLimbs k).2 := by
  induction k with
  | zero => intro s; rfl
  | succ k ih => intro s; exact (drawWord_same s).trans (ih s.drawWord.2)

theorem afterRound_same (s : State) : SameButDraws s (afterRound s) := drawLimbs_same _ s

section
variable {s t : State} (h : SameButDraws s t)
include h
theorem SameButDraws.cfg : t.cfg = s.cfg := by rw [h]
theorem SameButDraws.regs : t.regs = s.regs := by rw [h]
theorem SameButDraws.snapshot : t.snapshot = s.snapshot := by rw [h]
theorem SameButDraws.ctrl : t.ctrl = s.ctrl := by rw [h]
theorem SameButDraws.status : t.status = s.status := by rw [h]
theorem SameButDraws.cmd : t.cmd = s.cmd := by rw [h]
theorem SameButDraws.err : t.err = s.err := by rw [h]
theorem SameButDraws.flags : t.flags = s.flags := by rw [h]
theorem SameButDraws.cur : t.cur = s.cur := by rw [h]
theorem SameButDraws.inbox : t.inbox = s.inbox := by rw [h]
theorem SameButDraws.readData : t.readData = s.readData := by rw [h]
theorem SameButDraws.curWord : t.curWord = s.curWord := by unfold State.curWord; rw [h.cur]
end

/-- Words that RAND lists are drawn in order, without a free value. -/
@[simp] theorem drawWord_cons {s : State} {w : BusWord} {ws : List BusWord} (h : s.rand = w :: ws) :
    s.drawWord = (w, { s with rand := ws }) := by
  unfold State.drawWord; rw [h]

/-! ### Choices (R197, R210) -/

theorem chooseRoot_loop {s : State} (h : s.cfg.sqrtRoot = .loop) (x : Nat) : s.chooseRoot x = x := by
  simp [State.chooseRoot, h]

/-- Whatever is chosen is the root computed or its negation. -/
theorem chooseRoot_cases (s : State) (x : Nat) : s.chooseRoot x = x ∨ s.chooseRoot x = fieldNeg s.cfg x := by
  unfold State.chooseRoot
  split
  · exact .inl rfl
  · split
    · exact .inr rfl
    · exact .inl rfl

theorem choosePoint_efd {s : State} (h : s.cfg.pointFormulas = .efd) (q : Point) : s.choosePoint q = q := by
  simp [State.choosePoint, h]

/-- Whatever is chosen is the triple computed or, for a Finite one, a rescaling of it by a representative other than 0. -/
theorem choosePoint_cases (s : State) (q : Point) :
    s.choosePoint q = q ∨
      (q.z ≠ 0 ∧ s.choosePoint q = rescale s.cfg (drawnScale s.cfg s.draws) q) := by
  unfold State.choosePoint
  split
  · exact .inl rfl
  · split
    · exact .inl rfl
    · rename_i hz; exact .inr ⟨hz, rfl⟩

theorem choosePoint_rep {s : State} (h : s.cfg.FieldFacts) {q : Point} (hq : isRepPoint s.cfg q) :
    isRepPoint s.cfg (s.choosePoint q) := by
  rcases choosePoint_cases s q with e | ⟨-, e⟩
  · rw [e]; exact hq
  · rw [e]; exact rescale_rep h (drawnScale_bounds h _).2 hq

theorem chooseRoot_rep {s : State} (h : s.cfg.FieldFacts) {x : Nat} (hx : x < s.cfg.p) :
    s.chooseRoot x < s.cfg.p := by
  rcases chooseRoot_cases s x with e | e
  · rw [e]; exact hx
  · rw [e]; exact fieldNeg_rep h.pPos

/-! ### Every meaning -/

/-- A meaning completes the command, from the state or from one whose draws alone have moved, or it is FRAND's and
rejects a round, which leaves the command pending (R175, R306). -/
theorem exec_cases (i : Instr) (s : State) :
    (∃ s' o, SameButDraws s s' ∧ exec i s = .next (s'.complete o)) ∨
      (∃ d, i = .frand d ∧ s.cfg.p ≤ randCandidate s ∧ exec i s = .next (afterRound s)) := by
  cases i with
  | tomont d a =>
    left
    by_cases h : s.cfg.p ≤ s.srcK a
    · exact ⟨s, _, .refl s, by simp only [exec, execTomont, if_pos h]; rfl⟩
    · exact ⟨s, _, .refl s, by simp only [exec, execTomont, if_neg h]; rfl⟩
  | frand d =>
    by_cases h : randCandidate s < s.cfg.p
    · exact .inl ⟨_, _, afterRound_same s, by simp only [exec, execFrand, if_pos h]; rfl⟩
    · exact .inr ⟨d, rfl, Nat.le_of_not_lt h, by simp only [exec, execFrand, if_neg h]⟩
  | finv d a =>
    left
    cases h : fieldInv? s.cfg (s.srcF a) with
    | none => exact ⟨s, _, .refl s, by simp only [exec, execFinv, h]; rfl⟩
    | some x => exact ⟨s, _, .refl s, by simp only [exec, execFinv, h]; rfl⟩
  | fsqrt d a =>
    left
    cases h : fieldSqrt? s.cfg (s.srcF a) with
    | none => exact ⟨s, _, .refl s, by simp only [exec, execFsqrt, h]; rfl⟩
    | some x => exact ⟨_, _, tick_same s, by simp only [exec, execFsqrt, h]; rfl⟩
  | pmadd d a b =>
    left
    cases h : pointMAdd? s.cfg (s.srcP a) (s.srcP b) with
    | none => exact ⟨s, _, .refl s, by simp only [exec, execPmadd, h]; rfl⟩
    | some x => exact ⟨_, _, tick_same s, by simp only [exec, execPmadd, h]; rfl⟩
  | pbnorm a b =>
    left
    by_cases hr : batchInRange a b = true
    · cases h : batchNormalize s.cfg ((batchRegs a b).map s.srcP) with
      | failed e =>
        cases e with
        | infinity => exact ⟨s, _, .refl s, by simp only [exec, execPbnorm, if_pos hr, h]; rfl⟩
        | zeroProduct => exact ⟨s, _, .refl s, by simp only [exec, execPbnorm, if_pos hr, h]; rfl⟩
      | points qs => exact ⟨s, _, .refl s, by simp only [exec, execPbnorm, if_pos hr, h]; rfl⟩
    · exact ⟨s, _, .refl s, by simp only [exec, execPbnorm, if_neg hr]; rfl⟩
  | pdcmp d a b =>
    left
    cases h : decompress s.cfg (s.srcF a) (s.srcK b) with
    | point q => exact ⟨s, _, .refl s, by simp only [exec, execPdcmp, h]; rfl⟩
    | malformed e =>
      cases e with
      | badFlags => exact ⟨s, _, .refl s, by simp only [exec, execPdcmp, h]; rfl⟩
      | notResidue => exact ⟨s, _, .refl s, by simp only [exec, execPdcmp, h]; rfl⟩
  | padd d a b => exact .inl ⟨_, _, tick_same s, rfl⟩
  | pdbl d a => exact .inl ⟨_, _, tick_same s, rfl⟩
  | psmul d a b => exact .inl ⟨_, _, tick_same s, rfl⟩
  | pcof d a => exact .inl ⟨_, _, tick_same s, rfl⟩
  | nop | fmov | fldc | fromm | fadd | fsub | fneg | fmul | fsqr | fpow | fqrt | feq | fisz | pmov | pldc | pset | pget
  | pneg | peq | pisz | pwf | pssg | pnorm | pcomp | kldc | kmov => exact .inl ⟨s, _, .refl s, rfl⟩

/-- What completion does to every field, whichever way execution ended (R306). -/
theorem complete_frame (s : State) (o : CmdOutcome) :
    (s.complete o).cfg = s.cfg ∧ (s.complete o).snapshot = s.snapshot ∧ (s.complete o).ctrl = s.ctrl ∧
      (s.complete o).cmd = s.cmd ∧ (s.complete o).cur = none ∧ (s.complete o).inbox = s.inbox ∧
      (s.complete o).rand = s.rand ∧ (s.complete o).draws = s.draws ∧ (s.complete o).readData = s.readData ∧
      (s.complete o).err.cmdw = s.curWord ∧ (s.complete o).status.busy = false ∧ (s.complete o).status.done = true ∧
      (s.complete o).status.hzd = s.status.hzd ∧ (s.complete o).status.accErr = s.status.accErr ∧
      (s.complete o).status.ready = s.status.ready := by
  cases o <;> simp

/-- An illegal word completes with the failure of its decode error (R303). -/
theorem runCommand_illegal {w : CmdWord} {e : DecodeError} (h : decode w = .illegal e) (s : State) :
    runCommand w s = .next (s.complete (.fail (decodeFailure e))) := by
  simp [runCommand, h]

theorem runCommand_instr {w : CmdWord} {i : Instr} (h : decode w = .instr i) (s : State) :
    runCommand w s = exec i s := by
  simp [runCommand, h]

end Sys2Proof.Machine
end

