-- ==== Sys2Proof/Laws/PerInstr.lean ====
section
/-! SUPPORT. Statements made of every instruction, one lemma per constructor. -/

namespace Sys2Proof.Laws.EncodedFields

/-- The encoding of an instruction has RSV 0 (R110) and its row's opcode (R107). -/
def Statement (i : Instr) : Prop := rsvField (encode i) = 0 ∧ opField (encode i) = i.opcode

theorem nop : Statement .nop := ⟨rsvField_packWord (by decide) .., opField_packWord (by decide) ..⟩
theorem fmov (d a : FReg) : Statement (.fmov d a) := ⟨rsvField_packWord (by decide) .., opField_packWord (by decide) ..⟩
theorem fldc (d : FReg) (sel : FConst) : Statement (.fldc d sel) := ⟨rsvField_packWord (by decide) .., opField_packWord (by decide) ..⟩
theorem tomont (d : FReg) (a : KReg) : Statement (.tomont d a) := ⟨rsvField_packWord (by decide) .., opField_packWord (by decide) ..⟩
theorem fromm (d : KReg) (a : FReg) : Statement (.fromm d a) := ⟨rsvField_packWord (by decide) .., opField_packWord (by decide) ..⟩
theorem frand (d : FReg) : Statement (.frand d) := ⟨rsvField_packWord (by decide) .., opField_packWord (by decide) ..⟩
theorem fadd (d a b : FReg) : Statement (.fadd d a b) := ⟨rsvField_packWord (by decide) .., opField_packWord (by decide) ..⟩
theorem fsub (d a b : FReg) : Statement (.fsub d a b) := ⟨rsvField_packWord (by decide) .., opField_packWord (by decide) ..⟩
theorem fneg (d a : FReg) : Statement (.fneg d a) := ⟨rsvField_packWord (by decide) .., opField_packWord (by decide) ..⟩
theorem fmul (d a b : FReg) : Statement (.fmul d a b) := ⟨rsvField_packWord (by decide) .., opField_packWord (by decide) ..⟩
theorem fsqr (d a : FReg) : Statement (.fsqr d a) := ⟨rsvField_packWord (by decide) .., opField_packWord (by decide) ..⟩
theorem finv (d a : FReg) : Statement (.finv d a) := ⟨rsvField_packWord (by decide) .., opField_packWord (by decide) ..⟩
theorem fpow (d a : FReg) (b : KReg) : Statement (.fpow d a b) := ⟨rsvField_packWord (by decide) .., opField_packWord (by decide) ..⟩
theorem fsqrt (d a : FReg) : Statement (.fsqrt d a) := ⟨rsvField_packWord (by decide) .., opField_packWord (by decide) ..⟩
theorem fqrt (a : FReg) : Statement (.fqrt a) := ⟨rsvField_packWord (by decide) .., opField_packWord (by decide) ..⟩
theorem feq (a b : FReg) : Statement (.feq a b) := ⟨rsvField_packWord (by decide) .., opField_packWord (by decide) ..⟩
theorem fisz (a : FReg) : Statement (.fisz a) := ⟨rsvField_packWord (by decide) .., opField_packWord (by decide) ..⟩
theorem pmov (d a : PReg) : Statement (.pmov d a) := ⟨rsvField_packWord (by decide) .., opField_packWord (by decide) ..⟩
theorem pldc (d : PReg) (sel : PConst) : Statement (.pldc d sel) := ⟨rsvField_packWord (by decide) .., opField_packWord (by decide) ..⟩
theorem pset (d : PReg) (a b c : FReg) : Statement (.pset d a b c) := ⟨rsvField_packWord (by decide) .., opField_packWord (by decide) ..⟩
theorem pget (d : FReg) (a : PReg) (crd : Coord) : Statement (.pget d a crd) := ⟨rsvField_packWord (by decide) .., opField_packWord (by decide) ..⟩
theorem padd (d a b : PReg) : Statement (.padd d a b) := ⟨rsvField_packWord (by decide) .., opField_packWord (by decide) ..⟩
theorem pmadd (d a b : PReg) : Statement (.pmadd d a b) := ⟨rsvField_packWord (by decide) .., opField_packWord (by decide) ..⟩
theorem pdbl (d a : PReg) : Statement (.pdbl d a) := ⟨rsvField_packWord (by decide) .., opField_packWord (by decide) ..⟩
theorem pneg (d a : PReg) : Statement (.pneg d a) := ⟨rsvField_packWord (by decide) .., opField_packWord (by decide) ..⟩
theorem psmul (d a : PReg) (b : KReg) : Statement (.psmul d a b) := ⟨rsvField_packWord (by decide) .., opField_packWord (by decide) ..⟩
theorem pcof (d a : PReg) : Statement (.pcof d a) := ⟨rsvField_packWord (by decide) .., opField_packWord (by decide) ..⟩
theorem peq (a b : PReg) : Statement (.peq a b) := ⟨rsvField_packWord (by decide) .., opField_packWord (by decide) ..⟩
theorem pisz (a : PReg) : Statement (.pisz a) := ⟨rsvField_packWord (by decide) .., opField_packWord (by decide) ..⟩
theorem pwf (a : PReg) : Statement (.pwf a) := ⟨rsvField_packWord (by decide) .., opField_packWord (by decide) ..⟩
theorem pssg (a : PReg) : Statement (.pssg a) := ⟨rsvField_packWord (by decide) .., opField_packWord (by decide) ..⟩
theorem pnorm (d a : PReg) : Statement (.pnorm d a) := ⟨rsvField_packWord (by decide) .., opField_packWord (by decide) ..⟩
theorem pbnorm (a : PReg) (b : Fin 16) : Statement (.pbnorm a b) := ⟨rsvField_packWord (by decide) .., opField_packWord (by decide) ..⟩
theorem pcomp (d : FReg) (a : PReg) (b : KReg) : Statement (.pcomp d a b) := ⟨rsvField_packWord (by decide) .., opField_packWord (by decide) ..⟩
theorem pdcmp (d : PReg) (a : FReg) (b : KReg) : Statement (.pdcmp d a b) := ⟨rsvField_packWord (by decide) .., opField_packWord (by decide) ..⟩
theorem kldc (d : KReg) (sel : KConst) : Statement (.kldc d sel) := ⟨rsvField_packWord (by decide) .., opField_packWord (by decide) ..⟩
theorem kmov (d a : KReg) : Statement (.kmov d a) := ⟨rsvField_packWord (by decide) .., opField_packWord (by decide) ..⟩

end Sys2Proof.Laws.EncodedFields
end

