-- ==== Sys2Proof/Laws/Step.lean ====
section
/-! SUPPORT. What one step can do: the inversion of `step`, of a transition and of the engine's turn (R309). -/

namespace Sys2Proof.Machine

/-- A step answers a next state exactly when the configuration obeys R8 and the transition answers it. -/
theorem step_eq_next {s t : State} : step s = .next t ↔ s.cfg.Valid ∧ transition s = .next t := by
  rw [← Config.obeysR8_iff]
  unfold step
  split <;> simp_all

/-- In a configuration of R8 a step is its transition. -/
theorem step_valid {s : State} (h : s.cfg.Valid) : step s = transition s := if_pos (Config.obeysR8_iff.mpr h)

/-- A configuration that breaks R8 is refused (R10). -/
theorem step_invalid {s : State} (h : ¬s.cfg.Valid) : step s = .refused .badConfig :=
  if_neg fun e => h (Config.obeysR8_iff.mp e)

/-- With no input, or the host silent, the engine has the turn. -/
theorem transition_engine {s : State} (h : s.inbox = [] ∨ ∃ rest, s.inbox = .engine :: rest) :
    transition s = engineTurn { s with inbox := s.inbox.tail } := by
  rcases h with h | ⟨rest, h⟩
  · unfold transition
    have : { s with inbox := s.inbox.tail } = s := by cases s; simp_all
    rw [this, h]
  · unfold transition
    rw [h]
    rfl

/-- What an input does. -/
theorem transition_input {s : State} {e : BusEvent} {rest : List BusEvent} (h : s.inbox = e :: rest) :
    transition s = takeInput e { s with inbox := rest } := by
  unfold transition; rw [h]

/-- The engine's turn on a ready block with a pending word runs it. -/
theorem engineTurn_pending {s : State} {w : CmdWord} (hr : s.status.ready = true) (hc : s.cur = some w) :
    engineTurn s = runCommand w s := by
  simp [engineTurn, State.inInit, hr, hc]

theorem engineTurn_idle {s : State} (hr : s.status.ready = true) (hc : s.cur = none) : engineTurn s = .next s := by
  simp [engineTurn, State.inInit, hr, hc]

theorem engineTurn_init {s : State} (hr : s.status.ready = false) : engineTurn s = .next s.initDone := by
  simp [engineTurn, State.inInit, hr]

/-- Everything the engine's turn can do. -/
theorem engineTurn_cases (s : State) :
    (s.status.ready = false ∧ engineTurn s = .next s.initDone) ∨
      (s.status.ready = true ∧ s.cur = none ∧ engineTurn s = .next s) ∨
      (∃ w e, s.status.ready = true ∧ s.cur = some w ∧ decode w = .illegal e ∧
        engineTurn s = .next (s.complete (.fail (decodeFailure e)))) ∨
      (∃ w i, s.status.ready = true ∧ s.cur = some w ∧ decode w = .instr i ∧ engineTurn s = exec i s) := by
  cases hr : s.status.ready with
  | false => exact .inl ⟨rfl, engineTurn_init hr⟩
  | true =>
    cases hc : s.cur with
    | none => exact .inr (.inl ⟨rfl, rfl, engineTurn_idle hr hc⟩)
    | some w =>
      cases hd : decode w with
      | illegal e =>
        exact .inr (.inr (.inl ⟨w, e, rfl, rfl, hd, by rw [engineTurn_pending hr hc, runCommand_illegal hd]⟩))
      | instr i =>
        exact .inr (.inr (.inr ⟨w, i, rfl, rfl, hd, by rw [engineTurn_pending hr hc, runCommand_instr hd]⟩))

end Sys2Proof.Machine
end

