-- ==== Sys2Proof/Machine/Wire.lean ====
section
/-! DEFINITION. The host's mapping between register contents and the tokens of the wire forms, both ways, with the commands
each way issues (R281 to R284). The host does this, outside the block: no step uses it. The text around the tokens, which is the separator SEP and the number
grammar, is left open by the spec (R283) and out of its scope (R6). -/

namespace Sys2Proof.Machine

/-- The tokens of the compressed wire form: zero-flag, x as a standard residue, parity bit (R281). -/
structure CompressedWire where
  zeroFlag : Bool
  x : Nat
  parityBit : Bool
deriving DecidableEq, Repr

/-- From PCOMP's results, F[D] = `x` and K[B] = `w` (R281); the residue of x is FROMM's. -/
def CompressedWire.ofRegisters (c : Config) (x w : Nat) : CompressedWire := ⟨w.testBit 1, std c x, w.testBit 0⟩

/-- What the host loads before PDCMP, x for TOMONT and the flag word for K; it refuses x ≥ p itself (R281). -/
def CompressedWire.toScalars (c : Config) (t : CompressedWire) : Option (Nat × Nat) :=
  if c.p ≤ t.x then none else some (t.x, (if t.zeroFlag then 2 else 0) + (if t.parityBit then 1 else 0))

/-- The commands that write a compressed point: P[a] to x in `kx`, by way of F[f], and the flag word in `kw` (R281). -/
def CompressedWire.writeCommands (a : PReg) (f : FReg) (kx kw : KReg) : List Instr := [.pcomp f a kw, .fromm kx f]

/-- The commands that read one, its scalars loaded in `kx` and `kw`: TOMONT of x, then PDCMP into P[d] (R281). -/
def CompressedWire.readCommands (d : PReg) (f : FReg) (kx kw : KReg) : List Instr := [.tomont f kx, .pdcmp d f kw]

/-- The tokens of the uncompressed wire form: the standard residues of the raw coordinates (R282). -/
structure UncompressedWire where
  x : Nat
  y : Nat
  z : Nat
deriving DecidableEq, Repr

/-- Writing: the residue, FROMM's, of each coordinate that PGET gives, with no normalization (R282). -/
def UncompressedWire.ofPoint (c : Config) (q : Point) : UncompressedWire := ⟨std c q.x, std c q.y, std c q.z⟩

/-- Reading: TOMONT of each token, then PSET of the three representatives (R282); none where a token is at or above p, so
that its TOMONT fails NOT_CANONICAL (R133). -/
def UncompressedWire.toPoint? (c : Config) (t : UncompressedWire) : Option Point :=
  if t.x < c.p ∧ t.y < c.p ∧ t.z < c.p then some ⟨c.mont t.x, c.mont t.y, c.mont t.z⟩ else none

/-- The commands that write an uncompressed point: PGET and FROMM of each coordinate of P[a] (R282). -/
def UncompressedWire.writeCommands (a : PReg) (fx fy fz : FReg) (kx ky kz : KReg) : List Instr :=
  [.pget fx a .x, .fromm kx fx, .pget fy a .y, .fromm ky fy, .pget fz a .z, .fromm kz fz]

/-- The commands that read one, its tokens loaded in three scalars: TOMONT of each, then PSET into P[d] (R282). -/
def UncompressedWire.readCommands (d : PReg) (fx fy fz : FReg) (kx ky kz : KReg) : List Instr :=
  [.tomont fx kx, .tomont fy ky, .tomont fz kz, .pset d fx fy fz]

/-- The tests a host owes a point read from outside, which it trusts only when both set T (R284). -/
def validationCommands (d : PReg) : List Instr := [.pwf d, .pssg d]

end Sys2Proof.Machine
end

