-- ==== Sys2Proof/Laws/Wire.lean ====
section
/-! SUPPORT. Reading the uncompressed wire form undoes writing it, and writing undoes reading (R282). -/

namespace Sys2Proof.Machine

variable {c : Config}

/-- TOMONT undoes FROMM (R134). -/
theorem mont_std (h : c.FieldFacts) {a : Nat} (ha : a < c.p) : c.mont (std c a) = a := by
  rw [← toZ_inj h (mont_rep h _) ha, toZ_mont h, std_cast h]

/-- FROMM undoes TOMONT (R134). -/
theorem std_mont (h : c.FieldFacts) {v : Nat} (hv : v < c.p) : std c (c.mont v) = v := by
  have e : (std c (c.mont v) : ZMod c.p) = v := by rw [std_cast h, toZ_mont h]
  exact Nat.ModEq.eq_of_lt_of_lt ((ZMod.natCast_eq_natCast_iff _ _ _).mp e) (std_rep (mont_rep h v)) hv

theorem UncompressedWire.toPoint?_ofPoint (h : c.FieldFacts) {q : Point} (hq : isRepPoint c q) :
    UncompressedWire.toPoint? c (.ofPoint c q) = some q := by
  simp [UncompressedWire.toPoint?, UncompressedWire.ofPoint, std_rep hq.1, std_rep hq.2.1, std_rep hq.2.2, mont_std h hq.1,
    mont_std h hq.2.1, mont_std h hq.2.2]

theorem UncompressedWire.ofPoint_toPoint? (h : c.FieldFacts) {t : UncompressedWire} {q : Point}
    (ht : t.toPoint? c = some q) : UncompressedWire.ofPoint c q = t := by
  unfold UncompressedWire.toPoint? at ht
  split at ht
  · rename_i hlt
    obtain rfl := Option.some.inj ht
    simp [UncompressedWire.ofPoint, std_mont h hlt.1, std_mont h hlt.2.1, std_mont h hlt.2.2]
  · cases ht

end Sys2Proof.Machine
end

