-- ==== Sys2Proof/Machine/Assembler.lean ====
section
/-! DEFINITION. The assembler's text of a command (R114) and the pseudo-instructions (R115). Both are the assembler's,
outside the block: no step uses them. -/

namespace Sys2Proof

/-- `fN`. -/
def fName (i : FReg) : String := "f" ++ toString i.val
/-- `pN`. -/
def pName (i : PReg) : String := "p" ++ toString i.val
/-- `kN`. -/
def kName (i : KReg) : String := "k" ++ toString i.val

/-- The name of an FCONST selector (R56). -/
def FConst.text : FConst → String
  | .zero => "#ZERO" | .one => "#ONE" | .coeffB => "#COEFF_B" | .nqr => "#NQR" | .nqrToT => "#NQR_TO_T" | .root => "#ROOT"

/-- The name of a KCONST selector (R57). -/
def KConst.text : KConst → String
  | .modulus => "#MODULUS" | .order => "#ORDER" | .cofactor => "#COFACTOR" | .s => "#S" | .t => "#T" | .tm1h => "#TM1H"
  | .pm1h => "#PM1H" | .inv => "#INV" | .r2 => "#R2" | .r3 => "#R3" | .rm => "#RM"

/-- The name of a PCONST selector (R58). -/
def PConst.text : PConst → String
  | .o => "#O" | .g => "#G"

/-- The name of a coordinate (R102). -/
def Coord.text : Coord → String
  | .x => "X" | .y => "Y" | .z => "Z"

/-- A mnemonic and its operands. -/
def asmLine (mnemonic : String) (operands : List String) : String :=
  if operands.isEmpty then mnemonic else mnemonic ++ " " ++ String.intercalate ", " operands

/-- The text of a command: the mnemonic in upper case, one operand for each field whose class is not `-`, in the order
D, A, B, C (R114). -/
def Instr.text : Instr → String
  | .nop => asmLine "NOP" []
  | .fmov d a => asmLine "FMOV" [fName d, fName a]
  | .fldc d k => asmLine "FLDC" [fName d, k.text]
  | .tomont d a => asmLine "TOMONT" [fName d, kName a]
  | .fromm d a => asmLine "FROMM" [kName d, fName a]
  | .frand d => asmLine "FRAND" [fName d]
  | .fadd d a b => asmLine "FADD" [fName d, fName a, fName b]
  | .fsub d a b => asmLine "FSUB" [fName d, fName a, fName b]
  | .fneg d a => asmLine "FNEG" [fName d, fName a]
  | .fmul d a b => asmLine "FMUL" [fName d, fName a, fName b]
  | .fsqr d a => asmLine "FSQR" [fName d, fName a]
  | .finv d a => asmLine "FINV" [fName d, fName a]
  | .fpow d a b => asmLine "FPOW" [fName d, fName a, kName b]
  | .fsqrt d a => asmLine "FSQRT" [fName d, fName a]
  | .fqrt a => asmLine "FQRT" [fName a]
  | .feq a b => asmLine "FEQ" [fName a, fName b]
  | .fisz a => asmLine "FISZ" [fName a]
  | .pmov d a => asmLine "PMOV" [pName d, pName a]
  | .pldc d k => asmLine "PLDC" [pName d, k.text]
  | .pset d a b c => asmLine "PSET" [pName d, fName a, fName b, fName c]
  | .pget d a k => asmLine "PGET" [fName d, pName a, k.text]
  | .padd d a b => asmLine "PADD" [pName d, pName a, pName b]
  | .pmadd d a b => asmLine "PMADD" [pName d, pName a, pName b]
  | .pdbl d a => asmLine "PDBL" [pName d, pName a]
  | .pneg d a => asmLine "PNEG" [pName d, pName a]
  | .psmul d a b => asmLine "PSMUL" [pName d, pName a, kName b]
  | .pcof d a => asmLine "PCOF" [pName d, pName a]
  | .peq a b => asmLine "PEQ" [pName a, pName b]
  | .pisz a => asmLine "PISZ" [pName a]
  | .pwf a => asmLine "PWF" [pName a]
  | .pssg a => asmLine "PSSG" [pName a]
  | .pnorm d a => asmLine "PNORM" [pName d, pName a]
  | .pbnorm a b => asmLine "PBNORM" [pName a, toString (b.val + 1)]
  | .pcomp d a b => asmLine "PCOMP" [fName d, pName a, kName b]
  | .pdcmp d a b => asmLine "PDCMP" [pName d, fName a, kName b]
  | .kldc d k => asmLine "KLDC" [kName d, k.text]
  | .kmov d a => asmLine "KMOV" [kName d, kName a]

/-- The pseudo-instructions (R115). -/
inductive Pseudo where
  | fclr (d : FReg)
  | fone (d : FReg)
  | fdbl (d a : FReg)
  | fdiv (d a b t : FReg)
  | pzero (d : PReg)
  | pgen (d : PReg)
  | psub (d a b t : PReg)
  | paffine (d a : PReg)
deriving DecidableEq, Repr

/-- The expansion of a pseudo-instruction, `none` where the assembler refuses it (R115). -/
def Pseudo.expand : Pseudo → Option (List Instr)
  | .fclr d => some [.fldc d .zero]
  | .fone d => some [.fldc d .one]
  | .fdbl d a => some [.fadd d a a]
  | .fdiv d a b t => if t = a then none else some [.finv t b, .fmul d a t]
  | .pzero d => some [.pldc d .o]
  | .pgen d => some [.pldc d .g]
  | .psub d a b t => if t = a then none else some [.pneg t b, .padd d a t]
  | .paffine d a => some [.pnorm d a]

end Sys2Proof
end

