-- ==== Sys2Proof/Tests/Slice0.lean ====
section
/-! SUPPORT. Tests: the well-formedness check, a decoded word of every command, small steps of every command, of the bus
and of reset, and for each statement of Certificates/Slice0/Obligations.lean a state that meets its hypotheses. Every
expected number is the spec's: spec/95_test_vectors.md (cited as V and its section) and the examples of the command rules.
-/

namespace Sys2Proof.Tests

set_option Elab.async false

open Sys2Proof Sys2Proof.Machine Sys2Proof.Spec

/-! ### States -/

/-- The block of the spec's examples after InitDone, idle. -/
def idle : State := (State.resetWith Config.toy97).initDone

/-- Its register files with some registers set. -/
def files (f : List (FReg × Nat)) (p : List (PReg × Point)) (k : List (KReg × Nat)) : Files :=
  let r := f.foldl (fun r x => r.writeF x.1 x.2) idle.regs
  let r := p.foldl (fun r x => r.writeP x.1 x.2) r
  k.foldl (fun r x => r.writeK x.1 x.2) r

/-- The block with a command in flight on register files. -/
def inFlight (w : CmdWord) (r : Files) : State := { idle with regs := r }.accept w

/-- The block after the engine's turn on a command. -/
def after (w : CmdWord) (r : Files) : State :=
  match engineTurn (inFlight w r) with
  | .next t => t
  | _ => idle

/-- The state after one step, or the same state where there is none. -/
def stepped (s : State) : State :=
  match step s with
  | .next t => t
  | _ => s

/-- In a configuration of R8 a step answers a next state where the inputs are empty and the engine's turn does. -/
theorem step_next {s t : State} (h : s.cfg.Valid) (hi : s.inbox = []) (ht : engineTurn s = .next t) :
    step s = .next t := by
  rw [step_eq_next]
  refine ⟨h, ?_⟩
  unfold transition
  rw [hi]
  exact ht

/-- FINV of zero fails INV_ZERO (R191). -/
theorem finv_zero (s : State) (d a : FReg) (h : s.srcF a = 0) :
    exec (.finv d a) s = .next (s.complete (.fail (Cause.failure .invZero))) := by
  simp [exec, execFinv, fieldInv?, h]

/-- ERR as read after a command. -/
def errOf (w : CmdWord) (r : Files) : BusWord := (after w r).err.word

def g1 : Point := ⟨25, 56, 61⟩
def g2 : Point := ⟨79, 22, 15⟩
def g3 : Point := ⟨86, 78, 52⟩
def o : Point := ⟨0, 61, 0⟩
def infinityI : Point := ⟨72, 37, 0⟩

/-! ### Well-formed commands (R105) -/

theorem test_wellFormed_refuses_batch : (Instr.pbnorm 15 1).wellFormed = false := by decide
theorem test_wellFormed_refuses_batch_low : (Instr.pbnorm 1 15).wellFormed = false := by decide
theorem test_wellFormed_takes_batch : (Instr.pbnorm 15 0).wellFormed = true ∧ (Instr.pbnorm 0 15).wellFormed = true := by
  decide

/-! ### Decode: a word of every command, from the rules' examples -/

theorem test_decode_transfer :
    decode 0x00000001#32 = .instr .nop ∧ decode 0x00001210#32 = .instr (.fmov 2 1) ∧
    decode 0x00002111#32 = .instr (.fldc 1 .coeffB) ∧ decode 0x00001112#32 = .instr (.tomont 1 1) ∧
    decode 0x00001213#32 = .instr (.fromm 2 1) ∧ decode 0x00007050#32 = .instr (.kldc 0 .inv) ∧
    decode 0x00000451#32 = .instr (.kmov 4 0) ∧ decode 0x00001330#32 = .instr (.pmov 3 1) ∧
    decode 0x00001131#32 = .instr (.pldc 1 .g) ∧ decode 0x00410232#32 = .instr (.pset 2 0 1 4) ∧
    decode 0x00012733#32 = .instr (.pget 7 2 .y) := by decide

theorem test_decode_field :
    decode 0x00000114#32 = .instr (.frand 1) ∧ decode 0x00021318#32 = .instr (.fadd 3 1 2) ∧
    decode 0x00021319#32 = .instr (.fsub 3 1 2) ∧ decode 0x0000121A#32 = .instr (.fneg 2 1) ∧
    decode 0x0002131B#32 = .instr (.fmul 3 1 2) ∧ decode 0x0000121C#32 = .instr (.fsqr 2 1) ∧
    decode 0x0000121D#32 = .instr (.finv 2 1) ∧ decode 0x0002131E#32 = .instr (.fpow 3 1 2) ∧
    decode 0x00001220#32 = .instr (.fsqrt 2 1) ∧ decode 0x00001021#32 = .instr (.fqrt 1) ∧
    decode 0x00021022#32 = .instr (.feq 1 2) ∧ decode 0x00004023#32 = .instr (.fisz 4) := by decide

theorem test_decode_point :
    decode 0x00012338#32 = .instr (.padd 3 2 1) ∧ decode 0x00012339#32 = .instr (.pmadd 3 2 1) ∧
    decode 0x0000123A#32 = .instr (.pdbl 2 1) ∧ decode 0x0000143B#32 = .instr (.pneg 4 1) ∧
    decode 0x0003013C#32 = .instr (.psmul 1 0 3) ∧ decode 0x0000233D#32 = .instr (.pcof 3 2) ∧
    decode 0x00062040#32 = .instr (.peq 2 6) ∧ decode 0x00005041#32 = .instr (.pisz 5) ∧
    decode 0x00001042#32 = .instr (.pwf 1) ∧ decode 0x00002043#32 = .instr (.pssg 2) ∧
    decode 0x00003648#32 = .instr (.pnorm 6 3) ∧ decode 0x00022049#32 = .instr (.pbnorm 2 2) ∧
    decode 0x0002314A#32 = .instr (.pcomp 1 3 2) ∧ decode 0x0002144B#32 = .instr (.pdcmp 4 1 2) := by decide

/-- V 3.1: reserved opcodes, then unused fields and RSV, then selectors and ranges. -/
theorem test_decode_illegal :
    decode 0x00000000#32 = .illegal .illOpcode ∧ decode 0x01000000#32 = .illegal .illOpcode ∧
    decode 0x01000001#32 = .illegal .illField ∧ decode 0x00000101#32 = .illegal .illField ∧
    decode 0x00100318#32 = .illegal .illField ∧ decode 0x8001F049#32 = .illegal .illField ∧
    decode 0x00006111#32 = .illegal .illIndex ∧ decode 0x0000B050#32 = .illegal .illIndex ∧
    decode 0x00002031#32 = .illegal .illIndex ∧ decode 0x00030233#32 = .illegal .illIndex ∧
    decode 0x0001F049#32 = .illegal .illIndex ∧ decode 0x0000F049#32 = .instr (.pbnorm 15 0) := by decide

theorem test_encode :
    encode (.pset 2 0 1 4) = 0x00410232#32 ∧ encode (.pget 7 2 .y) = 0x00012733#32 ∧
    encode (.pbnorm 2 3) = 0x00032049#32 ∧ encode (.kldc 0 .order) = 0x00001050#32 := by decide

theorem test_text : (Instr.pbnorm 2 3).text = "PBNORM p2, 4" ∧ (Instr.kldc 0 .order).text = "KLDC k0, #ORDER" ∧
    (Instr.pget 7 2 .y).text = "PGET f7, p2, Y" := by decide +kernel

theorem test_pseudo : (Pseudo.fdiv 2 0 1 3).expand = some [.finv 3 1, .fmul 2 0 3] ∧
    (Pseudo.psub 2 0 1 0).expand = none := by decide

/-! ### Configurations (V 1.1, R9) -/

theorem test_toy97_admissible : Config.toy97.admissible = true := by decide +kernel

theorem test_toy97_constants :
    Config.toy97.inv64 = 0x5C5F02A3A0FD5C5F ∧ Config.toy97.rm = 61 ∧ Config.toy97.r2 = 35 ∧ Config.toy97.r3 = 1 ∧
    Config.toy97.s = 5 ∧ Config.toy97.t = 3 ∧ Config.toy97.tm1h = 1 ∧ Config.toy97.pm1h = 48 ∧
    Config.toy97.nqrt = 28 ∧ Config.toy97.mont 28 = 59 := by decide +kernel

theorem test_toy97_fieldValid : Config.toy97.FieldValid := toy97_valid.fieldValid

/-- V 1.2: a realistic field, four limbs, with its window at 0x2000. -/
def bn254 : Config := { Config.bn254 with base := 0x2000 }

theorem test_bn254_constants : bn254.admissible = true ∧ bn254.inv64 = 0x87d20782e4866389 ∧
    bn254.rm = 0x0e0a77c19a07df2f666ea36f7879462c0a78eb28f5c70b3dd35d438dc58f0d9d ∧
    bn254.r2 = 0x06d89f71cab8351f47ab1eff0a417ff6b5e71911d44501fbf32cfc5b538afa89 ∧ bn254.s = 1 := by decide +kernel

/-- V 3.9, and the word-level multiplier on four limbs (R162). -/
theorem test_bn254_arithmetic :
    montMul bn254 (bn254.mont 2) (bn254.mont 3) = 0x23da8016bafd9af2ae478ee651564caaa75418645a3878e5b80f093bc8dd5467 ∧
    montMulCios bn254 (bn254.mont 2) (bn254.mont 3) = montMul bn254 (bn254.mont 2) (bn254.mont 3) ∧
    (pointDbl bn254 (pointG bn254)).z = 0x07c5909386eddc93e16a48076063c052926242126eaa626a115482203dbf392d := by
  decide +kernel

/-! ### Transfer and conversion (V 3.2) -/

theorem test_nop : errOf 0x00000001#32 idle.regs = 0x0000000100000000#64 ∧ (after 0x00000001#32 idle.regs).regs = idle.regs := by
  decide +kernel
theorem test_fmov : (after 0x00001210#32 (files [(1, 14)] [] [])).regs = files [(1, 14), (2, 14)] [] [] := by decide +kernel
theorem test_fldc : (after 0x00005111#32 idle.regs).regs = files [(1, 59)] [] [] ∧
    (after 0x00002111#32 idle.regs).regs = files [(1, 50)] [] [] := by decide +kernel
theorem test_tomont : (after 0x00001112#32 (files [] [] [(1, 96)])).regs.readF 1 = 36 := by decide +kernel
theorem test_tomont_not_canonical : errOf 0x00001112#32 (files [] [] [(1, 97)]) = 0x0000111200001101#64 ∧
    (after 0x00001112#32 (files [] [] [(1, 97)])).regs.readF 1 = 0 := by decide +kernel
theorem test_fromm : (after 0x00001213#32 (files [(1, 36)] [] [])).regs.readK 2 = 96 := by decide +kernel
theorem test_kldc : (after 0x00007050#32 idle.regs).regs.readK 0 = 0x5C5F02A3A0FD5C5F ∧
    (after 0x0000A050#32 idle.regs).regs.readK 0 = 61 := by decide +kernel
theorem test_kmov : (after 0x00000451#32 (files [] [] [(0, 31)])).regs.readK 4 = 31 := by decide +kernel
theorem test_pmov : (after 0x00001330#32 (files [] [(1, g1)] [])).regs.readP 3 = g1 := by decide +kernel
theorem test_pldc : (after 0x00001131#32 idle.regs).regs.readP 1 = g1 ∧ (after 0x00000131#32 idle.regs).regs.readP 1 = o := by
  decide +kernel
theorem test_pset : (after 0x00410232#32 (files [(0, 25), (1, 56), (4, 61)] [] [])).regs.readP 2 = g1 := by decide +kernel
theorem test_pget : (after 0x00012033#32 (files [] [(2, g2)] [])).regs.readF 0 = 22 ∧
    (after 0x00022033#32 (files [] [(2, g2)] [])).regs.readF 0 = 15 := by decide +kernel

/-! ### Field arithmetic (V 3.3) -/

theorem test_fadd : (after 0x00021318#32 (files [(1, 36), (2, 61)] [] [])).regs.readF 3 = 0 ∧
    (after 0x00021318#32 (files [(1, 43), (2, 71)] [] [])).regs.readF 3 = 17 := by decide +kernel
theorem test_fsub : (after 0x00021319#32 (files [(2, 61)] [] [])).regs.readF 3 = 36 ∧
    (after 0x00021319#32 (files [(1, 86), (2, 14)] [] [])).regs.readF 3 = 72 := by decide +kernel
theorem test_fneg : (after 0x0000121A#32 (files [(1, 61)] [] [])).regs.readF 2 = 36 ∧
    (after 0x0000121A#32 (files [(2, 9)] [] [])).regs.readF 2 = 0 := by decide +kernel
theorem test_fmul : (after 0x0002131B#32 (files [(1, 14), (2, 39)] [] [])).regs.readF 3 = 1 := by decide +kernel
theorem test_fsqr : (after 0x0000111C#32 (files [(1, 36)] [] [])).regs.readF 1 = 61 := by decide +kernel
theorem test_fpow : (after 0x0002131E#32 (files [(1, 86)] [] [(2, 5)])).regs.readF 3 = 79 ∧
    std Config.toy97 ((after 0x0002131E#32 (files [(1, 86)] [] [(2, 2 ^ 64 - 1)])).regs.readF 3) = 85 := by decide +kernel
theorem test_fpow_zero : (after 0x0002131E#32 idle.regs).regs.readF 3 = 61 := by decide +kernel
theorem test_feq : (after 0x00021022#32 (files [(1, 14), (2, 39)] [] [])).flags = ⟨false, false⟩ ∧
    (after 0x00021022#32 idle.regs).flags = ⟨true, true⟩ := by decide +kernel
theorem test_fisz : (after 0x00004023#32 idle.regs).flags = ⟨true, true⟩ ∧
    (after 0x00001023#32 (files [(1, 14)] [] [])).flags = ⟨false, false⟩ := by decide +kernel
/-- V 3.3: 0x61 is rejected and the command stays in flight; 0x60 is then accepted. -/
theorem test_frand_rejects : afterTurns (.frand 2) 1
    { inFlight 0x00000214#32 idle.regs with rand := [0x61#64, 0x60#64] } =
    some { inFlight 0x00000214#32 idle.regs with rand := [0x60#64] } := by decide +kernel
theorem test_frand_accepts : (afterTurns (.frand 2) 2
    { inFlight 0x00000214#32 idle.regs with rand := [0x61#64, 0x60#64] }).map (fun t => (t.regs.readF 2, t.cur)) =
    some (36, none) := by decide +kernel

/-! ### Inverse, residue test and square root (V 3.4) -/

theorem test_finv : (after 0x0000121D#32 (files [(1, 25)] [] [])).regs.readF 2 = 79 := by decide +kernel
theorem test_finv_zero : errOf 0x0000121D#32 idle.regs = 0x0000121D00001001#64 ∧
    (after 0x0000121D#32 idle.regs).status.word = 0x26#64 := by decide +kernel
theorem test_fqrt : (after 0x00001021#32 (files [(1, 25)] [] [])).flags = ⟨true, false⟩ ∧
    (after 0x00001021#32 (files [(1, 14)] [] [])).flags = ⟨false, false⟩ ∧
    (after 0x00001021#32 idle.regs).flags = ⟨true, true⟩ := by decide +kernel
theorem test_fsqrt : (after 0x00001220#32 (files [(1, 25)] [] [])).regs.readF 2 = 19 ∧
    (after 0x00001220#32 (files [(1, 86)] [] [])).regs.readF 2 = 69 := by decide +kernel
theorem test_fsqrt_nonresidue : errOf 0x00001220#32 (files [(1, 14)] [] []) = 0x0000122000002002#64 := by decide +kernel

/-- Over all of F_97, where s = 5: Sqrt starts from FCONST NQR_TO_T (R194), succeeds exactly where FQRT sets T (R193), and
squares back (R195). -/
theorem test_sqrt_all : Config.toy97.mont Config.toy97.nqrt = FConst.value Config.toy97 .nqrToT ∧ ∀ a < 97,
    (fieldSqrt? Config.toy97 a).isSome = isResidue Config.toy97 a ∧
      ∀ x ∈ fieldSqrt? Config.toy97 a, montMul Config.toy97 x x = a := by decide +kernel

/-! ### Curve group and scalar multiplication (V 3.5, V 3.6) -/

theorem test_padd : (after 0x00012338#32 (files [] [(1, g1), (2, g2)] [])).regs.readP 3 = g3 ∧
    (after 0x00011238#32 (files [] [(1, g1)] [])).regs.readP 2 = g2 := by decide +kernel
theorem test_padd_infinity : (after 0x00041538#32 (files [] [(1, g1), (4, ⟨25, 41, 61⟩)] [])).regs.readP 5 = infinityI ∧
    (after 0x00041538#32 (files [] [(1, infinityI), (4, g1)] [])).regs.readP 5 = g1 := by decide +kernel
theorem test_pmadd : (after 0x00012339#32 (files [] [(1, ⟨24, 12, 61⟩), (2, g3)] [])).regs.readP 3 = ⟨25, 41, 1⟩ ∧
    (after 0x00012339#32 (files [] [(1, ⟨24, 12, 61⟩), (2, g2)] [])).regs.readP 3 = ⟨50, 81, 92⟩ := by decide +kernel
theorem test_pmadd_check_first : errOf 0x00021339#32 (files [] [(1, o), (2, g2)] []) = 0x0002133900002102#64 := by decide +kernel
theorem test_pdbl : (after 0x0000123A#32 (files [] [(1, g2)] [])).regs.readP 2 = ⟨47, 74, 14⟩ ∧
    (after 0x0000123A#32 (files [] [(1, infinityI)] [])).regs.readP 2 = infinityI := by decide +kernel
theorem test_pneg : (after 0x0000143B#32 (files [] [(1, infinityI)] [])).regs.readP 4 = ⟨72, 60, 0⟩ := by decide +kernel
theorem test_peq : (after 0x00062040#32 (files [] [(2, g2), (6, ⟨36, 28, 61⟩)] [])).flags = ⟨true, false⟩ ∧
    (after 0x00062040#32 (files [] [(2, g2), (6, ⟨79, 75, 15⟩)] [])).flags = ⟨false, false⟩ := by decide +kernel
theorem test_peq_infinity : (after 0x00062040#32 (files [] [(2, infinityI)] [])).flags = ⟨true, true⟩ ∧
    (after 0x00062040#32 (files [] [(2, g1), (6, infinityI)] [])).flags = ⟨false, false⟩ := by decide +kernel
theorem test_pisz : (after 0x00005041#32 (files [] [(5, infinityI)] [])).flags = ⟨true, true⟩ ∧
    (after 0x00005041#32 (files [] [(5, g1)] [])).flags = ⟨false, false⟩ := by decide +kernel
theorem test_pwf : (after 0x00001042#32 (files [] [(1, ⟨61, 61, 61⟩)] [])).flags = ⟨false, false⟩ ∧
    (after 0x00001042#32 (files [] [(1, g3)] [])).flags = ⟨true, false⟩ ∧
    (after 0x00001042#32 idle.regs).flags = ⟨true, true⟩ := by decide +kernel
theorem test_psmul : (after 0x0003013C#32 (files [] [(0, g1)] [(3, 31)])).regs.readP 1 = ⟨32, 7, 0⟩ ∧
    (after 0x0003013C#32 (files [] [(0, g1)] [(3, 5)])).regs.readP 1 = ⟨96, 53, 57⟩ := by decide +kernel
theorem test_psmul_wide : (after 0x0003013C#32 (files [] [(0, g1)] [(3, 2 ^ 64 - 1)])).regs.readP 1 = ⟨96, 1, 27⟩ := by
  decide +kernel
theorem test_pcof : (after 0x0000233D#32 (files [] [(2, ⟨86, 42, 61⟩)] [])).regs.readP 3 = ⟨16, 26, 26⟩ := by decide +kernel
theorem test_pssg : (after 0x00002043#32 (files [] [(2, ⟨86, 42, 61⟩)] [])).flags = ⟨false, false⟩ ∧
    (after 0x00002043#32 (files [] [(2, ⟨16, 26, 26⟩)] [])).flags = ⟨true, false⟩ := by decide +kernel

/-! ### Normalization and codec (V 3.7) -/

theorem test_pnorm : (after 0x00003648#32 (files [] [(3, g3)] [])).regs.readP 6 = ⟨24, 12, 61⟩ ∧
    (after 0x00003648#32 (files [] [(3, infinityI)] [])).regs.readP 6 = o := by decide +kernel
theorem test_pbnorm : (after 0x00022049#32 (files [] [(2, g2), (3, g3), (4, ⟨96, 53, 57⟩)] [])).regs =
    files [] [(2, ⟨36, 28, 61⟩), (3, ⟨24, 12, 61⟩), (4, ⟨70, 56, 61⟩)] [] := by decide +kernel
theorem test_pbnorm_infinity : errOf 0x00012049#32 (files [] [(2, g2), (3, infinityI)] []) = 0x0001204900002202#64 ∧
    (after 0x00012049#32 (files [] [(2, g2), (3, infinityI)] [])).regs = files [] [(2, g2), (3, infinityI)] [] := by
  decide +kernel
theorem test_pcomp : (after 0x0002314A#32 (files [] [(3, g3)] [])).regs = files [(1, 24)] [(3, g3)] [] ∧
    (after 0x0002314A#32 (files [] [(3, ⟨25, 41, 61⟩)] [])).regs.readK 2 = 1 := by decide +kernel
theorem test_pcomp_infinity : (after 0x0002314A#32 (files [(1, 9)] [] [])).regs = files [] [] [(2, 3)] := by decide +kernel
theorem test_pdcmp : (after 0x0002144B#32 (files [(1, 24)] [] [])).regs.readP 4 = ⟨24, 12, 61⟩ ∧
    (after 0x0002144B#32 (files [(1, 25)] [] [(2, 1)])).regs.readP 4 = ⟨25, 41, 61⟩ ∧
    (after 0x0002144B#32 (files [(1, 25)] [] [(2, 3)])).regs.readP 4 = o := by decide +kernel
theorem test_pdcmp_fails : errOf 0x0002144B#32 (files [(1, 61)] [] [(2, 6)]) = 0x0002144B00003103#64 ∧
    errOf 0x0002144B#32 (files [(1, 61)] [] [(2, 1)]) = 0x0002144B00003003#64 := by decide +kernel

/-- V 4.4's point on the wire (R281): 2G is `0`, 96, `0`. -/
theorem test_wire : CompressedWire.ofRegisters Config.toy97 36 0 = ⟨false, 96, false⟩ ∧
    (CompressedWire.mk true 0 true).toScalars Config.toy97 = some (0, 3) ∧
    (CompressedWire.mk false 97 true).toScalars Config.toy97 = none := by decide +kernel

/-- The triple of 2G (R214's example) in the uncompressed form, both ways; a token at p is not read (R282). -/
theorem test_uncompressed_wire : UncompressedWire.ofPoint Config.toy97 g2 = ⟨49, 91, 40⟩ ∧
    UncompressedWire.toPoint? Config.toy97 ⟨49, 91, 40⟩ = some g2 ∧
    UncompressedWire.toPoint? Config.toy97 ⟨49, 97, 40⟩ = none := by decide +kernel

/-! ### Bus, status and interrupt (V 3.8) -/

theorem test_reset_status : (stepped { State.reset with inbox := [.read 0x010 64] }).readData = 0x01#64 ∧
    (stepped { State.reset with inbox := [.write 0x018 64 1] }).status.word = 0x09#64 := by decide +kernel
theorem test_init_k_write : (stepped { State.reset with inbox := [.write 0x1000 64 5] }).regs.readK 0 = 0 ∧
    (stepped { State.reset with inbox := [.write 0x1000 64 5] }).status.hzd = true := by decide +kernel
theorem test_initDone : (stepped State.reset).status.word = 0x20#64 ∧ (stepped State.reset).inInit = false := by decide +kernel
theorem test_accept : (stepped { idle with inbox := [.write 0x018 64 0xFFFFFFFF00000001] }).status.word = 0x21#64 ∧
    (stepped { idle with inbox := [.write 0x018 64 0xFFFFFFFF00000001] }).cur = some 1 ∧
    (stepped (stepped { idle with inbox := [.write 0x018 64 1] })).status.word = 0x22#64 := by decide +kernel
theorem test_busy_write : (stepped { inFlight 1#32 idle.regs with inbox := [.write 0x018 64 0x1210] }).status.word = 0x29#64 ∧
    (stepped { inFlight 1#32 idle.regs with inbox := [.write 0x018 64 0x1210] }).cur = some 1 := by decide +kernel
theorem test_k_window : (stepped { idle with inbox := [.write 0x1200 64 5] }).regs.readK 2 = 5 ∧
    (stepped { idle with inbox := [.write 0x1208 64 5] }).status.word = 0x30#64 := by decide +kernel
theorem test_undefined : (stepped { idle with inbox := [.read 0x030 64] }).status.word = 0x30#64 ∧
    (stepped { idle with inbox := [.read 0x010 32] }).readData = 0 ∧
    (stepped { idle with inbox := [.write 0x000 64 0] }).status.word = 0x30#64 := by decide +kernel
theorem test_outside_window : stepped { idle with inbox := [.read 0x2010 64] } = idle := by decide +kernel
theorem test_ctrl : (stepped { idle with inbox := [.write 0x008 64 0xFFFFFFFFFFFFFFFF] }).ctrl.word = 0x3#64 := by decide +kernel
theorem test_w1c : (stepped { idle with status := ⟨false, true, true, true, true, true⟩, inbox := [.write 0x010 64 0x1E] }).status.word =
    0x20#64 := by decide +kernel
theorem test_irq : State.irq { idle with ctrl := ⟨true, false⟩, status := { idle.status with done := true } } = true ∧
    State.irq { idle with ctrl := ⟨false, true⟩, status := { idle.status with fail := true } } = true ∧
    State.irq { idle with ctrl := ⟨true, false⟩, status := { idle.status with fail := true } } = false := by decide
theorem test_id : idle.cfg.idWord = 0x0000001010100101#64 := by decide
theorem test_byteLane : byteLane 0x0807060504030201#64 0 = 0x01#8 ∧ byteLane 0x0807060504030201#64 7 = 0x08#8 := by decide
theorem test_limbs : limbOf (2 ^ 64 * 7 + 9) 1 = 7 ∧ withLimb (2 ^ 128 * 3 + 2 ^ 64 * 7 + 9) 1 5 = 2 ^ 128 * 3 + 2 ^ 64 * 5 + 9 := by
  decide +kernel
theorem test_reset_abandons : (stepped { inFlight 0x00001210#32 (files [(1, 14)] [] []) with inbox := [.reset] }).regs =
    State.reset.regs := by decide +kernel
theorem test_fetchWord : (stepped (State.reset.withFetchWord 32 0x00001131)).regs.readP 1 = g1 ∧
    (stepped (State.reset.withFetchWord 32 0x00001131)).err.word = 0x0000113100000000#64 := by decide +kernel
theorem test_loadScalar : loadScalar bn254 2 (2 ^ 64 * 7 + 9) =
    [.write 0x3200 64 9, .write 0x3208 64 7, .write 0x3210 64 0, .write 0x3218 64 0] := by decide +kernel

/-! ### Configurations a step refuses (R10), each breaking one constraint of R8 -/

/-- A composite p, a composite r, an h·r that is not the 93 points of the curve, a G of order 93 (V 1.1). Each meets every
constraint on the numbers. -/
def badConfigs : List Config :=
  [{ Config.toy97 with p := 15, gx := 0, gy := 2, nqr := 14, root := 14 },
    { Config.toy97 with gx := 3, gy := 15, r := 93, h := 1 }, { Config.toy97 with h := 4 },
    { Config.toy97 with gx := 3, gy := 15 }]

theorem test_badConfigs_numbers : badConfigs.all (fun c => c.admissible) = true := by decide +kernel

theorem test_badConfigs_refused : ∀ c ∈ badConfigs, step { idle with cfg := c } = .refused .badConfig := by
  intro c hc
  have h : badConfigs.all (fun c => !c.obeysR8) = true := by decide +kernel
  have := List.all_eq_true.mp h c hc
  exact if_neg (by simpa using this)

theorem test_bad_nqr : step { idle with cfg := { Config.toy97 with nqr := 2 } } = .refused .badConfig :=
  if_neg (by decide +kernel)

/-- A configuration the spec does not name, counted by hand: y² = x³ + 9 over F_13 has 21 points, (2, 2) of order 7. -/
def curve13 : Config :=
  { Config.toy97 with p := 13, b := 9, gx := 2, gy := 2, r := 7, h := 3, nqr := 2, root := 8 }

theorem test_curve13 : curve13.pointCount = 21 ∧ curve13.satisfiesR8 = true ∧
    (stepped (State.resetWith curve13)).status.ready = true := by decide +kernel

/-- Both configurations of the spec run. -/
theorem test_configs_run : (stepped State.reset).status.ready = true ∧
    (stepped (State.resetWith bn254)).status.ready = true := by decide +kernel

/-! ### Witnesses: for each statement with hypotheses, states and operands that meet them, for each of its clauses -/

theorem toy_admissible (w : CmdWord) (r : Files) : (inFlight w r).cfg.admissible = true := test_toy97_admissible
theorem toy_fieldValid (w : CmdWord) (r : Files) : (inFlight w r).cfg.FieldValid := test_toy97_fieldValid

theorem idle_ok : idle.regs.Ok Config.toy97 :=
  ⟨by unfold isRep; decide +kernel, by unfold isRepPoint; decide +kernel, by decide +kernel⟩

/-- A FINV of zero in flight: it meets the invariant. -/
def failing : State := inFlight 0x0000121D#32 idle.regs

theorem failing_inv : failing.Inv where
  admissible := test_toy97_admissible
  regs := idle_ok
  snapshot := idle_ok
  life := ⟨by decide, by decide, fun w hw => ⟨by simpa [failing, inFlight, State.accept] using hw, rfl⟩⟩
  err := by decide

theorem failing_turn : engineTurn failing = .next (failing.complete (.fail (Cause.failure .invZero))) :=
  finv_zero failing 2 1 (by decide +kernel)

theorem witness_DecodeOfEncodeIsTheCommand : (Instr.pbnorm 0 15).wellFormed = true ∧ (Instr.fadd 15 15 15).wellFormed = true := by
  decide

theorem witness_DecodeReportsTheFirstFailedCheck : failing.status.ready = true ∧ failing.cur = some 0x0000121D#32 ∧
    firstFailure 0x0000121D#32 = none ∧ firstFailure 0x01000000#32 = some .illOpcode ∧
    firstFailure 0x8001F049#32 = some .illField ∧ firstFailure 0x0001F049#32 = some .illIndex := by decide +kernel

theorem witness_StepRunsTheDecodedCommand : failing.cfg.Valid ∧ failing.status.ready = true ∧
    failing.cur = some 0x0000121D#32 ∧ decode 0x0000121D#32 = .instr (.finv 2 1) ∧ failing.inbox = [] ∧
    { failing with inbox := [.engine] }.inbox = .engine :: [] := ⟨toy97_valid, by decide +kernel⟩

theorem witness_IssuedCommandCompletes :
    let s : State := { idle with inbox := [.issue Config.toy97 0x0000121D#32, .engine] }
    s.cfg.Valid ∧ s.isIdle = true ∧ s.inbox = .issue s.cfg 0x0000121D#32 :: .engine :: [] ∧
      ∀ d, decode 0x0000121D#32 ≠ .instr (.frand d) := by
  refine ⟨toy97_valid, by decide, rfl, by decide +kernel⟩

theorem witness_StepKeepsTheInvariant : failing.Inv ∧ ∃ t, step failing = .next t :=
  ⟨failing_inv, _, step_next toy97_valid rfl failing_turn⟩

theorem witness_StepStopsOnlyOnABadConfiguration : idle.cfg.Valid ∧
    ¬{ idle with cfg := { Config.toy97 with h := 4 } }.cfg.Valid :=
  ⟨toy97_valid, fun v => by
    have : (4 : Nat) * 31 = 93 := v.cofactor.2.2.trans (by decide +kernel)
    omega⟩

theorem witness_NoStepChangesAConstant : ∃ t, step failing = .next t :=
  ⟨_, step_next toy97_valid rfl failing_turn⟩

theorem witness_FailedCommandChangesNoRegister : ∃ t, failing.cur = some 0x0000121D#32 ∧ exec (.finv 2 1) failing = .next t ∧
    t.cur = none ∧ t.err.cat ≠ .none := by
  refine ⟨failing.complete (.fail (Cause.failure .invZero)), by decide, ?_, by decide, by decide⟩
  exact finv_zero failing 2 1 (by decide +kernel)

theorem witness_OnlyTestCommandsWriteFlags : (∃ t, exec .nop failing = .next t) ∧ isTest .nop = false ∧
    (∃ t, exec (.fisz 1) failing = .next t) ∧ isTest (.fisz 1) = true := ⟨⟨_, rfl⟩, rfl, ⟨_, rfl⟩, rfl⟩

theorem witness_CommandsRaiseOnlyTheirCauses : failing.cfg.FieldValid ∧ failing.snapshot.Ok failing.cfg ∧
    (Instr.finv 2 1).wellFormed = true ∧ failing.cur = some 0x0000121D#32 ∧
    ∃ t, exec (.finv 2 1) failing = .next t ∧ t.cur = none :=
  ⟨test_toy97_fieldValid, idle_ok, rfl, rfl, _, finv_zero failing 2 1 (by decide +kernel), rfl⟩

theorem witness_ResetValuesOfEveryPieceOfState : 1 ≤ Config.toy97.n ∧ Config.toy97.n ≤ 32 := by decide

theorem witness_ResetAbandonsTheCommandInFlight :
    let s : State := { failing with inbox := [.reset] }
    s.cfg.Valid ∧ s.inbox = .reset :: [] := ⟨toy97_valid, rfl⟩

theorem witness_ReadyFollowsInitializationAndReset :
    State.reset.status.ready = false ∧
    (∃ t, step State.reset = .next t ∧ t.status.ready = true) ∧
    (∃ t, step { idle with inbox := [.reset] } = .next t ∧ idle.status.ready = true ∧ t.status.ready = false) := by
  refine ⟨rfl, ?_, ?_⟩
  · exact ⟨State.reset.initDone, by rw [step_eq_next]; exact ⟨toy97_valid, rfl⟩, rfl⟩
  · exact ⟨State.reset.assertReset, by rw [step_eq_next]; exact ⟨toy97_valid, rfl⟩, rfl, rfl⟩

theorem witness_ResultsDependOnRegistersAndDrawsOnly :
    let s2 : State := { failing with ctrl := ⟨true, true⟩, cmd := 7, inbox := [.reset], readData := 3 }
    failing.cfg = s2.cfg ∧ failing.snapshot = s2.snapshot ∧ failing.regs = s2.regs ∧ failing.rand = s2.rand ∧
      failing.draws = s2.draws ∧ failing.flags = s2.flags ∧ failing.cur = s2.cur ∧ failing.ctrl ≠ s2.ctrl ∧
      (∃ t, exec (.fmov 2 1) failing = .next t) ∧ ∃ t, exec (.fmov 2 1) s2 = .next t :=
  ⟨rfl, rfl, rfl, rfl, rfl, rfl, rfl, by decide, ⟨_, rfl⟩, ⟨_, rfl⟩⟩

theorem witness_CmdWriteIsAcceptedOrDiscarded : (idle.status.ready = true ∧ idle.status.busy = false) ∧
    State.reset.status.ready = false ∧ failing.status.busy = true := by decide

theorem witness_HostAccessesLeaveTheCommandInFlightAlone : ∃ s t : State, s.Inv ∧ s.cur ≠ none ∧
    s.inbox = .write 0x1000 64 5 :: [] ∧ step s = .next t :=
  ⟨{ failing with inbox := [.write 0x1000 64 5] }, _,
    ⟨failing_inv.admissible, failing_inv.regs, failing_inv.snapshot,
      ⟨failing_inv.life.busy, failing_inv.life.init, failing_inv.life.pending⟩, failing_inv.err⟩,
    by decide, rfl, by rw [step_eq_next]; exact ⟨toy97_valid, rfl⟩⟩

theorem witness_LimbWriteReplacesOneLimb :
    let s : State := (State.resetWith bn254).initDone
    s.cfg.n ≤ 32 ∧ 0 < s.cfg.n ∧ 3 < s.cfg.n ∧ s.status.ready = true ∧ s.status.busy = false := by decide +kernel

/-- The boundary offsets of the undefined ranges, for TOY97's one limb. -/
theorem witness_UndefinedAccessOnlySetsAccerr :
    (0x010 < 0x2000 ∧ (32 : Nat) ≠ 64) ∧ (0x011 % 8 ≠ 0) ∧ (0x0030 ≤ 0x0030 ∧ 0x0FF8 < 0x1000) ∧
    (0x1000 ≤ 0x1008 ∧ idle.cfg.n ≤ 0x1008 % 0x100 / 8) ∧ 0x1FF8 < 0x2000 ∧ idle.cfg.n ≤ 0x1FF8 % 0x100 / 8 := by decide

theorem witness_LockedLimbsIgnoreWrites : failing.cfg.n ≤ 32 ∧ 0 < failing.cfg.n ∧ failing.status.busy = true ∧
    State.reset.status.ready = false ∧ idle.status.busy = false ∧ idle.status.ready = true := by decide

theorem witness_ReadsChangeOnlyAccerr : (idle.busRead 0x1008 64).status.accErr ≠ idle.status.accErr := by decide +kernel

theorem witness_RegisterReadsShowTheirFields : failing.cfg.n ≤ 32 := by decide

/-- V 3.8: only DONE raises IRQ, and 0x02 holds the bit that raises it; with FAIL and IE_ERR too, 0x06 does. -/
theorem witness_IrqIsALevelOfStatusAndCtrl :
    let s : State := { idle with ctrl := ⟨true, false⟩, status := { idle.status with done := true } }
    let u : State := { s with ctrl := ⟨true, true⟩, status := { s.status with fail := true } }
    s.irq = true ∧ (0x02#64).getLsbD 1 = true ∧ s.ctrl.ieErr = false ∧ u.irq = true ∧ (0x06#64).getLsbD 1 = true ∧
      (0x06#64).getLsbD 2 = true ∧ u.status.hzd = false ∧ u.status.accErr = false ∧ 0xFC#64 &&& 0x3 = 0 ∧
      s.status.ready = true ∧ s.status.busy = false := by decide

/-- For DerivedConstantsMeetTheirDefinitions, RedcReducesExactly (T at its bound), MontMulIsTheUniqueReducedProduct,
WordLevelMultiplierEqualsMontMul, AdditiveOperationsAreTheFields, FieldLawsHoldOnRepresentatives and
ResetMeetsTheInvariant. -/
theorem witness_fieldFunctions : Config.toy97.admissible = true ∧ bn254.admissible = true ∧
    Config.toy97.p * 2 ^ 64 - 1 < Config.toy97.p * 2 ^ (64 * Config.toy97.n) ∧ 96 < Config.toy97.p ∧ 0 < Config.toy97.p ∧
    bn254.p - 1 < bn254.p := by decide +kernel

theorem witness_RegisterTransfersComplete : failing.cur = some 0x0000121D#32 ∧ 2 < (3 : Fin 16).val := by decide

theorem witness_FldcLoadsTheFieldConstants : failing.cfg.admissible = true ∧ failing.cur = some 0x0000121D#32 ∧
    5 < (6 : Fin 16).val ∧ (5 : Fin 16).val ≤ 5 := by decide +kernel

theorem witness_KldcLoadsTheScalarConstants : failing.cfg.admissible = true ∧ failing.cur = some 0x0000121D#32 ∧
    10 < (11 : Fin 16).val ∧ (10 : Fin 16).val ≤ 10 := by decide +kernel

theorem witness_PldcLoadsThePointConstants : failing.cur = some 0x0000121D#32 ∧ 1 < (2 : Fin 16).val := by decide

/-- K[1] is p − 1, K[2] is p: the two sides of R133's bound. -/
def scalars : State := inFlight 0x00001112#32 (files [(1, 14), (2, 96), (4, 25)] [(1, g1), (2, g2), (5, infinityI)] [(1, 96), (2, 97), (3, 4)])

theorem witness_TomontLiftsCanonicalScalars : scalars.cfg.admissible = true ∧ scalars.cur = some 0x00001112#32 ∧
    scalars.srcK 1 < scalars.cfg.p ∧ scalars.cfg.p ≤ scalars.srcK 2 := by decide +kernel

/-- For FrommReturnsTheStandardResidue, AdditiveFieldCommandsComplete, MultiplicativeFieldCommandsComplete,
FpowComputesThePower and FieldTestsWriteTheirFlags: F[1] = 14, F[2] = p − 1, F[3] = 0. -/
theorem witness_fieldCommands : scalars.cfg.admissible = true ∧ scalars.cur = some 0x00001112#32 ∧
    scalars.srcF 1 < scalars.cfg.p ∧ scalars.srcF 2 < scalars.cfg.p ∧ scalars.srcF 3 < scalars.cfg.p ∧
    scalars.srcK 1 < 2 ^ scalars.cfg.w := by decide +kernel

theorem witness_FrandTakesTheFirstAcceptedRound :
    let s : State := { scalars with rand := [0x61#64, 0x60#64, 7#64] }
    s.cfg.admissible = true ∧ s.cur = some 0x00001112#32 ∧ [0x60#64].length = s.cfg.n ∧
    candidate s.cfg [0x60#64] < s.cfg.p ∧ (∀ ws ∈ [[0x61#64]], ws.length = s.cfg.n ∧ s.cfg.p ≤ candidate s.cfg ws) ∧
    s.rand = [[0x61#64]].flatten ++ [0x60#64] ++ [7#64] ∧
    { s with rand := [0x60#64, 7#64] }.rand = [0x60#64] ++ [7#64] := by decide +kernel

theorem witness_FinvInvertsOrFails : scalars.cfg.FieldValid ∧ scalars.cur = some 0x00001112#32 ∧ scalars.srcF 3 = 0 ∧
    scalars.srcF 1 ≠ 0 ∧ scalars.srcF 1 < scalars.cfg.p := ⟨test_toy97_fieldValid, rfl, by decide +kernel⟩

/-- F[4] = 25 is the representative of 2, a square; F[1] = 14 that of 5, which is none. Also for FqrtDecidesSquares. -/
theorem witness_FsqrtFindsARootOrFails : scalars.cfg.FieldValid ∧ scalars.cur = some 0x00001112#32 ∧
    (scalars.srcF 4 < scalars.cfg.p ∧ ∃ y, y < scalars.cfg.p ∧ montMul scalars.cfg y y = scalars.srcF 4) ∧
    scalars.srcF 1 < scalars.cfg.p ∧ ¬ ∃ y, y < scalars.cfg.p ∧ montMul scalars.cfg y y = scalars.srcF 1 :=
  ⟨test_toy97_fieldValid, rfl, ⟨by decide +kernel, 19, by decide +kernel⟩, by decide +kernel, by
    have h : ∀ y, y < scalars.cfg.p → montMul scalars.cfg y y ≠ scalars.srcF 1 := by decide +kernel
    exact fun ⟨y, hy, e⟩ => h y hy e⟩

/-- For PaddAddsInTheGroup, PdblDoublesAndPnegNegates, PmaddChecksThenAdds, PointTestsDecideTheirProperties,
PnormGivesTheCanonicalTriple and PcompWritesXAndTheFlagWord: P[1] = G with Z = ONE, P[2] = 2G with another Z, P[5] and
P[0] Infinity. -/
theorem witness_pointCommands : scalars.cfg.FieldValid ∧ scalars.cur = some 0x00001112#32 ∧
    isRepPoint scalars.cfg (scalars.srcP 1) ∧ isRepPoint scalars.cfg (scalars.srcP 2) ∧
    isRepPoint scalars.cfg (scalars.srcP 5) ∧ (scalars.srcP 1).z = scalars.cfg.rm ∧ (scalars.srcP 5).z = 0 ∧
    (scalars.srcP 2).z ≠ scalars.cfg.rm ∧ (scalars.srcP 2).z ≠ 0 ∧
    LogicalEq scalars.cfg (scalars.srcP 0) (scalars.srcP 5) :=
  ⟨test_toy97_fieldValid, rfl, by unfold isRepPoint; decide +kernel, by unfold isRepPoint; decide +kernel,
    by unfold isRepPoint; decide +kernel, by decide +kernel, by decide +kernel, by decide +kernel, by decide +kernel,
    .inl (by decide +kernel)⟩

theorem witness_GroupOperationsStayOnTheCurve : Config.toy97.FieldValid ∧ isRepPoint Config.toy97 g1 ∧
    isRepPoint Config.toy97 g2 ∧ onCurve Config.toy97 g1 = true ∧ onCurve Config.toy97 g2 = true ∧ g2.z ≠ 0 :=
  ⟨test_toy97_fieldValid, by unfold isRepPoint; decide +kernel, by unfold isRepPoint; decide +kernel, by decide +kernel,
    by decide +kernel, by decide⟩

theorem witness_ScalarMulIsDoubleAndAdd : 2 * (2 ^ 63 - 1) + 1 < 2 ^ Config.toy97.w := by decide +kernel

/-- K[4] = 0, K[1] = 96; P[5] is Infinity. -/
theorem witness_ScalarMultiplicationCommandsComplete : scalars.cfg.admissible = true ∧ scalars.cur = some 0x00001112#32 ∧
    scalars.srcK 1 < 2 ^ scalars.cfg.w ∧ scalars.srcK 4 = 0 ∧ scalars.srcK 1 ≠ 0 ∧ (scalars.srcP 5).z = 0 ∧
    (inFlight 0x0003013C#32 (files [] [(0, g1)] [(3, 1)])).srcK 3 = 1 ∧ bn254.h = 1 := by decide +kernel

/-- P[1], P[2] a batch of two Finite points; P[4], P[5] one with an Infinity; from P[15], a batch of two is none. -/
theorem witness_PbnormNormalizesEachPointOfTheBatch : scalars.cfg.FieldValid ∧ scalars.snapshot.Ok scalars.cfg ∧
    scalars.cur = some 0x00001112#32 ∧ 16 < (15 : PReg).val + (1 : Fin 16).val + 1 ∧
    (15 : PReg).val + (0 : Fin 16).val + 1 ≤ 16 ∧
    (∀ j : PReg, (1 : PReg).val ≤ j.val → j.val ≤ (1 : PReg).val + (1 : Fin 16).val → (scalars.srcP j).z ≠ 0) ∧
    ∃ j : PReg, (4 : PReg).val ≤ j.val ∧ j.val ≤ (4 : PReg).val + (1 : Fin 16).val ∧ (scalars.srcP j).z = 0 :=
  ⟨test_toy97_fieldValid, ⟨by unfold isRep; decide +kernel, by unfold isRepPoint; decide +kernel, by decide +kernel⟩, rfl,
    by decide, by decide, by decide +kernel, 5, by decide +kernel⟩

/-- K[3] = 4, K[4] = 0, K[5] = 2: the flag words of the clauses. x = 64 has a point, x = 1 has none. -/
def flagWords : State := inFlight 0x0002144B#32 (files [(1, 24), (2, 61)] [] [(3, 4), (5, 2), (6, 3), (7, 1)])

theorem witness_PdcmpDecodesTheFlagWord : flagWords.cfg.FieldValid ∧ flagWords.cur = some 0x0002144B#32 ∧
    flagWords.srcF 1 < flagWords.cfg.p ∧ flagWords.srcF 2 < flagWords.cfg.p ∧ 4 ≤ flagWords.srcK 3 ∧
    flagWords.srcK 5 = 2 ∧ flagWords.srcK 6 = 3 ∧ flagWords.srcK 7 < 2 ∧ flagWords.srcK 4 < 2 :=
  ⟨test_toy97_fieldValid, rfl, by decide +kernel⟩

/-- The two residue clauses of the same statement, over ZMod 97. -/
theorem witness_PdcmpSquares :
    (∃ y, y < flagWords.cfg.p ∧ toZ flagWords.cfg y ^ 2 = toZ flagWords.cfg (flagWords.srcF 1) ^ 3 + flagWords.cfg.b) ∧
    ¬ ∃ y, y < flagWords.cfg.p ∧ toZ flagWords.cfg y ^ 2 = toZ flagWords.cfg (flagWords.srcF 2) ^ 3 + flagWords.cfg.b := by
  have hf := Config.admissible_fieldFacts test_toy97_admissible
  have e : ∀ x y : Nat, x < 97 → y < 97 → (toZ Config.toy97 y ^ 2 = toZ Config.toy97 x ^ 3 + (Config.toy97.b : ZMod Config.toy97.p) ↔
      montMul Config.toy97 y y = fieldAdd Config.toy97 (montMul Config.toy97 x (sq Config.toy97 x)) (Config.toy97.mont Config.toy97.b)) := by
    intro x y hx hy
    rw [← toZ_inj hf (montMul_rep hf hy hy) (fieldAdd_rep (montMul_rep hf hx (sq_rep hf hx)) (mont_rep hf _)),
      toZ_montMul hf, toZ_fieldAdd, toZ_montMul hf, toZ_sq hf, toZ_mont hf]
    rw [show toZ Config.toy97 y ^ 2 = toZ Config.toy97 y * toZ Config.toy97 y by ring,
      show toZ Config.toy97 x ^ 3 = toZ Config.toy97 x * (toZ Config.toy97 x * toZ Config.toy97 x) by ring]
  refine ⟨⟨12, by decide +kernel, (e 24 12 (by decide) (by decide)).mpr (by decide +kernel)⟩, ?_⟩
  rintro ⟨y, hy, h⟩
  have h1 := (e 61 y (by decide) hy).mp h
  have h2 : ∀ y, y < 97 → montMul Config.toy97 y y ≠
      fieldAdd Config.toy97 (montMul Config.toy97 61 (sq Config.toy97 61)) (Config.toy97.mont Config.toy97.b) := by decide +kernel
  exact h2 y hy h1

theorem witness_DecompressInvertsCompress : Config.toy97.FieldValid ∧ isRepPoint Config.toy97 g2 ∧
    onCurve Config.toy97 g2 = true ∧ g2.z ≠ 0 :=
  ⟨test_toy97_fieldValid, by unfold isRepPoint; decide +kernel, by decide +kernel, by decide⟩

/-! ### Every constraint of R8 on TOY97 (V 1.1) -/

theorem test_toy97_curveOrder : Config.toy97.curveOrder = 93 ∧ Config.toy97.pointCount = 93 := by decide +kernel

end Sys2Proof.Tests
end

section
/-! The derived constants (R9): what `twoAdic` splits off, and the bounds of the constants of R56 to R58. -/

namespace Sys2Proof

/-! ### The derived constants -/

/-- For 0 < x < 2^k, `twoAdic k x` is the exponent of 2 in x: the power divides x and leaves an odd quotient. -/
theorem twoAdic_spec : ∀ k x, 0 < x → x < 2 ^ k →
    2 ^ twoAdic k x * (x / 2 ^ twoAdic k x) = x ∧ x / 2 ^ twoAdic k x % 2 = 1
  | 0, x, h0, hx => by omega
  | k + 1, x, h0, hx => by
    rw [twoAdic]
    split
    case isTrue heven =>
      obtain ⟨hmul, hodd⟩ := twoAdic_spec k (x / 2) (by omega) (by rw [pow_succ] at hx; omega)
      rw [pow_succ', ← Nat.div_div_eq_div_mul]
      refine ⟨?_, hodd⟩
      rw [mul_assoc, hmul]
      omega
    case isFalse hodd => simpa using hodd

theorem twoAdic_le : ∀ k x, twoAdic k x ≤ k
  | 0, _ => le_rfl
  | k + 1, x => by
    rw [twoAdic]
    split
    · exact Nat.succ_le_succ (twoAdic_le k _)
    · exact Nat.zero_le _

variable {c : Config}

/-- p − 1 = 2^s·t with t odd (R9). -/
theorem Config.FieldFacts.s_t_spec (h : c.FieldFacts) : 2 ^ c.s * c.t = c.p - 1 ∧ c.t % 2 = 1 :=
  twoAdic_spec c.w (c.p - 1) (by have := h.pGe; omega) (lt_of_le_of_lt (Nat.sub_le _ _) h.pLt)

theorem Config.FieldFacts.t_lt (h : c.FieldFacts) : c.t < c.p :=
  lt_of_le_of_lt (Nat.div_le_self _ _) (Nat.sub_lt h.pPos one_pos)

theorem inv64_lt (c : Config) : c.inv64 < 2 ^ 64 := Nat.mod_lt _ (by decide)

/-! ### Bounds of the constants (R32, R34, R35) -/

theorem FConst.value_rep (h : c.FieldFacts) (k : FConst) : k.value c < c.p := by
  cases k with
  | zero => exact h.pPos
  | one => exact rm_rep h
  | coeffB | nqr | nqrToT | root => exact mont_rep h _

/-- Every KCONST fits a scalar register (R37, R57). -/
theorem KConst.value_lt (h : c.admissible = true) (k : KConst) : k.value c < 2 ^ c.w := by
  have hf := Config.admissible_fieldFacts h
  have hpar := Config.admissible_paramFacts h
  have below {v : Nat} (hv : v ≤ c.p) : v < 2 ^ c.w := lt_of_le_of_lt hv hf.pLt
  cases k with
  | modulus => exact hf.pLt
  | order => exact hpar.rLt
  | cofactor => exact hpar.hLt
  | s => exact lt_of_le_of_lt (twoAdic_le _ _) Nat.lt_two_pow_self
  | t => exact below hf.t_lt.le
  | tm1h => exact below (by have := hf.t_lt; simp only [KConst.value, Config.tm1h]; omega)
  | pm1h => exact below (by simp only [KConst.value, Config.pm1h]; omega)
  | inv => exact lt_of_lt_of_le (inv64_lt c) hf.two64_le_radix
  | r2 => exact below (r2_rep hf).le
  | r3 => exact below (r3_rep hf).le
  | rm => exact below (rm_rep hf).le

namespace Machine

theorem PConst.value_rep (h : c.FieldFacts) (k : PConst) : isRepPoint c (k.value c) := by
  cases k with
  | o => exact pointO_rep h
  | g => exact pointG_rep h

theorem Coord.pick_rep {q : Point} (hq : isRepPoint c q) (k : Coord) : k.pick q < c.p := by
  obtain ⟨hx, hy, hz⟩ := hq
  cases k with
  | x => exact hx
  | y => exact hy
  | z => exact hz

end Machine

/-- Settles O28: each constant by the lemma about the function that computes it. -/
theorem derivedConstantsMeetTheirDefinitions : Obligations.DerivedConstantsMeetTheirDefinitions := by
  unfold Obligations.DerivedConstantsMeetTheirDefinitions
  intro c hadm
  have h := Config.admissible_fieldFacts hadm
  obtain ⟨hsplit, htodd⟩ := h.s_t_spec
  have hinv : 2 ^ 64 ∣ c.inv64 * c.p + 1 := negInv_mul h.pOdd (by decide) (by decide)
  have hpodd := h.pOdd
  have hnqrt : c.nqrt = c.nqr ^ c.t % c.p := powMod_eq _ _ _ _ (h.t_lt.trans h.pLt)
  refine ⟨inv64_lt c, Nat.mod_eq_zero_of_dvd hinv, rfl, rfl, rfl, hsplit.symm, htodd, s_pos h, ?_, ?_, hnqrt⟩
  · unfold Config.tm1h; omega
  · unfold Config.pm1h; omega

end Sys2Proof
end

section
/-! What a command commits (R305) is within the bounds of the register files, and what it fails with has its cause's
category (R311): the part of the invariant that the commands owe. -/

namespace Sys2Proof.Machine

/-- The end of a command keeps the bounds of R32, R34 and R35, and pairs a cause with its category (R311). -/
def CmdOutcome.Ok (c : Config) : CmdOutcome → Prop
  | .ok writes _ => ∀ w ∈ writes, w.Ok c
  | .fail f => f.cat = f.cause.category

/-- A meaning completes the command with an end that is `Ok`, or FRAND's rejects a round (R175). -/
def CommitsOk (s : State) (r : Host.Outcome State Fault Refusal) : Prop :=
  (∃ s' o, SameButDraws s s' ∧ CmdOutcome.Ok s.cfg o ∧ r = .next (s'.complete o)) ∨ r = .next (afterRound s)

section
variable {s s' : State}

theorem CommitsOk.writes (h : SameButDraws s s') {ws : List RegWrite} (hw : ∀ w ∈ ws, w.Ok s.cfg) :
    CommitsOk s (.next (s'.complete (.ok ws none))) := .inl ⟨s', .ok ws none, h, hw, rfl⟩

theorem CommitsOk.write (h : SameButDraws s s') {w : RegWrite} (hw : w.Ok s.cfg) :
    CommitsOk s (.next (s'.complete (.ok [w] none))) :=
  .writes h (List.forall_mem_singleton.mpr hw)

theorem CommitsOk.noWrite (s : State) (fl : Option Flags) : CommitsOk s (.next (s.complete (.ok [] fl))) :=
  .inl ⟨s, .ok [] fl, .refl s, List.forall_mem_nil _, rfl⟩

theorem CommitsOk.fail (s : State) (cause : Cause) : CommitsOk s (.next (s.complete (.fail cause.failure))) :=
  .inl ⟨s, .fail cause.failure, .refl s, rfl, rfl⟩

end

/-- The triple PSMUL and PCOF write is one of representatives. -/
theorem scalarTriple_rep {s : State} (h : s.cfg.FieldFacts) (k : Nat) {q : Point} (hq : isRepPoint s.cfg q) :
    isRepPoint s.cfg (s.scalarTriple k q) := by
  unfold State.scalarTriple
  split
  · exact scalarMul_rep h k hq
  · exact choosePoint_rep h (scalarMul_rep h k hq)

/-- The triple PADD and PMADD write: the sum itself where an operand is Infinity, else as POINT_FORMULAS chooses. -/
def State.sumTriple (s : State) (q1 q2 sum : Point) : Point :=
  if isInf q1 || isInf q2 then sum else s.choosePoint sum

theorem sumTriple_rep {s : State} (h : s.cfg.FieldFacts) (q1 q2 : Point) {sum : Point} (hq : isRepPoint s.cfg sum) :
    isRepPoint s.cfg (s.sumTriple q1 q2 sum) := by
  unfold State.sumTriple
  split
  · exact hq
  · exact choosePoint_rep h hq

/-- PBNORM's writes are triples of representatives, and its failures are R311's. -/
theorem execPbnorm_commitsOk {s : State} (h : s.cfg.FieldFacts) (hs : ∀ i, isRepPoint s.cfg (s.srcP i)) (a : PReg)
    (b : Fin 16) : CommitsOk s (execPbnorm a b s) := by
  unfold execPbnorm
  split
  case isFalse => exact .fail s _
  case isTrue =>
    have hq : ∀ q ∈ (batchRegs a b).map s.srcP, isRepPoint s.cfg q := List.forall_mem_map.mpr fun i _ => hs i
    rcases batchNormalize_cases h hq with ⟨-, e⟩ | ⟨-, e⟩ | ⟨-, out, e, -, hout⟩
    · rw [e]; exact .fail s _
    · rw [e]; exact .fail s _
    · rw [e]
      refine .writes (.refl s) fun w hw => ?_
      obtain ⟨i, hi, rfl⟩ := List.mem_iff_getElem.mp hw
      rw [List.getElem_zipWith]
      exact hout _ (List.getElem_mem _)

/-- Every command, from a snapshot within its bounds, commits within them. -/
theorem exec_commitsOk {s : State} (hadm : s.cfg.admissible = true) (hs : s.snapshot.Ok s.cfg) (i : Instr) :
    CommitsOk s (exec i s) := by
  have h := Config.admissible_fieldFacts hadm
  have hF : ∀ i, s.srcF i < s.cfg.p := hs.f
  have hP : ∀ i, isRepPoint s.cfg (s.srcP i) := hs.p
  have hK : ∀ i, s.srcK i < 2 ^ s.cfg.w := hs.k
  have below {v : Nat} (hv : v < s.cfg.p) : v < 2 ^ s.cfg.w := hv.trans h.pLt
  cases i with
  | nop => exact .noWrite s _
  | fmov d a => exact .write (.refl s) (hF a)
  | fldc d sel => exact .write (.refl s) (FConst.value_rep h sel)
  | tomont d a =>
    simp only [exec, execTomont]
    split
    case isTrue => exact .fail s _
    case isFalse hlt => exact .write (.refl s) (montMul_rep h (Nat.lt_of_not_le hlt) (r2_rep h))
  | fromm d a => exact .write (.refl s) (below (std_rep (hF a)))
  | frand d =>
    simp only [exec, execFrand]
    split
    case isTrue hlt => exact .write (afterRound_same s) (montMul_rep h hlt (r2_rep h))
    case isFalse => exact .inr rfl
  | fadd d a b => exact .write (.refl s) (fieldAdd_rep (hF a) (hF b))
  | fsub d a b => exact .write (.refl s) (fieldSub_rep (hF a))
  | fneg d a => exact .write (.refl s) (fieldNeg_rep h.pPos)
  | fmul d a b => exact .write (.refl s) (montMul_rep h (hF a) (hF b))
  | fsqr d a => exact .write (.refl s) (sq_rep h (hF a))
  | finv d a =>
    simp only [exec, execFinv]
    split
    case h_1 => exact .fail s _
    case h_2 x hx => exact .write (.refl s) (fieldInv?_rep h hx)
  | fpow d a b => exact .write (.refl s) (fieldPow_rep h (hF a) _)
  | fsqrt d a =>
    simp only [exec, execFsqrt]
    split
    case h_1 => exact .fail s _
    case h_2 x hx => exact .write (tick_same s) (chooseRoot_rep h (fieldSqrt?_rep h (hF a) hx))
  | fqrt a => exact .noWrite s _
  | feq a b => exact .noWrite s _
  | fisz a => exact .noWrite s _
  | pmov d a => exact .write (.refl s) (hP a)
  | pldc d sel => exact .write (.refl s) (PConst.value_rep h sel)
  | pset d a b c => exact .write (.refl s) ⟨hF a, hF b, hF c⟩
  | pget d a crd => exact .write (.refl s) (Coord.pick_rep (hP a) crd)
  | padd d a b => exact .write (tick_same s) (sumTriple_rep h _ _ (pointAdd_rep h (hP a) (hP b)))
  | pmadd d a b =>
    simp only [exec, execPmadd]
    split
    case h_1 => exact .fail s _
    case h_2 sum hsum => exact .write (tick_same s) (sumTriple_rep h _ _ (pointMAdd?_rep h (hP a) (hP b) hsum))
  | pdbl d a => exact .write (tick_same s) (choosePoint_rep h (pointDbl_rep h (hP a)))
  | pneg d a => exact .write (.refl s) (pointNeg_rep h (hP a))
  | psmul d a b => exact .write (tick_same s) (scalarTriple_rep h _ (hP a))
  | pcof d a => exact .write (tick_same s) (scalarTriple_rep h _ (hP a))
  | peq a b => exact .noWrite s _
  | pisz a => exact .noWrite s _
  | pwf a => exact .noWrite s _
  | pssg a => exact .noWrite s _
  | pnorm d a => exact .write (.refl s) (normalize_rep h (hP a))
  | pbnorm a b => exact execPbnorm_commitsOk h hP a b
  | pcomp d a b =>
    refine .writes (.refl s) (List.forall_mem_cons.mpr ⟨compress_rep h (hP a), List.forall_mem_singleton.mpr ?_⟩)
    exact below ((compress_flag_lt s.cfg _).trans (by have := h.pGe; omega))
  | pdcmp d a b =>
    simp only [exec, execPdcmp]
    split
    case h_1 => exact .fail s _
    case h_2 => exact .fail s _
    case h_3 q hq => exact .write (.refl s) (decompress_rep h (hF a) hq)
  | kldc d sel => exact .write (.refl s) (KConst.value_lt hadm sel)
  | kmov d a => exact .write (.refl s) (hK a)

end Sys2Proof.Machine
end

section
/-! The invariant of the block: what it does not speak of, and that each transition of R309 keeps it. -/

namespace Sys2Proof.Machine

/-- The invariant reads the configuration, the register files, the snapshot, BUSY, READY, CMD, CUR and ERR, and nothing
else of the state. -/
theorem State.Inv.congr {s t : State} (h : s.Inv) (cfg : t.cfg = s.cfg) (regs : t.regs = s.regs)
    (snapshot : t.snapshot = s.snapshot) (busy : t.status.busy = s.status.busy)
    (ready : t.status.ready = s.status.ready) (cmd : t.cmd = s.cmd) (cur : t.cur = s.cur) (err : t.err = s.err) :
    t.Inv := by
  have hinit : t.inInit = s.inInit := by simp only [State.inInit, ready]
  refine ⟨cfg ▸ h.admissible, ?_, ?_, ⟨?_, ?_, ?_⟩, err ▸ h.err⟩
  · rw [cfg, regs]; exact h.regs
  · rw [cfg, snapshot]; exact h.snapshot
  · rw [busy, hinit, cur]; exact h.life.busy
  · rw [hinit, cur]; exact h.life.init
  · rw [cur, cmd, snapshot, regs]; exact h.life.pending

theorem State.Inv.of_sameButDraws {s t : State} (h : s.Inv) (hd : SameButDraws s t) : t.Inv :=
  h.congr hd.cfg hd.regs hd.snapshot (by rw [hd.status]) (by rw [hd.status]) hd.cmd hd.cur hd.err

theorem State.Inv.withInbox {s : State} (h : s.Inv) (rest : List BusEvent) : State.Inv { s with inbox := rest } :=
  h.congr rfl rfl rfl rfl rfl rfl rfl rfl

theorem Files.atReset_ok {c : Config} (h : c.FieldFacts) : (Files.atReset c).Ok c where
  f i := by rw [Files.atReset_readF]; exact h.pPos
  p i := by rw [Files.atReset_readP]; exact pointO_rep h
  k i := by rw [Files.atReset_readK]; exact Nat.two_pow_pos _

/-- Reset (R340). -/
theorem State.Inv.assertReset {s : State} (h : s.Inv) : s.assertReset.Inv := by
  have hok := Files.atReset_ok (Config.admissible_fieldFacts h.admissible)
  exact ⟨h.admissible, hok, hok, ⟨rfl, fun _ => rfl, by simp⟩, rfl⟩

/-- InitDone (R341). -/
theorem State.Inv.initDone {s : State} (h : s.Inv) (hr : s.status.ready = false) : s.initDone.Inv := by
  have hcur : s.cur = none := h.life.init (by simp [State.inInit, hr])
  have hp (i : PReg) : s.initDone.regs.readP i = pointO s.cfg := by
    simp [Files.readP, Vector.get_eq_getElem]
  refine ⟨h.admissible, ⟨h.regs.f, fun i => ?_, h.regs.k⟩, h.snapshot, ⟨?_, fun _ => hcur, ?_⟩, h.err⟩
  · rw [hp]; exact pointO_rep (Config.admissible_fieldFacts h.admissible)
  · simp [State.inInit, hcur]
  · simp [hcur]

/-- Accept (R302), of a block that is idle and ready (R301). -/
theorem State.Inv.accept {s : State} (h : s.Inv) (hl : s.status.locked = false) (w : CmdWord) : (s.accept w).Inv := by
  obtain ⟨-, hready⟩ := (Status.locked_eq_false _).mp hl
  refine ⟨h.admissible, h.regs, h.regs, ⟨?_, ?_, ?_⟩, h.err⟩
  · simp [State.accept]
  · simp [State.inInit, State.accept, hready]
  · rintro v hv
    exact ⟨Option.some.inj hv, rfl⟩

/-- Complete (R306), of a block that is ready. -/
theorem State.Inv.complete {s : State} (h : s.Inv) (hr : s.status.ready = true) {o : CmdOutcome}
    (ho : o.Ok s.cfg) : (s.complete o).Inv := by
  cases o with
  | ok ws fl =>
    exact ⟨h.admissible, h.regs.applyAll ws ho, h.snapshot, ⟨by simp [State.inInit, hr], fun _ => rfl, by simp⟩, rfl⟩
  | fail f => exact ⟨h.admissible, h.regs, h.snapshot, ⟨by simp [State.inInit, hr], fun _ => rfl, by simp⟩, ho⟩

/-- A read only moves ACCERR, the data delivered and the count of free values. -/
theorem State.Inv.busRead {s : State} (h : s.Inv) (addr width : Nat) : (s.busRead addr width).Inv := by
  unfold State.busRead
  split
  case h_1 => exact h
  case h_2 off _ =>
    rcases hostRead_cases s (locate s.cfg off width) with ⟨-, e⟩ | ⟨-, d, n, e⟩
    · rw [e]; exact h.congr rfl rfl rfl rfl rfl rfl rfl rfl
    · rw [e]; exact h.congr rfl rfl rfl rfl rfl rfl rfl rfl

/-- A limb write of an unlocked block: no command is pending, so the registers need not be the snapshot. -/
theorem State.Inv.writeLimb {s : State} (h : s.Inv) (hl : s.status.locked = false) (i : KReg) {j : Nat}
    (hj : j < s.cfg.n) (v : BusWord) :
    State.Inv { s with regs := s.regs.writeK i (withLimb (s.regs.readK i) j v) } := by
  obtain ⟨hbusy, hready⟩ := (Status.locked_eq_false _).mp hl
  have hcur : s.cur = none := by
    have := h.life.busy
    simpa [hbusy, State.inInit, hready] using this
  have hregs := h.regs.apply (w := .k i (withLimb (s.regs.readK i) j v)) (withLimb_lt hj (h.regs.k i) v)
  exact ⟨h.admissible, hregs, h.snapshot, ⟨h.life.busy, h.life.init, by simp [hcur]⟩, h.err⟩

theorem State.Inv.busWrite {s : State} (h : s.Inv) (addr width : Nat) (v : BusWord) :
    (s.busWrite addr width v).Inv := by
  unfold State.busWrite
  split
  case h_1 => exact h
  case h_2 off _ =>
    rcases hostWrite_cases s v (locate s.cfg off width) with
      e | e | ⟨-, e⟩ | ⟨-, e⟩ | ⟨-, hl, e⟩ | ⟨i, j, ht, hl, e⟩
    · rw [e]; exact h.congr rfl rfl rfl rfl rfl rfl rfl rfl
    · rw [e]; exact h.congr rfl rfl rfl rfl rfl rfl rfl rfl
    · rw [e]; exact h.congr rfl rfl rfl rfl rfl rfl rfl rfl
    · rw [e]; exact h.congr rfl rfl rfl rfl rfl rfl rfl rfl
    · rw [e]; exact h.accept hl _
    · rw [e]; exact h.writeLimb hl i (locate_limb_lt ht) v

theorem decodeFailure_category (e : DecodeError) : (decodeFailure e).cat = (decodeFailure e).cause.category := by
  cases e <;> rfl

theorem State.Inv.exec {s t : State} (h : s.Inv) (hr : s.status.ready = true) {i : Instr}
    (ht : exec i s = .next t) : t.Inv := by
  rcases exec_commitsOk h.admissible h.snapshot i with ⟨s', o, hd, ho, e⟩ | e
  · obtain rfl := Host.Outcome.next.inj (e.symm.trans ht)
    exact (h.of_sameButDraws hd).complete (hd.status ▸ hr) (hd.cfg.symm ▸ ho)
  · obtain rfl := Host.Outcome.next.inj (e.symm.trans ht)
    exact h.of_sameButDraws (afterRound_same s)

theorem State.Inv.engineTurn {s t : State} (h : s.Inv) (ht : engineTurn s = .next t) : t.Inv := by
  rcases engineTurn_cases s with ⟨hr, e⟩ | ⟨-, -, e⟩ | ⟨w, de, hr, -, -, e⟩ | ⟨w, i, hr, -, -, e⟩
  · obtain rfl := Host.Outcome.next.inj (e.symm.trans ht)
    exact h.initDone hr
  · obtain rfl := Host.Outcome.next.inj (e.symm.trans ht)
    exact h
  · obtain rfl := Host.Outcome.next.inj (e.symm.trans ht)
    exact h.complete hr (decodeFailure_category de)
  · exact h.exec hr (e.symm.trans ht)

theorem State.Inv.takeInput {s t : State} (h : s.Inv) {e : BusEvent} (ht : takeInput e s = .next t) : t.Inv := by
  cases e with
  | reset => exact Host.Outcome.next.inj ht ▸ h.assertReset
  | read addr width => exact Host.Outcome.next.inj ht ▸ h.busRead addr width
  | write addr width v => exact Host.Outcome.next.inj ht ▸ h.busWrite addr width v
  | engine => exact h.engineTurn ht

theorem State.Inv.transition {s t : State} (h : s.Inv) (ht : transition s = .next t) : t.Inv := by
  cases hin : s.inbox with
  | nil =>
    rw [transition_engine (.inl hin)] at ht
    exact (h.withInbox _).engineTurn ht
  | cons e rest =>
    rw [transition_input hin] at ht
    exact (h.withInbox _).takeInput ht

/-- Settles O7: a step is a transition, and each transition of R309 keeps the invariant. -/
theorem stepKeepsTheInvariant : Obligations.StepKeepsTheInvariant := by
  unfold Obligations.StepKeepsTheInvariant
  intro s t h hstep
  obtain ⟨-, ht⟩ := step_eq_next.mp hstep
  exact h.transition ht

/-! ### No step faults (R300) -/

theorem exec_next (i : Instr) (s : State) : ∃ t, exec i s = .next t := by
  rcases exec_cases i s with ⟨s', o, -, e⟩ | ⟨d, -, -, e⟩
  · exact ⟨_, e⟩
  · exact ⟨_, e⟩

theorem engineTurn_next (s : State) : ∃ t, engineTurn s = .next t := by
  rcases engineTurn_cases s with ⟨-, e⟩ | ⟨-, -, e⟩ | ⟨w, de, -, -, -, e⟩ | ⟨w, i, -, -, -, e⟩
  · exact ⟨_, e⟩
  · exact ⟨_, e⟩
  · exact ⟨_, e⟩
  · exact e ▸ exec_next i s

theorem transition_next (s : State) : ∃ t, transition s = .next t := by
  cases hin : s.inbox with
  | nil => exact transition_engine (.inl hin) ▸ engineTurn_next _
  | cons e rest =>
    rw [transition_input hin]
    cases e with
    | reset => exact ⟨_, rfl⟩
    | read addr width => exact ⟨_, rfl⟩
    | write addr width v => exact ⟨_, rfl⟩
    | engine => exact engineTurn_next _

/-- Settles O9: every transition answers a next state, and `step` asks for all of R8 before one. -/
theorem stepStopsOnlyOnABadConfiguration : Obligations.StepStopsOnlyOnABadConfiguration := by
  unfold Obligations.StepStopsOnlyOnABadConfiguration
  intro s
  exact ⟨fun hvalid => step_valid hvalid ▸ transition_next s, step_invalid⟩

end Sys2Proof.Machine
end

section
/-! What no command's result depends on (R22): CTRL, STATUS, CMD, ERR, the inputs and the data last read. -/

namespace Sys2Proof.Machine

/-- `s`, with the pieces of state that no result depends on taken from `u`. -/
def State.withHost (s u : State) : State :=
  { s with ctrl := u.ctrl, status := u.status, cmd := u.cmd, err := u.err, inbox := u.inbox, readData := u.readData }

section
variable (s u : State)
@[simp] theorem State.withHost_cfg : (s.withHost u).cfg = s.cfg := rfl
@[simp] theorem State.withHost_srcF (i : FReg) : (s.withHost u).srcF i = s.srcF i := rfl
@[simp] theorem State.withHost_srcP (i : PReg) : (s.withHost u).srcP i = s.srcP i := rfl
@[simp] theorem State.withHost_srcK (i : KReg) : (s.withHost u).srcK i = s.srcK i := rfl

@[simp] theorem State.withHost_drawWord :
    (s.withHost u).drawWord = (s.drawWord.1, s.drawWord.2.withHost u) := by
  unfold State.drawWord
  rw [show (s.withHost u).rand = s.rand from rfl]
  cases s.rand with
  | nil => rfl
  | cons w ws => rfl
end

@[simp] theorem State.withHost_drawLimbs (u : State) : ∀ (k : Nat) (s : State),
    (s.withHost u).drawLimbs k = ((s.drawLimbs k).1, (s.drawLimbs k).2.withHost u)
  | 0, _ => rfl
  | k + 1, s => by
    simp only [State.drawLimbs, State.withHost_drawWord, State.withHost_drawLimbs u k]

theorem randCandidate_withHost (s u : State) : randCandidate (s.withHost u) = randCandidate s := by
  simp [randCandidate]

theorem afterRound_withHost (s u : State) : afterRound (s.withHost u) = (afterRound s).withHost u := by
  simp [afterRound]

/-- A command ends in one way from `s` and from `s.withHost u`: `r` and `r'` are completions with one outcome, or one
rejected round of FRAND. -/
def EndsAlike (s u : State) (r r' : Host.Outcome State Fault Refusal) : Prop :=
  (∃ (s' : State) (o : CmdOutcome), r = .next (s'.complete o) ∧ r' = .next ((s'.withHost u).complete o)) ∨
    (r = .next (afterRound s) ∧ r' = .next ((afterRound s).withHost u))

theorem EndsAlike.complete (s u : State) (s' : State) (o : CmdOutcome) :
    EndsAlike s u (.next (s'.complete o)) (.next ((s'.withHost u).complete o)) := .inl ⟨s', o, rfl, rfl⟩

theorem exec_endsAlike (i : Instr) (s u : State) : EndsAlike s u (exec i s) (exec i (s.withHost u)) := by
  cases i with
  | tomont d a =>
    by_cases h : s.cfg.p ≤ s.srcK a
    · simp only [exec, execTomont, State.withHost_cfg, State.withHost_srcK, h, ↓reduceIte]
      exact .complete s u _ _
    · simp only [exec, execTomont, State.withHost_cfg, State.withHost_srcK, h, ↓reduceIte]
      exact .complete s u _ _
  | frand d =>
    simp only [exec, execFrand, State.withHost_cfg, randCandidate_withHost, afterRound_withHost]
    by_cases h : randCandidate s < s.cfg.p
    · simp only [if_pos h]; exact .complete s u _ _
    · simp only [if_neg h]; exact .inr ⟨rfl, rfl⟩
  | finv d a =>
    simp only [exec, execFinv, State.withHost_cfg, State.withHost_srcF]
    cases fieldInv? s.cfg (s.srcF a) with
    | none => exact .complete s u _ _
    | some x => exact .complete s u _ _
  | fsqrt d a =>
    simp only [exec, execFsqrt, State.withHost_cfg, State.withHost_srcF]
    cases fieldSqrt? s.cfg (s.srcF a) with
    | none => exact .complete s u _ _
    | some x => exact .complete s u s.tick _
  | pmadd d a b =>
    simp only [exec, execPmadd, State.withHost_cfg, State.withHost_srcP]
    cases pointMAdd? s.cfg (s.srcP a) (s.srcP b) with
    | none => exact .complete s u _ _
    | some sum => exact .complete s u s.tick _
  | pbnorm a b =>
    have hsrc : (s.withHost u).srcP = s.srcP := rfl
    simp only [exec, execPbnorm, State.withHost_cfg, hsrc]
    by_cases h : batchInRange a b = true
    · simp only [if_pos h]
      cases batchNormalize s.cfg ((batchRegs a b).map s.srcP) with
      | failed e =>
        cases e with
        | infinity => exact .complete s u _ _
        | zeroProduct => exact .complete s u _ _
      | points qs => exact .complete s u _ _
    · simp only [if_neg h]; exact .complete s u _ _
  | pdcmp d a b =>
    simp only [exec, execPdcmp, State.withHost_cfg, State.withHost_srcF, State.withHost_srcK]
    cases decompress s.cfg (s.srcF a) (s.srcK b) with
    | malformed e =>
      cases e with
      | badFlags => exact .complete s u _ _
      | notResidue => exact .complete s u _ _
    | point q => exact .complete s u _ _
  | padd | pdbl | psmul | pcof => exact .complete s u s.tick _
  | nop | fmov | fldc | fromm | fadd | fsub | fneg | fmul | fsqr | fpow | fqrt | feq | fisz | pmov | pldc | pset | pget
  | pneg | peq | pisz | pwf | pssg | pnorm | pcomp | kldc | kmov => exact .complete s u s _

/-- Settles O17: the second state is the first with other host-side state, which every command ends alike on. -/
theorem resultsDependOnRegistersAndDrawsOnly : Obligations.ResultsDependOnRegistersAndDrawsOnly := by
  unfold Obligations.ResultsDependOnRegistersAndDrawsOnly
  intro i s1 s2 t1 t2 hcfg hsnapshot hregs hrand hdraws hflags hcur h1 h2
  have hs2 : s2 = s1.withHost s2 := by
    simp only [State.withHost, hcfg, hsnapshot, hregs, hrand, hdraws, hflags, hcur]
  rw [hs2] at h2
  rcases exec_endsAlike i s1 s2 with ⟨s', o, e1, e2⟩ | ⟨e1, e2⟩
  · obtain rfl := Host.Outcome.next.inj (e1.symm.trans h1)
    obtain rfl := Host.Outcome.next.inj (e2.symm.trans h2)
    cases o with
    | ok ws fl => exact ⟨rfl, rfl, rfl, rfl, fun _ _ => rfl⟩
    | fail f => exact ⟨rfl, rfl, rfl, rfl, fun _ _ => rfl⟩
  · obtain rfl := Host.Outcome.next.inj (e1.symm.trans h1)
    obtain rfl := Host.Outcome.next.inj (e2.symm.trans h2)
    refine ⟨rfl, rfl, rfl, rfl, fun hdone hpending => ?_⟩
    exact absurd ((afterRound_same s1).cur.symm.trans hdone) hpending

end Sys2Proof.Machine
end

section
/-! Completion with one point register written (R305, R306). -/

namespace Sys2Proof.Machine

section
variable {s s' : State} {w : CmdWord} (h : SameButDraws s s')
include h

/-- A normal end completes as R306 says, where the draws before it took no word of RAND. -/
theorem completedOk_complete (hrand : s'.rand = s.rand) (hcur : s.cur = some w) (ws : List RegWrite)
    (fl : Option Flags) : CompletedOk s (s'.complete (.ok ws fl)) w where
  err := by rw [State.complete_ok_err, h.curWord, State.curWord_of_cur hcur]
  status := by rw [State.complete_ok_status, h.status]
  cur := rfl
  cfg := h.cfg
  snapshot := h.snapshot
  ctrl := h.ctrl
  cmd := h.cmd
  inbox := h.inbox
  rand := hrand
  readData := h.readData

/-- One point register written, and no other (R36). -/
theorem onlyP_complete (d : PReg) (q : Point) : OnlyP s (s'.complete (.ok [.p d q] none)) d q where
  written := by simp [Files.readP_writeP]
  f j := by simp [h.regs]
  p j hj := by simp [Files.readP_writeP, hj, h.regs]
  k j := by simp [h.regs]
  flags := h.flags

end

/-- A failed end completes as R306 and R323 say. -/
theorem completedFail_complete {s : State} {w : CmdWord} (hcur : s.cur = some w) (f : Failure) :
    CompletedFail s (s.complete (.fail f)) w f.cat f.cause where
  err := by rw [State.complete_fail_err, State.curWord_of_cur hcur]
  status := rfl
  cur := rfl
  regs := rfl
  flags := rfl
  cfg := rfl
  snapshot := rfl
  ctrl := rfl
  cmd := rfl
  inbox := rfl
  rand := rfl
  readData := rfl

end Sys2Proof.Machine
end

section
/-! The formulas of R211 to R213 against the chord and tangent law on affine points (R17), for any triples of
representatives, on the curve or not. -/

namespace Sys2Proof.Machine

section
variable {c : Config}

/-- A triple of representatives is determined by its values (R15). -/
theorem point_eq_of_toZ (h : c.FieldFacts) {q q' : Point} (hq : isRepPoint c q) (hq' : isRepPoint c q')
    (ex : toZ c q.x = toZ c q'.x) (ey : toZ c q.y = toZ c q'.y) (ez : toZ c q.z = toZ c q'.z) : q = q' := by
  obtain ⟨hx, hy, hz⟩ := hq
  obtain ⟨hx', hy', hz'⟩ := hq'
  cases q
  cases q'
  simp only [Point.mk.injEq]
  exact ⟨(toZ_inj h hx hx').mp ex, (toZ_inj h hy hy').mp ey, (toZ_inj h hz hz').mp ez⟩

theorem toZ_z_ne_zero (h : c.FieldFacts) {q : Point} (hq : isRepPoint c q) (hz : q.z ≠ 0) : toZ c q.z ≠ 0 :=
  fun e => hz ((toZ_eq_zero h hq.2.2).mp e)

theorem z_ne_zero_of_toZ {q : Point} (hz : toZ c q.z ≠ 0) : q.z ≠ 0 := fun e => hz (by rw [e, toZ_zero])

/-! ### MAdd is Add (R213) -/

/-- With a Normalized right operand the formula of MAdd gives the triple of Add's: Z2 is ONE. -/
theorem maddFormula_eq_addFormula (h : c.FieldFacts) {q1 q2 : Point} (h1 : isRepPoint c q1) (h2 : isRepPoint c q2)
    (hz : q2.z = c.rm) : maddFormula c q1 q2 = addFormula c q1 q2 := by
  obtain ⟨ex, ey, ez⟩ := toZ_addFormula h h1 h2
  rw [hz, toZ_rm h] at ex ey ez
  have ⟨hx1, hy1, hz1⟩ := h1
  have ⟨hx2, hy2, hz2⟩ := h2
  have hvalues : toZ c (maddFormula c q1 q2).x = toZ c (addFormula c q1 q2).x ∧
      toZ c (maddFormula c q1 q2).y = toZ c (addFormula c q1 q2).y ∧
      toZ c (maddFormula c q1 q2).z = toZ c (addFormula c q1 q2).z := by
    rw [ex, ey, ez]
    simp (disch := repeat first | assumption | apply sq_rep h | apply montMul_rep h | apply fieldAdd_rep |
      apply fieldSub_rep) only [maddFormula, toZ_fieldSub, toZ_fieldAdd, toZ_sq h, toZ_montMul h]
    exact ⟨by ring, by ring, by ring⟩
  obtain ⟨hx, hy, hz⟩ := hvalues
  exact point_eq_of_toZ h (maddFormula_rep h h1 h2) (addFormula_rep h h1 h2) hx hy hz

/-- ONE is neutral for ⊗ on representatives. -/
theorem montMul_rm (h : c.FieldFacts) {a : Nat} (ha : a < c.p) : montMul c a c.rm = a :=
  (toZ_inj h (montMul_rep h ha (rm_rep h)) ha).mp (by rw [toZ_montMul h, toZ_rm h, mul_one])

theorem mixedEqual_eq_crossEqual (h : c.FieldFacts) {q1 : Point} (h1 : isRepPoint c q1) {q2 : Point}
    (hz : q2.z = c.rm) : mixedEqual c q1 q2 = crossEqual c q1 q2 := by
  obtain ⟨hx1, hy1, -⟩ := h1
  simp only [mixedEqual, crossEqual, hz, sq, montMul_rm h (rm_rep h), montMul_rm h hx1, montMul_rm h hy1]

/-- On a right operand that MAdd accepts, it answers Add's triple (R212, R213). -/
theorem pointMAdd?_eq_pointAdd (h : c.FieldFacts) {q1 q2 : Point} (h1 : isRepPoint c q1) (h2 : isRepPoint c q2)
    (hz : q2.z = c.rm ∨ q2.z = 0) : pointMAdd? c q1 q2 = some (pointAdd c q1 q2) := by
  have hok : ¬(q2.z ≠ c.rm ∧ q2.z ≠ 0) := fun hbad => hz.elim hbad.1 hbad.2
  unfold pointMAdd? pointAdd
  rw [if_neg hok]
  split
  · rfl
  split
  · rfl
  case isFalse hz2 =>
    have hone : q2.z = c.rm := hz.resolve_right hz2
    rw [mixedEqual_eq_crossEqual h h1 hone, maddFormula_eq_addFormula h h1 h2 hone]
    split <;> rfl

/-! ### The triples of R210 -/

/-- A draw concerns Finite results only (R210). -/
theorem choosePoint_of_infinity (s : State) {q : Point} (hz : q.z = 0) : s.choosePoint q = q :=
  (choosePoint_cases s q).resolve_right fun e => e.1 hz

theorem choosePoint_isTripleOf {s : State} (h : s.cfg.FieldFacts) (q : Point) :
    IsTripleOf s.cfg q (s.choosePoint q) := by
  cases hpf : s.cfg.pointFormulas with
  | efd => exact .inl (choosePoint_efd hpf q)
  | drawn =>
    rcases choosePoint_cases s q with e | ⟨hz, e⟩
    · exact .inl e
    · obtain ⟨hpos, hlt⟩ := drawnScale_bounds h s.draws
      exact .inr ⟨hpf, hz, _, hpos, hlt, e⟩

theorem sumTriple_isTripleOf {s : State} (h : s.cfg.FieldFacts) (q1 q2 sum : Point) :
    IsTripleOf s.cfg sum (s.sumTriple q1 q2 sum) := by
  unfold State.sumTriple
  split
  · exact .inl rfl
  · exact choosePoint_isTripleOf h sum

/-- No draw concerns a sum with an Infinity operand (R212). -/
theorem sumTriple_of_infinity (s : State) {q1 q2 : Point} (hz : q1.z = 0 ∨ q2.z = 0) (sum : Point) :
    s.sumTriple q1 q2 sum = sum := by
  unfold State.sumTriple
  rw [if_pos (by simpa [isInf] using hz)]

theorem LogicalEq.refl (c : Config) (q : Point) : LogicalEq c q q := by
  by_cases hz : q.z = 0
  · exact .inl ⟨hz, hz⟩
  · exact .inr ⟨hz, hz, rfl, rfl⟩

/-- The chord and tangent law speaks of the logical point, but for a sum with an Infinity operand. -/
theorem IsGroupSum.of_logicalEq {q1 q2 base q : Point} (hs : IsGroupSum c q1 q2 base) (hq : LogicalEq c q base)
    (hinf : q1.z = 0 ∨ q2.z = 0 → q = base) : IsGroupSum c q1 q2 q := by
  obtain ⟨hleft, hright, hfinite⟩ := hs
  have third {l : ZMod c.p} {x2 : ZMod c.p} (ht : IsThirdPoint c l q1 x2 base) : IsThirdPoint c l q1 x2 q := by
    rcases hq with ⟨-, hz⟩ | ⟨hz, -, ex, ey⟩
    · exact absurd hz ht.1
    · unfold IsThirdPoint
      rw [ex, ey]
      exact ⟨hz, ht.2⟩
  have infinity (hz : base.z = 0) : q.z = 0 := by
    rcases hq with ⟨hz', -⟩ | ⟨-, hne, -⟩
    · exact hz'
    · exact absurd hz hne
  refine ⟨fun h1 => hinf (.inl h1) ▸ hleft h1, fun h1 h2 => hinf (.inr h2) ▸ hright h1 h2, fun h1 h2 => ?_⟩
  obtain ⟨chord, opposite, vertical, tangent⟩ := hfinite h1 h2
  exact ⟨fun hx => third (chord hx), fun hx hy => infinity (opposite hx hy),
    fun hx hy h0 => infinity (vertical hx hy h0), fun hx hy h0 => third (tangent hx hy h0)⟩

variable [Fact c.p.Prime]

/-- A scaling of a Finite triple is another triple of its logical point (R17, R210). -/
theorem rescale_logicalEq (h : c.FieldFacts) {lam : Nat} (hpos : 0 < lam) (hlt : lam < c.p) {q : Point}
    (hq : isRepPoint c q) (hz : q.z ≠ 0) : LogicalEq c (rescale c lam q) q := by
  have hl : toZ c lam ≠ 0 := fun e => hpos.ne' ((toZ_eq_zero h hlt).mp e)
  have hZ := toZ_z_ne_zero h hq hz
  refine .inr ⟨z_ne_zero_of_toZ (c := c) ?_, hz, ?_, ?_⟩
  · simpa [rescale, toZ_montMul h] using ⟨hl, hZ⟩
  · simp only [affineX, rescale, toZ_montMul h, toZ_sq h]
    field_simp
  · simp only [affineY, rescale, toZ_montMul h, toZ_sq h]
    field_simp

theorem IsTripleOf.logicalEq (h : c.FieldFacts) {base q : Point} (hb : isRepPoint c base) (hq : IsTripleOf c base q) :
    LogicalEq c q base := by
  rcases hq with rfl | ⟨-, hz, lam, hpos, hlt, rfl⟩
  · exact .refl c _
  · exact rescale_logicalEq h hpos hlt hb hz

/-! ### The cases of Add (R212) -/

section
variable {q1 q2 : Point} (h : c.FieldFacts) (h1 : isRepPoint c q1) (h2 : isRepPoint c q2) (hz1 : q1.z ≠ 0)
  (hz2 : q2.z ≠ 0)
include h h1 h2 hz1 hz2

/-- U1 = U2 says that the affine x are equal. -/
theorem affineX_eq_iff :
    affineX c q1 = affineX c q2 ↔ toZ c q1.x * toZ c q2.z ^ 2 = toZ c q2.x * toZ c q1.z ^ 2 := by
  have hZ1 := toZ_z_ne_zero h h1 hz1
  have hZ2 := toZ_z_ne_zero h h2 hz2
  unfold affineX
  rw [← div_eq_mul_inv, ← div_eq_mul_inv, div_eq_div_iff (pow_ne_zero 2 hZ1) (pow_ne_zero 2 hZ2)]

/-- S1 = S2 says that the affine y are equal. -/
theorem affineY_eq_iff :
    affineY c q1 = affineY c q2 ↔ toZ c q1.y * toZ c q2.z ^ 3 = toZ c q2.y * toZ c q1.z ^ 3 := by
  have hZ1 := toZ_z_ne_zero h h1 hz1
  have hZ2 := toZ_z_ne_zero h h2 hz2
  unfold affineY
  rw [← div_eq_mul_inv, ← div_eq_mul_inv, div_eq_div_iff (pow_ne_zero 3 hZ1) (pow_ne_zero 3 hZ2)]

/-- The doubling test of Add holds exactly on equal affine points (R212, R218). -/
theorem crossEqual_iff : crossEqual c q1 q2 = true ↔ affineX c q1 = affineX c q2 ∧ affineY c q1 = affineY c q2 := by
  have ⟨hx1, hy1, hc1⟩ := h1
  have ⟨hx2, hy2, hc2⟩ := h2
  rw [affineX_eq_iff h h1 h2 hz1 hz2, affineY_eq_iff h h1 h2 hz1 hz2]
  simp only [crossEqual, Bool.and_eq_true, beq_iff_eq]
  refine and_congr ?_ ?_
  · rw [← toZ_inj h (montMul_rep h hx1 (sq_rep h hc2)) (montMul_rep h hx2 (sq_rep h hc1))]
    simp only [toZ_montMul h, toZ_sq h, pow_two]
  · rw [← toZ_inj h (montMul_rep h hy1 (montMul_rep h hc2 (sq_rep h hc2)))
      (montMul_rep h hy2 (montMul_rep h hc1 (sq_rep h hc1)))]
    simp only [toZ_montMul h, toZ_sq h, pow_succ', pow_zero, mul_one]

/-- The differences of the affine coordinates are U2 − U1 and S2 − S1 over a power of Z1·Z2. -/
theorem affine_sub :
    affineX c q2 - affineX c q1 =
      (toZ c q2.x * toZ c q1.z ^ 2 - toZ c q1.x * toZ c q2.z ^ 2) / (toZ c q1.z * toZ c q2.z) ^ 2 ∧
    affineY c q2 - affineY c q1 =
      (toZ c q2.y * toZ c q1.z ^ 3 - toZ c q1.y * toZ c q2.z ^ 3) / (toZ c q1.z * toZ c q2.z) ^ 3 := by
  have hZ1 := toZ_z_ne_zero h h1 hz1
  have hZ2 := toZ_z_ne_zero h h2 hz2
  unfold affineX affineY
  constructor
  · field_simp
  · field_simp

/-- The chord: two affine points of different x. -/
theorem addFormula_isThirdPoint (hx : affineX c q1 ≠ affineX c q2) :
    IsThirdPoint c ((affineY c q2 - affineY c q1) * (affineX c q2 - affineX c q1)⁻¹) q1 (affineX c q2)
      (addFormula c q1 q2) := by
  have t2 := value_two_ne_zero h
  have hZ1 := toZ_z_ne_zero h h1 hz1
  have hZ2 := toZ_z_ne_zero h h2 hz2
  have hU : toZ c q2.x * toZ c q1.z ^ 2 - toZ c q1.x * toZ c q2.z ^ 2 ≠ 0 :=
    fun e => hx ((affineX_eq_iff h h1 h2 hz1 hz2).mpr (sub_eq_zero.mp e).symm)
  obtain ⟨ex, ey, ez⟩ := toZ_addFormula h h1 h2
  obtain ⟨hdx, hdy⟩ := affine_sub h h1 h2 hz1 hz2
  have hx2 := eq_add_of_sub_eq' hdx
  rw [hdx, hdy, hx2]
  generalize toZ c q2.x * toZ c q1.z ^ 2 - toZ c q1.x * toZ c q2.z ^ 2 = D at *
  generalize toZ c q2.y * toZ c q1.z ^ 3 - toZ c q1.y * toZ c q2.z ^ 3 = E at *
  refine ⟨z_ne_zero_of_toZ (c := c) (ez ▸ mul_ne_zero (mul_ne_zero (mul_ne_zero t2 hZ1) hZ2) hU), ?_, ?_⟩
  · simp only [affineX, ex, ez]
    field_simp
    ring
  · simp only [affineX, affineY, ex, ey, ez]
    field_simp
    ring

/-- The vertical line: one x, two values of y. -/
theorem addFormula_z_eq_zero (hx : affineX c q1 = affineX c q2) : (addFormula c q1 q2).z = 0 := by
  obtain ⟨-, -, ez⟩ := toZ_addFormula h h1 h2
  refine (toZ_eq_zero h (addFormula_rep h h1 h2).2.2).mp ?_
  rw [ez, (affineX_eq_iff h h1 h2 hz1 hz2).mp hx, sub_self, mul_zero]

end

/-! ### The cases of Dbl (R211) -/

/-- The tangent: y is not 0. -/
theorem dblFormula_isThirdPoint (h : c.FieldFacts) {q : Point} (hq : isRepPoint c q) (hz : q.z ≠ 0)
    (hy : affineY c q ≠ 0) :
    IsThirdPoint c (3 * affineX c q ^ 2 * (2 * affineY c q)⁻¹) q (affineX c q) (dblFormula c q) := by
  have t2 := value_two_ne_zero h
  have hZ := toZ_z_ne_zero h hq hz
  have hY : toZ c q.y ≠ 0 := left_ne_zero_of_mul hy
  obtain ⟨ex, ey, ez⟩ := toZ_dblFormula h hq
  refine ⟨z_ne_zero_of_toZ (ez ▸ mul_ne_zero (mul_ne_zero t2 hY) hZ), ?_, ?_⟩
  · simp only [affineX, affineY, ex, ez]
    field_simp
    ring
  · simp only [affineX, affineY, ex, ey, ez]
    field_simp
    ring

/-- The vertical tangent: y is 0. -/
theorem dblFormula_z_eq_zero (h : c.FieldFacts) {q : Point} (hq : isRepPoint c q) (hz : q.z ≠ 0)
    (hy : affineY c q = 0) : (dblFormula c q).z = 0 := by
  have hY : toZ c q.y = 0 :=
    (mul_eq_zero.mp hy).resolve_right (inv_ne_zero (pow_ne_zero 3 (toZ_z_ne_zero h hq hz)))
  obtain ⟨-, -, ez⟩ := toZ_dblFormula h hq
  refine (toZ_eq_zero h (dblFormula_rep h hq).2.2).mp ?_
  rw [ez, hY, mul_zero, zero_mul]

/-! ### Add and Dbl are the chord and tangent law -/

theorem pointAdd_self (h : c.FieldFacts) {q : Point} (hq : isRepPoint c q) : pointAdd c q q = pointDbl c q := by
  unfold pointAdd
  split
  case isTrue hz => rw [pointDbl, if_pos hz]
  case isFalse hz => rw [if_pos ((crossEqual_iff h hq hq hz hz).mpr ⟨rfl, rfl⟩)]

theorem pointAdd_isGroupSum (h : c.FieldFacts) {q1 q2 : Point} (h1 : isRepPoint c q1) (h2 : isRepPoint c q2) :
    IsGroupSum c q1 q2 (pointAdd c q1 q2) := by
  refine ⟨fun hz1 => if_pos hz1, fun hz1 hz2 => by rw [pointAdd, if_neg hz1, if_pos hz2], fun hz1 hz2 => ?_⟩
  have hsame := crossEqual_iff h h1 h2 hz1 hz2
  have adds (hne : ¬(affineX c q1 = affineX c q2 ∧ affineY c q1 = affineY c q2)) :
      pointAdd c q1 q2 = addFormula c q1 q2 := by
    rw [pointAdd, if_neg hz1, if_neg hz2, if_neg (fun e => hne (hsame.mp e))]
  have doubles (hx : affineX c q1 = affineX c q2) (hy : affineY c q1 = affineY c q2) :
      pointAdd c q1 q2 = dblFormula c q1 := by
    rw [pointAdd, if_neg hz1, if_neg hz2, if_pos (hsame.mpr ⟨hx, hy⟩), pointDbl, if_neg hz1]
  refine ⟨fun hx => ?_, fun hx hy => ?_, fun hx hy h0 => ?_, fun hx hy h0 => ?_⟩
  · rw [adds fun e => hx e.1]; exact addFormula_isThirdPoint h h1 h2 hz1 hz2 hx
  · rw [adds fun e => hy e.2]; exact addFormula_z_eq_zero h h1 h2 hz1 hz2 hx
  · rw [doubles hx hy]; exact dblFormula_z_eq_zero h h1 hz1 h0
  · rw [doubles hx hy]; exact dblFormula_isThirdPoint h h1 hz1 h0

theorem pointDbl_isGroupSum (h : c.FieldFacts) {q : Point} (hq : isRepPoint c q) :
    IsGroupSum c q q (pointDbl c q) :=
  pointAdd_self h hq ▸ pointAdd_isGroupSum h hq hq

end

/-- PNEG's Y is the negation modulo p (R217). -/
theorem pointNeg_eq {c : Config} {q : Point} (hq : isRepPoint c q) :
    pointNeg c q = ⟨q.x, (c.p - q.y) % c.p, q.z⟩ := by
  obtain ⟨-, hy, -⟩ := hq
  unfold pointNeg fieldNeg
  split
  case isTrue h0 => rw [h0, Nat.sub_zero, Nat.mod_self]
  case isFalse h0 => rw [Nat.mod_eq_of_lt (by omega)]

end Sys2Proof.Machine
end

section
/-! The commands PADD, PDBL, PNEG and PMADD (R214 to R217). -/

namespace Sys2Proof.Machine

theorem exec_padd (d a b : PReg) (s : State) : exec (.padd d a b) s =
    .next (s.tick.complete
      (.ok [.p d (s.sumTriple (s.srcP a) (s.srcP b) (pointAdd s.cfg (s.srcP a) (s.srcP b)))] none)) := rfl

/-- With a right operand that MAdd accepts, PMADD is PADD. -/
theorem exec_pmadd_of_accepted {s : State} (h : s.cfg.FieldFacts) {a b : PReg} (ha : isRepPoint s.cfg (s.srcP a))
    (hb : isRepPoint s.cfg (s.srcP b)) (hz : (s.srcP b).z = s.cfg.rm ∨ (s.srcP b).z = 0) (d : PReg) :
    exec (.pmadd d a b) s = exec (.padd d a b) s := by
  simp only [exec, execPmadd, pointMAdd?_eq_pointAdd h ha hb hz]
  rfl

/-- PMADD refuses a right operand that is neither Infinity nor Normalized (R213, R215). -/
theorem exec_pmadd_of_refused {s : State} {b : PReg} (hrm : (s.srcP b).z ≠ s.cfg.rm) (h0 : (s.srcP b).z ≠ 0)
    (d a : PReg) : exec (.pmadd d a b) s = .next (s.complete (.fail (Cause.failure .maddNotNormalized))) := by
  simp only [exec, execPmadd, (pointMAdd?_eq_none (s.srcP a) (s.srcP b)).mpr ⟨hrm, h0⟩]

/-- PADD completes with the sum, as a triple that POINT_FORMULAS allows (R210, R214). -/
theorem exec_padd_completes {s : State} {w : CmdWord} {a b : PReg} (hv : s.cfg.FieldValid)
    (ha : isRepPoint s.cfg (s.srcP a)) (hb : isRepPoint s.cfg (s.srcP b)) (hcur : s.cur = some w) (d : PReg) :
    ∃ t q, exec (.padd d a b) s = .next t ∧ CompletedOk s t w ∧ OnlyP s t d q ∧
      IsGroupSum s.cfg (s.srcP a) (s.srcP b) q ∧ IsTripleOf s.cfg (pointAdd s.cfg (s.srcP a) (s.srcP b)) q := by
  have h := Config.admissible_fieldFacts hv.admissible
  have : Fact s.cfg.p.Prime := ⟨hv.prime⟩
  have htriple := sumTriple_isTripleOf h (s.srcP a) (s.srcP b) (pointAdd s.cfg (s.srcP a) (s.srcP b))
  have hsum := (pointAdd_isGroupSum h ha hb).of_logicalEq (htriple.logicalEq h (pointAdd_rep h ha hb))
    fun hz => sumTriple_of_infinity s hz _
  exact ⟨_, _, exec_padd d a b s, completedOk_complete (tick_same s) rfl hcur _ _, onlyP_complete (tick_same s) d _,
    hsum, htriple⟩

/-- Settles O48: the word by the decoder's fields, the sum by the cases of Add. -/
theorem paddAddsInTheGroup : Obligations.PaddAddsInTheGroup := by
  unfold Obligations.PaddAddsInTheGroup
  intro s w d a b hv ha hb hcur
  have : Fact s.cfg.p.Prime := ⟨hv.prime⟩
  obtain ⟨t, q, hexec, hdone, honly, hsum, htriple⟩ := exec_padd_completes hv ha hb hcur d
  refine ⟨decode_packWord (by decide) .., t, q, hexec, hdone, honly, hsum, htriple, ?_⟩
  rintro rfl -
  exact pointAdd_self (Config.admissible_fieldFacts hv.admissible) ha

/-- Settles O49: doubling is adding a point to itself, and negation is `pointNeg_eq`. -/
theorem pdblDoublesAndPnegNegates : Obligations.PdblDoublesAndPnegNegates := by
  unfold Obligations.PdblDoublesAndPnegNegates
  intro s w d a hv ha hcur
  have h := Config.admissible_fieldFacts hv.admissible
  have : Fact s.cfg.p.Prime := ⟨hv.prime⟩
  have htriple := choosePoint_isTripleOf h (pointDbl s.cfg (s.srcP a))
  have hinf (hz : (s.srcP a).z = 0) : s.choosePoint (pointDbl s.cfg (s.srcP a)) = pointDbl s.cfg (s.srcP a) := by
    rw [pointDbl, if_pos hz]
    exact choosePoint_of_infinity s hz
  have hsum := (pointDbl_isGroupSum h ha).of_logicalEq (htriple.logicalEq h (pointDbl_rep h ha)) fun hz =>
    hinf (or_self_iff.mp hz)
  refine ⟨⟨decode_packWord (by decide) .., _, _, rfl, completedOk_complete (tick_same s) rfl hcur _ _,
    onlyP_complete (tick_same s) d _, hsum, htriple⟩, decode_packWord (by decide) .., _, rfl,
    completedOk_complete (.refl s) rfl hcur _ _, ?_⟩
  rw [← pointNeg_eq ha]
  exact onlyP_complete (.refl s) d _

/-- Settles O50: a refused operand fails before anything else, and with an accepted one PMADD is PADD. -/
theorem pmaddChecksThenAdds : Obligations.PmaddChecksThenAdds := by
  unfold Obligations.PmaddChecksThenAdds
  intro s w d a b hv ha hb hcur
  have h := Config.admissible_fieldFacts hv.admissible
  have : Fact s.cfg.p.Prime := ⟨hv.prime⟩
  refine ⟨decode_packWord (by decide) .., fun hrm h0 => ?_, fun hz => ?_⟩
  · exact ⟨_, exec_pmadd_of_refused hrm h0 d a, completedFail_complete hcur _⟩
  · obtain ⟨t, q, hexec, hdone, honly, hsum, htriple⟩ := exec_padd_completes hv ha hb hcur d
    exact ⟨t, q, _, (exec_pmadd_of_accepted h ha hb hz d).trans hexec, hdone, honly, hsum,
      pointMAdd?_eq_pointAdd h ha hb hz, htriple, htriple.logicalEq h (pointAdd_rep h ha hb)⟩

end Sys2Proof.Machine
end

section
/-! The control and status registers bit by bit (R43 to R54): what the host reads at each offset, and what its writes of
STATUS and CTRL change (R39, R44, R45). -/

namespace Sys2Proof.Machine

/-! ### The words -/

theorem Ctrl.word_getLsbD (v : Ctrl) (i : Nat) : v.word.getLsbD i = [v.ieDone, v.ieErr].getD i false := by
  have e : v.word = (BitVec.ofBoolListLE [v.ieDone, v.ieErr]).setWidth 64 := by
    obtain ⟨done, err⟩ := v
    revert done err
    decide
  rw [e, BitVec.getLsbD_setWidth, BitVec.getLsbD_ofBoolListLE]
  rcases i with _ | _ | i <;> simp

theorem Flags.word_getLsbD (v : Flags) (i : Nat) : v.word.getLsbD i = [v.t, v.z].getD i false :=
  Ctrl.word_getLsbD ⟨v.t, v.z⟩ i

theorem Status.word_getLsbD (v : Status) (i : Nat) :
    v.word.getLsbD i = [v.busy, v.done, v.fail, v.hzd, v.accErr, v.ready].getD i false := by
  have e : v.word = (BitVec.ofBoolListLE [v.busy, v.done, v.fail, v.hzd, v.accErr, v.ready]).setWidth 64 := by
    obtain ⟨busy, done, fail, hzd, accErr, ready⟩ := v
    revert busy done fail hzd accErr ready
    decide
  rw [e, BitVec.getLsbD_setWidth, BitVec.getLsbD_ofBoolListLE]
  rcases i with _ | _ | _ | _ | _ | _ | i <;> simp

/-- A word whose bits are a list's has RES0 above them. -/
theorem reserved_bits_zero {v : BusWord} {bs : List Bool} (h : ∀ i, v.getLsbD i = bs.getD i false) (len : Nat) :
    v.extractLsb' bs.length len = 0 := by
  refine BitVec.eq_of_getLsbD_eq fun i _ => ?_
  rw [BitVec.getLsbD_extractLsb', h, List.getD_eq_default _ _ (Nat.le_add_right _ _)]
  simp

theorem Ctrl.word_toNat (v : Ctrl) : v.word.toNat = bitAt v.ieDone 0 + bitAt v.ieErr 1 := by
  obtain ⟨done, err⟩ := v
  revert done err
  decide

theorem idWord_toNat {c : Config} (h : c.n ≤ 32) : c.idWord.toNat = 0x0000001010100100 + c.n := by
  simp only [Config.idWord, BitVec.toNat_ofNat]
  omega

theorem Category.code_lt (c : Category) : c.code < 2 ^ 4 := by cases c <;> decide

theorem Cause.code_lt (c : Cause) : c.code < 2 ^ 8 := by cases c <;> decide

/-- A field of the ERR word, as a number (R54). -/
theorem ErrReg.word_field (v : ErrReg) (start len : Nat) :
    (v.word.extractLsb' start len).toNat =
      (v.cat.code + v.cause.code * 2 ^ 8 + v.cmdw.toNat * 2 ^ 32) / 2 ^ start % 2 ^ len := by
  have hcat := v.cat.code_lt
  have hcause := v.cause.code_lt
  have hcmdw := v.cmdw.isLt
  have hword : v.word.toNat = v.cat.code + v.cause.code * 2 ^ 8 + v.cmdw.toNat * 2 ^ 32 := by
    rw [ErrReg.word, BitVec.toNat_ofNat, Nat.mod_eq_of_lt (by omega)]
  rw [BitVec.extractLsb'_toNat, Nat.shiftRight_eq_div_pow, hword]

/-- The fields of ERR: CAT in 3:0, CAUSE in 15:8, CMDW in 63:32, and RES0 between them (R54). -/
theorem ErrReg.word_fields (v : ErrReg) :
    (v.word.extractLsb' 0 4).toNat = v.cat.code ∧ v.word.extractLsb' 4 4 = 0 ∧
      (v.word.extractLsb' 8 8).toNat = v.cause.code ∧ v.word.extractLsb' 16 16 = 0 ∧
      v.word.extractLsb' 32 32 = v.cmdw := by
  have hcat := v.cat.code_lt
  have hcause := v.cause.code_lt
  have hcmdw := v.cmdw.isLt
  refine ⟨?_, BitVec.eq_of_toNat_eq ?_, ?_, BitVec.eq_of_toNat_eq ?_, BitVec.eq_of_toNat_eq ?_⟩
  all_goals rw [ErrReg.word_field]
  · omega
  · simp only [BitVec.ofNat_eq_ofNat, BitVec.toNat_ofNat]; omega
  · omega
  · simp only [BitVec.ofNat_eq_ofNat, BitVec.toNat_ofNat]; omega
  · omega

/-- CMD reads the word, zero-extended (R53). -/
theorem State.cmdReadWord_fields (s : State) :
    s.cmdReadWord.extractLsb' 0 32 = s.cmd ∧ s.cmdReadWord.extractLsb' 32 32 = 0 := by
  refine ⟨?_, ?_⟩
  · simp [State.cmdReadWord, BitVec.extractLsb'_setWidth_of_le]
  · refine BitVec.eq_of_getLsbD_eq fun i _ => ?_
    simp [State.cmdReadWord, BitVec.getLsbD_setWidth]

/-! ### Reads and writes -/

theorem busRead_csr_readData (s : State) (r : Csr) : (s.busRead (s.cfg.base + r.offset) 64).readData = s.readCsr r := by
  rw [busRead_csr]; rfl

/-- Settles O26: the read at each offset returns that register's word, whose bits and fields are the lemmas above. -/
theorem registerReadsShowTheirFields : Obligations.RegisterReadsShowTheirFields := by
  unfold Obligations.RegisterReadsShowTheirFields
  intro s hn
  have hid : (s.busRead (s.cfg.base + 0x000) 64).readData = s.cfg.idWord := busRead_csr_readData s .id
  have hctrl : (s.busRead (s.cfg.base + 0x008) 64).readData = s.ctrl.word := busRead_csr_readData s .ctrl
  have hstatus : (s.busRead (s.cfg.base + 0x010) 64).readData = s.status.word := busRead_csr_readData s .status
  have hcmd : (s.busRead (s.cfg.base + 0x018) 64).readData = s.cmdReadWord := busRead_csr_readData s .cmd
  have herr : (s.busRead (s.cfg.base + 0x020) 64).readData = s.err.word := busRead_csr_readData s .err
  have hflags : (s.busRead (s.cfg.base + 0x028) 64).readData = s.flags.word := busRead_csr_readData s .flags
  simp only [hid, hctrl, hstatus, hcmd, herr, hflags]
  have hbit := s.status.word_getLsbD
  obtain ⟨hword, hzero⟩ := s.cmdReadWord_fields
  obtain ⟨hcat, hres1, hcause, hres2, hcmdw⟩ := s.err.word_fields
  exact ⟨idWord_toNat hn, s.ctrl.word_toNat, hbit 0, hbit 1, hbit 2, hbit 3, hbit 4, hbit 5,
    reserved_bits_zero hbit 58, hword, hzero, hcat, hres1, hcause, hres2, hcmdw, s.flags.word_getLsbD 0,
    s.flags.word_getLsbD 1, reserved_bits_zero s.flags.word_getLsbD 62⟩

/-- CTRL reads back the two enables of the value written (R44). -/
theorem Ctrl.word_ofWord (v : BusWord) : (Ctrl.ofWord v).word = v &&& 0x3 := by
  refine BitVec.eq_of_getLsbD_eq fun i hi => ?_
  rw [Ctrl.word_getLsbD, BitVec.getLsbD_and]
  match i with
  | 0 => simp [Ctrl.ofWord]
  | 1 => simp [Ctrl.ofWord]
  | i + 2 => simp [BitVec.getLsbD_ofNat, Nat.testBit_add_one]

/-- A write of STATUS clears DONE, FAIL, HZD and ACCERR where the value has a 1 (R39, R45). -/
theorem Status.word_writeOneToClear (st : Status) (v : BusWord) :
    (st.writeOneToClear v).word = st.word &&& ~~~(v &&& 0x1E) := by
  refine BitVec.eq_of_getLsbD_eq fun i hi => ?_
  rw [BitVec.getLsbD_and, BitVec.getLsbD_not, BitVec.getLsbD_and, Status.word_getLsbD, Status.word_getLsbD]
  match i with
  | 0 | 1 | 2 | 3 | 4 | 5 => simp [Status.writeOneToClear]
  | i + 6 => simp

/-- Settles O23: the write at each offset is that register's write. -/
theorem statusWritesClearAndCtrlWritesSet : Obligations.StatusWritesClearAndCtrlWritesSet := by
  unfold Obligations.StatusWritesClearAndCtrlWritesSet
  intro s v
  have hctrl : s.busWrite (s.cfg.base + 0x008) 64 v = { s with ctrl := Ctrl.ofWord v } := busWrite_csr s .ctrl v
  have hstatus : s.busWrite (s.cfg.base + 0x010) 64 v = { s with status := s.status.writeOneToClear v } :=
    busWrite_csr s .status v
  simp only [hctrl, hstatus]
  exact ⟨Ctrl.word_ofWord v, trivial, s.status.word_writeOneToClear v, trivial⟩

end Sys2Proof.Machine
end

section
/-! Which accesses the window does not define (R73, R74), and what a read of one changes (R78). -/

namespace Sys2Proof.Machine

theorem windowOffset_eq_some {c : Config} {addr off : Nat} :
    windowOffset c addr = some off ↔ (c.base ≤ addr ∧ addr < c.base + windowSize) ∧ addr - c.base = off := by
  unfold windowOffset
  split <;> simp_all

/-- No register stands at an aligned offset from 0x30 on (R71). -/
theorem Csr.at?_eq_none {off : Nat} (h : off % 8 = 0) : Csr.at? off = none ↔ 0x30 ≤ off := by
  unfold Csr.at?
  split
  case h_7 => simp only [imp_false] at *; simp only [true_iff]; omega
  all_goals simp

/-- The accesses that address nothing: of a wrong width or alignment, or at an undefined offset (R73, R74). -/
theorem locate_eq_undefined {c : Config} {off width : Nat} :
    locate c off width = .undefined ↔ width ≠ 64 ∨ off % 8 ≠ 0 ∨ (0x0030 ≤ off ∧ off < 0x1000) ∨
      (0x1000 ≤ off ∧ c.n ≤ off % 0x100 / 8) := by
  by_cases hbad : width ≠ 64 ∨ off % 8 ≠ 0
  · rw [locate_bad_access c hbad]; tauto
  rw [locate, if_neg hbad]
  push Not at hbad
  obtain ⟨hwidth, halign⟩ := hbad
  split
  case isTrue hlow =>
    have hcsr := Csr.at?_eq_none halign
    cases hat : Csr.at? off with
    | some r =>
      have hlt : ¬0x30 ≤ off := fun hle => by simp [hcsr.mpr hle] at hat
      simp only [reduceCtorEq, false_iff]; omega
    | none =>
      have hle := hcsr.mp hat
      simp only [true_iff]; omega
  case isFalse hhigh =>
    simp only
    split
    case isTrue hlimb => simp only [reduceCtorEq, false_iff]; omega
    case isFalse hlimb => simp only [true_iff]; omega

/-- Settles O25: an address outside the window reads nothing, and inside it the cases of a read decide. -/
theorem readsChangeOnlyAccerr : Obligations.ReadsChangeOnlyAccerr := by
  unfold Obligations.ReadsChangeOnlyAccerr
  intro s addr width
  cases hoff : windowOffset s.cfg addr with
  | none =>
    have e : s.busRead addr width = s := by simp only [State.busRead, hoff]
    simp only [e]
    exact ⟨trivial, fun h => absurd rfl h⟩
  | some off =>
    have e : s.busRead addr width = s.hostRead (locate s.cfg off width) := by simp only [State.busRead, hoff]
    obtain ⟨⟨hbase, htop⟩, rfl⟩ := windowOffset_eq_some.mp hoff
    simp only [e]
    rcases hostRead_cases s (locate s.cfg (addr - s.cfg.base) width) with ⟨hundef, er⟩ | ⟨-, d, n, er⟩
    · rw [er]
      exact ⟨rfl, fun _ => ⟨rfl, hbase, htop, locate_eq_undefined.mp hundef⟩⟩
    · rw [er]
      exact ⟨rfl, fun h => absurd rfl h⟩

end Sys2Proof.Machine
end

section
/-! What the transitions of R309 keep: the configuration (R59), and READY but at InitDone and at reset (R51). -/

namespace Sys2Proof.Machine

/-! ### Reset -/

theorem resetWith_inv {c : Config} (h : c.admissible = true) : (State.resetWith c).Inv := by
  have hok := Files.atReset_ok (Config.admissible_fieldFacts h)
  exact ⟨h, hok, hok, ⟨rfl, fun _ => rfl, by simp [State.resetWith]⟩, rfl⟩

/-- Settles O8: reset is within the bounds and idle in INIT, and TOY97 is admissible. -/
theorem resetMeetsTheInvariant : Obligations.ResetMeetsTheInvariant := by
  unfold Obligations.ResetMeetsTheInvariant
  exact ⟨fun _ => resetWith_inv, resetWith_inv toy97_valid.admissible⟩

/-! ### Commands, accesses and the engine's turn -/

theorem exec_cfg_ready {i : Instr} {s t : State} (h : exec i s = .next t) :
    t.cfg = s.cfg ∧ t.status.ready = s.status.ready := by
  rcases exec_cases i s with ⟨s', o, hs, e⟩ | ⟨d, -, -, e⟩
  · obtain rfl := Host.Outcome.next.inj (e.symm.trans h)
    rw [← hs.cfg, ← hs.status]
    cases o with
    | ok ws fl => exact ⟨rfl, rfl⟩
    | fail f => exact ⟨rfl, rfl⟩
  · obtain rfl := Host.Outcome.next.inj (e.symm.trans h)
    exact ⟨(afterRound_same s).cfg, congrArg Status.ready (afterRound_same s).status⟩

theorem busRead_cfg_ready (s : State) (addr width : Nat) :
    (s.busRead addr width).cfg = s.cfg ∧ (s.busRead addr width).status.ready = s.status.ready := by
  unfold State.busRead
  split
  case h_1 => exact ⟨rfl, rfl⟩
  case h_2 off _ =>
    rcases hostRead_cases s (locate s.cfg off width) with ⟨-, e⟩ | ⟨-, d, n, e⟩
    · rw [e]; exact ⟨rfl, rfl⟩
    · rw [e]; exact ⟨rfl, rfl⟩

theorem busWrite_cfg_ready (s : State) (addr width : Nat) (v : BusWord) :
    (s.busWrite addr width v).cfg = s.cfg ∧ (s.busWrite addr width v).status.ready = s.status.ready := by
  unfold State.busWrite
  split
  case h_1 => exact ⟨rfl, rfl⟩
  case h_2 off _ =>
    rcases hostWrite_cases s v (locate s.cfg off width) with
      e | e | ⟨-, e⟩ | ⟨-, e⟩ | ⟨-, -, e⟩ | ⟨i, j, -, -, e⟩
    all_goals rw [e]; exact ⟨rfl, rfl⟩

/-- The engine's turn never clears READY. -/
theorem engineTurn_cfg_ready {s t : State} (h : engineTurn s = .next t) :
    t.cfg = s.cfg ∧ (s.status.ready = true → t.status.ready = true) := by
  rcases engineTurn_cases s with ⟨-, e⟩ | ⟨-, -, e⟩ | ⟨w, de, -, -, -, e⟩ | ⟨w, i, -, -, -, e⟩
  · obtain rfl := Host.Outcome.next.inj (e.symm.trans h)
    exact ⟨rfl, fun _ => rfl⟩
  · obtain rfl := Host.Outcome.next.inj (e.symm.trans h)
    exact ⟨rfl, id⟩
  · obtain rfl := Host.Outcome.next.inj (e.symm.trans h)
    exact ⟨rfl, id⟩
  · obtain ⟨hcfg, hready⟩ := exec_cfg_ready (e.symm.trans h)
    exact ⟨hcfg, fun hr => hready.trans hr⟩

/-! ### One step -/

/-- A step keeps the configuration and is the engine's turn, which never clears READY, a reset, which does, or an access
of the host, which keeps it. -/
theorem step_cfg_ready {s t : State} (h : step s = .next t) : t.cfg = s.cfg ∧
    (((s.inbox = [] ∨ ∃ rest, s.inbox = .engine :: rest) ∧ (s.status.ready = true → t.status.ready = true)) ∨
      ((∃ rest, s.inbox = .reset :: rest) ∧ t.status.ready = false) ∨
      ((∀ rest, s.inbox ≠ .reset :: rest) ∧ t.status.ready = s.status.ready)) := by
  obtain ⟨-, ht⟩ := step_eq_next.mp h
  cases hin : s.inbox with
  | nil =>
    rw [transition_engine (.inl hin)] at ht
    obtain ⟨hcfg, hready⟩ := engineTurn_cfg_ready ht
    exact ⟨hcfg, .inl ⟨.inl rfl, hready⟩⟩
  | cons e rest =>
    rw [transition_input hin] at ht
    cases e with
    | reset =>
      obtain rfl := Host.Outcome.next.inj ht
      exact ⟨rfl, .inr (.inl ⟨⟨rest, rfl⟩, rfl⟩)⟩
    | read addr width =>
      obtain rfl := Host.Outcome.next.inj ht
      obtain ⟨hcfg, hready⟩ := busRead_cfg_ready { s with inbox := rest } addr width
      exact ⟨hcfg, .inr (.inr ⟨by simp, hready⟩)⟩
    | write addr width v =>
      obtain rfl := Host.Outcome.next.inj ht
      obtain ⟨hcfg, hready⟩ := busWrite_cfg_ready { s with inbox := rest } addr width v
      exact ⟨hcfg, .inr (.inr ⟨by simp, hready⟩)⟩
    | engine =>
      obtain ⟨hcfg, hready⟩ := engineTurn_cfg_ready ht
      exact ⟨hcfg, .inl ⟨.inr ⟨rest, rfl⟩, hready⟩⟩

/-- Settles O10: the constants are functions of the configuration. -/
theorem noStepChangesAConstant : Obligations.NoStepChangesAConstant := by
  unfold Obligations.NoStepChangesAConstant
  intro s t h
  obtain ⟨hcfg, -⟩ := step_cfg_ready h
  rw [hcfg]
  exact ⟨rfl, fun _ => rfl, fun _ => rfl, fun _ => rfl⟩

theorem initDone_readP (s : State) (i : PReg) : s.initDone.regs.readP i = pointO s.cfg := by
  simp [Files.readP, Vector.get_eq_getElem]

/-- Settles O16: InitDone by its fields, the changes of READY by the three kinds of step. -/
theorem readyFollowsInitializationAndReset : Obligations.ReadyFollowsInitializationAndReset := by
  unfold Obligations.ReadyFollowsInitializationAndReset
  refine ⟨fun s hinit => ?_, fun s t h hclear hset => ?_, fun s t h hset hclear => ?_, fun s t rest h hin => ?_⟩
  · exact ⟨_, engineTurn_init hinit, rfl, initDone_readP s, rfl, rfl, rfl, rfl, rfl, rfl, rfl, rfl⟩
  · obtain ⟨-, ⟨hturn, -⟩ | ⟨-, hready⟩ | ⟨-, hready⟩⟩ := step_cfg_ready h
    · exact hturn
    · simp [hset] at hready
    · simp [hset, hclear] at hready
  · obtain ⟨-, ⟨-, hready⟩ | ⟨hreset, -⟩ | ⟨-, hready⟩⟩ := step_cfg_ready h
    · simp [hready hset] at hclear
    · exact hreset
    · simp [hset, hclear] at hready
  · obtain ⟨-, ⟨hturn, -⟩ | ⟨-, hready⟩ | ⟨hno, -⟩⟩ := step_cfg_ready h
    · simp [hin] at hturn
    · exact hready
    · exact absurd hin (hno rest)

end Sys2Proof.Machine
end

section
/-! How a command may end: whether it writes FLAGS (R52, R63), and the causes it may fail with (R311). -/

namespace Sys2Proof.Machine

open Sys2Proof.Spec

/-! ### The ends of a command -/

/-- PBNORM's checks that neither the decoder nor a prime field lets fail: a batch outside the point file (R105), and a
batch of Finite points whose product of Z is zero (R263). -/
def BatchImpossible (s : State) : Instr → Prop
  | .pbnorm a b => batchInRange a b = false ∨ batchNormalize s.cfg ((batchRegs a b).map s.srcP) = .failed .zeroProduct
  | _ => False

/-- A test command writes FLAGS alone and any other command no flag; a failure is of a cause that R311 names for the
command, or of one of `BatchImpossible`. -/
def CmdOutcome.EndOf (s : State) (i : Instr) : CmdOutcome → Prop
  | .ok ws fl => if isTest i then ws = [] else fl = none
  | .fail f =>
    ∃ cause : Cause, f = cause.failure ∧ cause ≠ .none ∧ (mayRaise i cause = true ∨ BatchImpossible s i)

/-- A meaning completes the command with an end of its kind, or FRAND's rejects a round (R175). -/
def EndsInKind (s : State) (i : Instr) (r : Host.Outcome State Fault Refusal) : Prop :=
  (∃ s' o, SameButDraws s s' ∧ CmdOutcome.EndOf s i o ∧ r = .next (s'.complete o)) ∨ r = .next (afterRound s)

section
variable {s s' : State} {i : Instr}

theorem EndsInKind.writes (hi : isTest i = false) (hs : SameButDraws s s') (ws : List RegWrite) :
    EndsInKind s i (.next (s'.complete (.ok ws none))) :=
  .inl ⟨s', _, hs, by simp [CmdOutcome.EndOf, hi], rfl⟩

theorem EndsInKind.flags (hi : isTest i = true) (s : State) (fl : Flags) :
    EndsInKind s i (.next (s.complete (.ok [] (some fl)))) :=
  .inl ⟨s, _, .refl s, by simp [CmdOutcome.EndOf, hi], rfl⟩

theorem EndsInKind.fail {cause : Cause} (hc : cause ≠ .none) (hi : mayRaise i cause = true) (s : State) :
    EndsInKind s i (.next (s.complete (.fail cause.failure))) :=
  .inl ⟨s, .fail _, .refl s, ⟨cause, rfl, hc, .inl hi⟩, rfl⟩

theorem EndsInKind.impossible {cause : Cause} (hc : cause ≠ .none) (hi : BatchImpossible s i) :
    EndsInKind s i (.next (s.complete (.fail cause.failure))) :=
  .inl ⟨s, .fail _, .refl s, ⟨cause, rfl, hc, .inr hi⟩, rfl⟩

end

theorem exec_endsInKind (i : Instr) (s : State) : EndsInKind s i (exec i s) := by
  cases i with
  | tomont d a =>
    simp only [exec, execTomont]
    split
    case isTrue => exact .fail (by decide) rfl s
    case isFalse => exact .writes rfl (.refl s) _
  | frand d =>
    simp only [exec, execFrand]
    split
    case isTrue => exact .writes rfl (afterRound_same s) _
    case isFalse => exact .inr rfl
  | finv d a =>
    simp only [exec, execFinv]
    split
    case h_1 => exact .fail (by decide) rfl s
    case h_2 => exact .writes rfl (.refl s) _
  | fsqrt d a =>
    simp only [exec, execFsqrt]
    split
    case h_1 => exact .fail (by decide) rfl s
    case h_2 => exact .writes rfl (tick_same s) _
  | pmadd d a b =>
    simp only [exec, execPmadd]
    split
    case h_1 => exact .fail (by decide) rfl s
    case h_2 => exact .writes rfl (tick_same s) _
  | pbnorm a b =>
    simp only [exec, execPbnorm]
    split
    case isFalse hrange => exact .impossible (by decide) (.inl (Bool.eq_false_of_not_eq_true hrange))
    case isTrue =>
      split
      case h_1 => exact .fail (by decide) rfl s
      case h_2 hzero => exact .impossible (by decide) (.inr hzero)
      case h_3 => exact .writes rfl (.refl s) _
  | pdcmp d a b =>
    simp only [exec, execPdcmp]
    split
    case h_1 => exact .fail (by decide) rfl s
    case h_2 => exact .fail (by decide) rfl s
    case h_3 => exact .writes rfl (.refl s) _
  | feq | fisz | fqrt | peq | pisz | pwf | pssg => exact .flags rfl s _
  | padd | pdbl | psmul | pcof => exact .writes rfl (tick_same s) _
  | nop | fmov | fldc | fromm | fadd | fsub | fneg | fmul | fsqr | fpow | pmov | pldc | pset | pget | pneg | pnorm
  | pcomp | kldc | kmov => exact .writes rfl (.refl s) _

/-- Settles O12: by how the command ends; a failure and a rejected round leave registers and flags as they were. -/
theorem onlyTestCommandsWriteFlags : Obligations.OnlyTestCommandsWriteFlags := by
  unfold Obligations.OnlyTestCommandsWriteFlags
  intro i s t h
  rcases exec_endsInKind i s with ⟨s', o, hs, ho, e⟩ | e
  · obtain rfl := Host.Outcome.next.inj (e.symm.trans h)
    rw [← hs.flags, ← hs.regs]
    cases o with
    | fail f => exact ⟨fun _ => rfl, fun _ => rfl⟩
    | ok ws fl =>
      refine ⟨fun hi => ?_, fun hi => ?_⟩
      · have hfl : fl = none := by simpa [CmdOutcome.EndOf, hi] using ho
        rw [hfl]; rfl
      · have hws : ws = [] := by simpa [CmdOutcome.EndOf, hi] using ho
        rw [hws]; rfl
  · obtain rfl := Host.Outcome.next.inj (e.symm.trans h)
    exact ⟨fun _ => (afterRound_same s).flags, fun _ => (afterRound_same s).regs⟩

/-! ### Causes over a prime field -/

theorem mayRaise_none (i : Instr) : mayRaise i .none = true := by cases i <;> rfl

theorem Cause.category_eq_none {c : Cause} : c.category = .none ↔ c = .none := by cases c <;> decide

section
variable {c : Config}

/-- A prime field has no zero divisors, on representatives. -/
theorem montMul_ne_zero (h : c.FieldFacts) (hp : c.p.Prime) {a b : Nat} (ha : a < c.p) (hb : b < c.p) (ha0 : a ≠ 0)
    (hb0 : b ≠ 0) : montMul c a b ≠ 0 := by
  have : Fact c.p.Prime := ⟨hp⟩
  rw [Ne, ← toZ_eq_zero h (montMul_rep h ha hb), toZ_montMul h, mul_eq_zero, toZ_eq_zero h ha, toZ_eq_zero h hb]
  exact not_or.mpr ⟨ha0, hb0⟩

/-- The product of the Z of Finite points is not zero (R263). -/
theorem runningProducts_last_ne_zero (h : c.FieldFacts) (hp : c.p.Prime) : ∀ (qs : List Point) {acc : Nat},
    acc < c.p → acc ≠ 0 → (∀ q ∈ qs, isRepPoint c q) → (∀ q ∈ qs, q.z ≠ 0) → (runningProducts c acc qs).getLastD acc ≠ 0
  | [], _, _, hacc0, _, _ => hacc0
  | q :: qs, acc, hacc, hacc0, hrep, hfin => by
    obtain ⟨⟨-, -, hz⟩, hreps⟩ := List.forall_mem_cons.mp hrep
    obtain ⟨hz0, hfins⟩ := List.forall_mem_cons.mp hfin
    rw [runningProducts, List.getLastD_cons]
    have hnext := montMul_ne_zero h hp hacc hz hacc0 hz0
    exact runningProducts_last_ne_zero h hp qs (montMul_rep h hacc hz) hnext hreps hfins

/-- Over a prime field BatchNorm's shared inversion does not fail (R263, R312). -/
theorem batchNormalize_ne_zeroProduct (h : c.FieldFacts) (hp : c.p.Prime) {qs : List Point}
    (hq : ∀ q ∈ qs, isRepPoint c q) : batchNormalize c qs ≠ .failed .zeroProduct := by
  unfold batchNormalize
  split
  case isTrue => simp
  case isFalse hany =>
    have hfin : ∀ q ∈ qs, q.z ≠ 0 := by simpa [isInf] using hany
    have hlast := runningProducts_last_ne_zero h hp qs (rm_rep h) (rm_ne_zero h) hq hfin
    simp only
    split
    case h_1 hnone => exact absurd ((fieldInv?_eq_none _).mp hnone) hlast
    case h_2 => simp

end

/-- A well-formed command over a prime field has no end of `BatchImpossible`. -/
theorem not_batchImpossible {s : State} {i : Instr} (hv : s.cfg.FieldValid) (hs : s.snapshot.Ok s.cfg)
    (hi : i.wellFormed = true) : ¬BatchImpossible s i := by
  cases i with
  | pbnorm a b =>
    rintro (hrange | hzero)
    · simp [Instr.wellFormed, hrange] at hi
    · refine batchNormalize_ne_zeroProduct (Config.admissible_fieldFacts hv.admissible) hv.prime ?_ hzero
      exact List.forall_mem_map.mpr fun j _ => hs.p j
  | _ => exact id

/-- Settles O13: by how the command ends; a rejected round leaves it in flight. -/
theorem commandsRaiseOnlyTheirCauses : Obligations.CommandsRaiseOnlyTheirCauses := by
  unfold Obligations.CommandsRaiseOnlyTheirCauses
  intro i s t w hv hsnap hi hcur h hdone
  rcases exec_endsInKind i s with ⟨s', o, hs, ho, e⟩ | e
  · obtain rfl := Host.Outcome.next.inj (e.symm.trans h)
    rw [← hs.status]
    cases o with
    | ok ws fl => exact ⟨mayRaise_none i, rfl, (Bool.or_false _).symm⟩
    | fail f =>
      obtain ⟨cause, rfl, hcause, hmay⟩ := ho
      refine ⟨hmay.resolve_right (not_batchImpossible hv hsnap hi), rfl, ?_⟩
      have hcat : cause.category ≠ .none := mt Cause.category_eq_none.mp hcause
      simp [Cause.failure, hcat]
  · obtain rfl := Host.Outcome.next.inj (e.symm.trans h)
    have hpending : s.cur = none := (afterRound_same s).cur.symm.trans hdone
    simp [hcur] at hpending

end Sys2Proof.Machine
end

section
/-! The constant loads FLDC, KLDC and PLDC (R132, R135, R138), with the constants of R56 to R58 by their selectors. -/

namespace Sys2Proof

/-! ### Selectors -/

theorem decode_fldc (d : FReg) (v : Fin 16) :
    decode (packWord 0x11 d v 0 0) = selectThen (FConst.ofField v) (.fldc d) := decode_packWord (by decide) ..

theorem decode_kldc (d : KReg) (v : Fin 16) :
    decode (packWord 0x50 d v 0 0) = selectThen (KConst.ofField v) (.kldc d) := decode_packWord (by decide) ..

theorem decode_pldc (d : PReg) (v : Fin 16) :
    decode (packWord 0x31 d v 0 0) = selectThen (PConst.ofField v) (.pldc d) := decode_packWord (by decide) ..

theorem FConst.ofField_eq_none : ∀ {v : Fin 16}, 5 < v.val → FConst.ofField v = none := by decide

theorem KConst.ofField_eq_none : ∀ {v : Fin 16}, 10 < v.val → KConst.ofField v = none := by decide

theorem PConst.ofField_eq_none : ∀ {v : Fin 16}, 1 < v.val → PConst.ofField v = none := by decide

theorem FConst.exists_toField {v : Fin 16} (h : v.val ≤ 5) : ∃ sel : FConst, sel.toField = v := by
  have hsome : ∀ {v : Fin 16}, v.val ≤ 5 → (FConst.ofField v).isSome := by decide
  obtain ⟨sel, hsel⟩ := Option.isSome_iff_exists.mp (hsome h)
  exact ⟨sel, FConst.toField_of_ofField v sel hsel⟩

theorem KConst.exists_toField {v : Fin 16} (h : v.val ≤ 10) : ∃ sel : KConst, sel.toField = v := by
  have hsome : ∀ {v : Fin 16}, v.val ≤ 10 → (KConst.ofField v).isSome := by decide
  obtain ⟨sel, hsel⟩ := Option.isSome_iff_exists.mp (hsome h)
  exact ⟨sel, KConst.toField_of_ofField v sel hsel⟩

/-! ### The constants in the order of their selectors -/

section
variable {c : Config}

/-- Lifting by R2 is R14's mont. -/
theorem montMul_r2 (h : c.FieldFacts) {a : Nat} (ha : a < c.p) : montMul c a c.r2 = c.mont a := by
  have hr2 : toZ c c.r2 = c.radix := by
    rw [Config.r2, toZ_mod h, toZ, Nat.cast_pow, pow_two, mul_assoc, radix_mul_inv h, mul_one]
  rw [← toZ_inj h (montMul_rep h ha (r2_rep h)) (mont_rep h a), toZ_montMul h, hr2, toZ_mont h, toZ_mul_radix h]

theorem nqrt_eq_pow (h : c.FieldFacts) : c.nqrt = c.nqr ^ c.t % c.p := powMod_eq _ _ _ _ (h.t_lt.trans h.pLt)

theorem FConst.value_eq_getD (h : c.FieldFacts) (sel : FConst) :
    sel.value c = [0, 2 ^ c.w % c.p, c.b * 2 ^ c.w % c.p, c.nqr * 2 ^ c.w % c.p, c.nqr ^ c.t % c.p * 2 ^ c.w % c.p,
      c.root * 2 ^ c.w % c.p].getD sel.toField.val 0 := by
  cases sel with
  | zero | one | coeffB | nqr | root => rfl
  | nqrToT => exact congrArg c.mont (nqrt_eq_pow h)

theorem KConst.value_eq_getD (c : Config) (sel : KConst) :
    sel.value c = [c.p, c.r, c.h, c.s, c.t, (c.t - 1) / 2, (c.p - 1) / 2, c.inv64, (2 ^ c.w) ^ 2 % c.p,
      (2 ^ c.w) ^ 3 % c.p, 2 ^ c.w % c.p].getD sel.toField.val 0 := by
  cases sel <;> rfl

end

namespace Machine

/-! ### One register written (R305, R306) -/

section
variable {s s' : State} (h : SameButDraws s s')
include h

theorem onlyF_complete (d : FReg) (v : Nat) : OnlyF s (s'.complete (.ok [.f d v] none)) d v where
  written := by simp [Files.readF_writeF]
  f j hj := by simp [Files.readF_writeF, hj, h.regs]
  p j := by simp [h.regs]
  k j := by simp [h.regs]
  flags := h.flags

theorem onlyK_complete (d : KReg) (v : Nat) : OnlyK s (s'.complete (.ok [.k d v] none)) d v where
  written := by simp [Files.readK_writeK]
  f j := by simp [h.regs]
  p j := by simp [h.regs]
  k j hj := by simp [Files.readK_writeK, hj, h.regs]
  flags := h.flags

end

/-! ### The commands -/

/-- Settles O35: a selector in range is the field of its constant, and the load writes that constant. -/
theorem fldcLoadsTheFieldConstants : Obligations.FldcLoadsTheFieldConstants := by
  unfold Obligations.FldcLoadsTheFieldConstants
  intro s w d v hadm hcur
  rw [decode_fldc]
  refine ⟨fun hv => by rw [FConst.ofField_eq_none hv]; rfl, fun hv => ?_⟩
  obtain ⟨sel, rfl⟩ := FConst.exists_toField hv
  rw [← FConst.value_eq_getD (Config.admissible_fieldFacts hadm), FConst.ofField_toField]
  exact ⟨sel, rfl, _, rfl, completedOk_complete (.refl s) rfl hcur _ _, onlyF_complete (.refl s) d _⟩

/-- Settles O36: as FLDC, with INV and the bounds by the lemmas about the constants. -/
theorem kldcLoadsTheScalarConstants : Obligations.KldcLoadsTheScalarConstants := by
  unfold Obligations.KldcLoadsTheScalarConstants
  intro s w d v hadm hcur
  rw [decode_kldc]
  refine ⟨fun hv => by rw [KConst.ofField_eq_none hv]; rfl, fun hv => ?_⟩
  obtain ⟨sel, rfl⟩ := KConst.exists_toField hv
  obtain ⟨hinvLt, hinv, -, -, -, hsplit, hodd, -⟩ := derivedConstantsMeetTheirDefinitions s.cfg hadm
  have honly := onlyK_complete (.refl s) d (sel.value s.cfg)
  rw [KConst.ofField_toField]
  refine ⟨sel, rfl, _, s.cfg.inv64, rfl, completedOk_complete (.refl s) rfl hcur _ _, hinvLt, hinv, hsplit,
    hodd, ?_, ?_⟩
  · rw [honly.written]; exact KConst.value_lt hadm sel
  · rw [← KConst.value_eq_getD]; exact honly

/-- Settles O37: the two selectors in range are O and G, and the load writes that point. -/
theorem pldcLoadsThePointConstants : Obligations.PldcLoadsThePointConstants := by
  unfold Obligations.PldcLoadsThePointConstants
  intro s w d hcur
  refine ⟨fun v hv => ?_, decode_pldc d 0, decode_pldc d 1, ?_, ?_⟩
  · rw [decode_pldc, PConst.ofField_eq_none hv]; rfl
  · exact ⟨_, rfl, completedOk_complete (.refl s) rfl hcur _ _, onlyP_complete (.refl s) d (pointO s.cfg)⟩
  · exact ⟨_, rfl, completedOk_complete (.refl s) rfl hcur _ _, onlyP_complete (.refl s) d (pointG s.cfg)⟩

end Machine

end Sys2Proof
end

section
/-! FRAND (R175): what a round draws, when it is accepted, and a run of rejected rounds. -/

namespace Sys2Proof.Machine

open Sys2Proof.Spec

/-! ### One round -/

/-- Draws take the words RAND lists, first one least significant (R60, R175). -/
theorem drawLimbs_append (rest : List BusWord) : ∀ (ws : List BusWord) {s : State}, s.rand = ws ++ rest →
    s.drawLimbs ws.length = (fromWords ws, { s with rand := rest })
  | [], s, hr => by
    obtain rfl : s.rand = rest := hr
    rfl
  | w :: ws, s, hr => by
    rw [List.length_cons, State.drawLimbs, drawWord_cons hr, drawLimbs_append rest ws rfl]
    rfl

/-- L is the size of p in bits. -/
theorem modulusBits_eq_size {c : Config} (h : c.FieldFacts) : modulusBits c = Nat.size c.p := by
  have hp : c.p ≠ 0 := h.pPos.ne'
  apply le_antisymm
  · exact Nat.lt_size.mpr (Nat.log2_self_le hp)
  · exact Nat.size_le.mpr Nat.lt_log2_self

section
variable {s : State} {ws rest : List BusWord} (h : s.cfg.FieldFacts) (hlen : ws.length = s.cfg.n)
  (hrand : s.rand = ws ++ rest)
include hlen hrand

theorem afterRound_of_rand : afterRound s = { s with rand := rest } := by
  rw [afterRound, ← hlen, drawLimbs_append rest ws hrand]

include h

theorem randCandidate_of_rand : randCandidate s = candidate s.cfg ws := by
  rw [randCandidate, ← hlen, drawLimbs_append rest ws hrand, modulusBits_eq_size h, candidate]

/-- A round whose candidate is below p lifts it and completes. -/
theorem exec_frand_accepted (hlt : candidate s.cfg ws < s.cfg.p) (d : FReg) : exec (.frand d) s =
    .next (State.complete { s with rand := rest } (.ok [.f d (s.cfg.mont (candidate s.cfg ws))] none)) := by
  simp only [exec, execFrand, randCandidate_of_rand h hlen hrand, afterRound_of_rand hlen hrand, if_pos hlt,
    montMul_r2 h hlt]

/-- Any other round only draws its words. -/
theorem exec_frand_rejected (hle : s.cfg.p ≤ candidate s.cfg ws) (d : FReg) :
    exec (.frand d) s = .next { s with rand := rest } := by
  simp only [exec, execFrand, randCandidate_of_rand h hlen hrand, afterRound_of_rand hlen hrand, if_neg hle.not_gt]

end

/-- The completion of an accepted round, in terms of the state before any round. -/
theorem frand_completed {s : State} {w : CmdWord} (hcur : s.cur = some w) (rest : List BusWord) (d : FReg) (v : Nat) :
    CompletedOk { s with rand := rest } (State.complete { s with rand := rest } (.ok [.f d v] none)) w ∧
      OnlyF s (State.complete { s with rand := rest } (.ok [.f d v] none)) d v :=
  ⟨completedOk_complete (s := { s with rand := rest }) (.refl _) rfl hcur _ _,
    onlyF_complete (s' := { s with rand := rest }) rfl d v⟩

/-! ### Rejected rounds -/

/-- Turns that start with rejected rounds are the turns after the words of those rounds. -/
theorem afterTurns_rejected (d : FReg) (rest : List BusWord) (k : Nat) : ∀ (bad : List (List BusWord)) {s : State},
    s.cfg.FieldFacts → (∀ ws ∈ bad, ws.length = s.cfg.n ∧ s.cfg.p ≤ candidate s.cfg ws) →
    s.rand = bad.flatten ++ rest →
    afterTurns (.frand d) (bad.length + k) s = afterTurns (.frand d) k { s with rand := rest }
  | [], s, _, _, hrand => by
    obtain rfl : s.rand = rest := hrand
    rw [List.length_nil, Nat.zero_add]
  | ws :: bad, s, h, hbad, hrand => by
    obtain ⟨⟨hlen, hle⟩, hbads⟩ := List.forall_mem_cons.mp hbad
    rw [List.flatten_cons, List.append_assoc] at hrand
    rw [List.length_cons, Nat.succ_add, afterTurns, exec_frand_rejected h hlen hrand hle]
    exact afterTurns_rejected d rest k bad h hbads rfl

/-- Settles O44: the rejected rounds by `afterTurns_rejected`, the accepted one by `exec_frand_accepted`. -/
theorem frandTakesTheFirstAcceptedRound : Obligations.FrandTakesTheFirstAcceptedRound := by
  unfold Obligations.FrandTakesTheFirstAcceptedRound
  intro s w d hadm hcur
  have h := Config.admissible_fieldFacts hadm
  refine ⟨decode_packWord (by decide) .., fun good rest hlen hrand hlt => ?_,
    fun bad good rest hbad hlen hlt hrand => ?_⟩
  · exact ⟨_, exec_frand_accepted h hlen hrand hlt d, frand_completed hcur rest d _⟩
  · rw [List.append_assoc] at hrand
    have hlast := exec_frand_accepted (s := { s with rand := good ++ rest }) h hlen rfl hlt d
    refine ⟨afterTurns_rejected d _ 0 bad h hbad hrand, _, ?_, frand_completed hcur rest d _⟩
    rw [afterTurns_rejected d _ 1 bad h hbad hrand, afterTurns, hlast]
    rfl

end Sys2Proof.Machine
end

section
/-! Accesses at an offset of the window (R71 to R76): those it does not define (R73, R74), the writes of the control and
status registers (R75), and the limbs of K (R76, R81). -/

namespace Sys2Proof.Machine

/-! ### Offsets -/

theorem busRead_offset (s : State) {off : Nat} (h : off < windowSize) (width : Nat) :
    s.busRead (s.cfg.base + off) width = s.hostRead (locate s.cfg off width) := by
  simp only [State.busRead, windowOffset_base _ h]

theorem busWrite_offset (s : State) {off : Nat} (h : off < windowSize) (width : Nat) (v : BusWord) :
    s.busWrite (s.cfg.base + off) width v = s.hostWrite v (locate s.cfg off width) := by
  simp only [State.busWrite, windowOffset_base _ h]

theorem windowOffset_of_le {c : Config} {off : Nat} (h : windowSize ≤ off) : windowOffset c (c.base + off) = none :=
  if_neg (by omega)

/-- Only its own offset leads to a limb (R76). -/
theorem eq_limbOffset_of_locate {c : Config} {off width : Nat} {i : KReg} {j : Nat} (hoff : off < windowSize)
    (h : locate c off width = .limb i j) : off = limbOffset i j := by
  unfold windowSize at hoff
  unfold locate at h
  split at h
  case isTrue => cases h
  case isFalse haligned =>
    split at h
    case isTrue => split at h <;> cases h
    case isFalse hhigh =>
      simp only at h
      split at h
      case isTrue =>
        obtain ⟨rfl, rfl⟩ := Target.limb.inj h
        simp only [limbOffset, Fin.val_ofNat]
        omega
      case isFalse => cases h

/-- Settles O21: such an access lands on no register and no limb. -/
theorem undefinedAccessOnlySetsAccerr : Obligations.UndefinedAccessOnlySetsAccerr := by
  unfold Obligations.UndefinedAccessOnlySetsAccerr
  intro s off width v hoff hundef
  rw [busWrite_offset s hoff, busRead_offset s hoff, locate_eq_undefined.mpr hundef]
  exact ⟨rfl, rfl⟩

/-! ### Control and status registers -/

/-- A word whose bits are a list's is below the power of two of its length. -/
theorem toNat_lt_of_bits {v : BusWord} {bs : List Bool} (h : ∀ i, v.getLsbD i = bs.getD i false) :
    v.toNat < 2 ^ bs.length := by
  refine Nat.lt_pow_two_of_testBit _ fun i hi => ?_
  rw [BitVec.testBit_toNat, h, List.getD_eq_default _ _ hi]

/-- Settles O22: each offset is its register's, and CTRL and STATUS have two and six bits that are not RES0. -/
theorem readOnlyRegistersIgnoreWrites : Obligations.ReadOnlyRegistersIgnoreWrites := by
  unfold Obligations.ReadOnlyRegistersIgnoreWrites
  intro s v
  refine ⟨?_, ?_⟩
  · rintro off (rfl | rfl | rfl)
    · exact busWrite_csr s .id v
    · exact busWrite_csr s .err v
    · exact busWrite_csr s .flags v
  · rintro off (rfl | rfl)
    · have hctrl : s.busWrite (s.cfg.base + 0x008) 64 v = { s with ctrl := Ctrl.ofWord v } := busWrite_csr s .ctrl v
      rw [hctrl]
      exact ⟨id, rfl, rfl, toNat_lt_of_bits (Ctrl.word_getLsbD _), toNat_lt_of_bits (Status.word_getLsbD _), rfl, rfl,
        rfl, rfl, rfl⟩
    · have hstatus : s.busWrite (s.cfg.base + 0x010) 64 v = { s with status := s.status.writeOneToClear v } :=
        busWrite_csr s .status v
      rw [hstatus]
      exact ⟨Bool.and_elim_left, rfl, rfl, toNat_lt_of_bits (Ctrl.word_getLsbD _),
        toNat_lt_of_bits (Status.word_getLsbD _), rfl, rfl, rfl, rfl, rfl⟩

/-! ### The lock on the K window (R81) -/

theorem Status.locked_eq_true (v : Status) : v.locked = true ↔ v.busy = true ∨ v.ready = false := by
  simp [Status.locked]

theorem hostWrite_limb_locked {s : State} (h : s.status.locked = true) (i : KReg) (j : Nat) (v : BusWord) :
    s.hostWrite v (.limb i j) = s.hazard := if_pos h

theorem hostWrite_limb_free {s : State} (h : s.status.locked = false) (i : KReg) (j : Nat) (v : BusWord) :
    s.hostWrite v (.limb i j) = { s with regs := s.regs.writeK i (withLimb (s.regs.readK i) j v) } := by
  simp [State.hostWrite, h]

theorem busRead_limb_free {s : State} (h : s.status.locked = false) (i : KReg) {j : Nat} (hj : j < s.cfg.n)
    (hn : s.cfg.n ≤ 32) :
    s.busRead (s.cfg.base + limbOffset i j) 64 = { s with readData := limbOf (s.regs.readK i) j } := by
  rw [busRead_limb s i hj hn]
  simp [State.hostRead, State.afterRead, State.busValue, h]

/-- Settles O24: the address is the limb's, and the lock decides. -/
theorem lockedLimbsIgnoreWrites : Obligations.LockedLimbsIgnoreWrites := by
  unfold Obligations.LockedLimbsIgnoreWrites
  intro s i j v hn hj
  have hwrite : s.busWrite (s.cfg.base + (0x1000 + 0x100 * i.val + 8 * j)) 64 v = s.hostWrite v (.limb i j) :=
    busWrite_limb s i hj hn v
  have hread : s.busRead (s.cfg.base + (0x1000 + 0x100 * i.val + 8 * j)) 64 = s.hostRead (.limb i j) :=
    busRead_limb s i hj hn
  refine ⟨fun hbusy => ⟨?_, ?_⟩, fun hbusy hready => ?_⟩
  · exact hwrite.trans (hostWrite_limb_locked ((Status.locked_eq_true _).mpr hbusy) i j v)
  · rcases hostRead_cases s (.limb i j) with ⟨hundef, -⟩ | ⟨-, d, n, e⟩
    · cases hundef
    · rw [hread, e]
  · exact busRead_limb_free ((Status.locked_eq_false _).mpr ⟨hbusy, hready⟩) i hj hn

/-! ### Replacing one limb (R76) -/

section
variable (k j : Nat) (v : BusWord)

theorem two_pow_limb_succ : 2 ^ (64 * (j + 1)) = 2 ^ (64 * j) * 2 ^ 64 := by rw [mul_add_one, pow_add]

/-- The scalar with limb `j` replaced, by what stands above, in and below that limb. -/
theorem withLimb_eq : withLimb k j v =
    k % 2 ^ (64 * j) + 2 ^ (64 * j) * (v.toNat + 2 ^ 64 * (k / 2 ^ (64 * (j + 1)))) := by
  rw [withLimb, two_pow_limb_succ]; ring

theorem withLimb_mod : withLimb k j v % 2 ^ (64 * j) = k % 2 ^ (64 * j) := by
  rw [withLimb_eq, Nat.add_mul_mod_self_left, Nat.mod_mod]

theorem withLimb_div : withLimb k j v / 2 ^ (64 * j) = v.toNat + 2 ^ 64 * (k / 2 ^ (64 * (j + 1))) := by
  rw [withLimb_eq, Nat.add_mul_div_left _ _ (Nat.two_pow_pos _),
    Nat.div_eq_of_lt (Nat.mod_lt _ (Nat.two_pow_pos _)), zero_add]

theorem withLimb_div_succ : withLimb k j v / 2 ^ (64 * (j + 1)) = k / 2 ^ (64 * (j + 1)) := by
  rw [two_pow_limb_succ, ← Nat.div_div_eq_div_mul, withLimb_div, Nat.add_mul_div_left _ _ (Nat.two_pow_pos _),
    Nat.div_eq_of_lt v.isLt, zero_add, two_pow_limb_succ]

theorem withLimb_limb_same : withLimb k j v / 2 ^ (64 * j) % 2 ^ 64 = v.toNat := by
  rw [withLimb_div, Nat.add_mul_mod_self_left, Nat.mod_eq_of_lt v.isLt]

/-- A limb below the replaced one is part of the rest, a limb above it of the quotient. -/
theorem withLimb_limb_other {m : Nat} (h : m ≠ j) :
    withLimb k j v / 2 ^ (64 * m) % 2 ^ 64 = k / 2 ^ (64 * m) % 2 ^ 64 := by
  rcases lt_or_gt_of_ne h with hlt | hgt
  · have limb_of_rest (x : Nat) : x / 2 ^ (64 * m) % 2 ^ 64 = x % 2 ^ (64 * j) / 2 ^ (64 * m) % 2 ^ 64 := by
      have hdvd : 2 ^ (64 * m) * 2 ^ 64 ∣ 2 ^ (64 * j) := by
        rw [← two_pow_limb_succ]; exact pow_dvd_pow 2 (by omega)
      rw [← Nat.mod_mul_right_div_self, ← Nat.mod_mul_right_div_self, Nat.mod_mod_of_dvd _ hdvd]
    rw [limb_of_rest, withLimb_mod, ← limb_of_rest]
  · have limb_of_quotient (x : Nat) : x / 2 ^ (64 * m) = x / 2 ^ (64 * (j + 1)) / 2 ^ (64 * (m - (j + 1))) := by
      rw [Nat.div_div_eq_div_mul, ← pow_add, ← mul_add, Nat.add_sub_cancel' hgt]
    rw [limb_of_quotient, withLimb_div_succ, ← limb_of_quotient]

theorem limbOf_withLimb (m : Nat) : limbOf (withLimb k j v) m = if m = j then v else limbOf k m := by
  refine BitVec.eq_of_toNat_eq ?_
  split
  case isTrue h => rw [h, limbOf, BitVec.toNat_ofNat, withLimb_limb_same]
  case isFalse h => rw [limbOf, limbOf, BitVec.toNat_ofNat, BitVec.toNat_ofNat, withLimb_limb_other k j v h]

end

/-- A read sees a write of K[i] only at an offset of K[i]. -/
theorem busRead_writeK_other (s : State) {i : KReg} (x : Nat) {off width : Nat}
    (h : ∀ j < s.cfg.n, off ≠ limbOffset i j) :
    (State.busRead { s with regs := s.regs.writeK i x } (s.cfg.base + off) width).readData =
      (s.busRead (s.cfg.base + off) width).readData := by
  rcases lt_or_ge off windowSize with hin | hout
  · rw [busRead_offset s hin, busRead_offset { s with regs := s.regs.writeK i x } hin]
    simp only [State.hostRead]
    cases hloc : locate s.cfg off width with
    | csr r => cases r <;> rfl
    | undefined => rfl
    | limb i' j' =>
      have hne : i' ≠ i := by
        rintro rfl
        exact h j' (locate_limb_lt hloc) (eq_limbOffset_of_locate hin hloc)
      simp only [State.busValue, Files.readK_writeK, if_neg hne]
  · simp only [State.busRead, windowOffset_of_le hout]

theorem limbOffset_inj {i : KReg} {j m : Nat} : limbOffset i j = limbOffset i m ↔ j = m := by
  unfold limbOffset; omega

/-- Settles O20: the address is the limb's, the block is free, and the rest is the arithmetic of `withLimb`. -/
theorem limbWriteReplacesOneLimb : Obligations.LimbWriteReplacesOneLimb := by
  unfold Obligations.LimbWriteReplacesOneLimb
  intro s i j v hn hj hready hbusy
  have hfree : s.status.locked = false := (Status.locked_eq_false _).mpr ⟨hbusy, hready⟩
  have hwrite : s.busWrite (s.cfg.base + (0x1000 + 0x100 * i.val + 8 * j)) 64 v =
      { s with regs := s.regs.writeK i (withLimb (s.regs.readK i) j v) } :=
    (busWrite_limb s i hj hn v).trans (hostWrite_limb_free hfree i j v)
  have hwritten : (s.regs.writeK i (withLimb (s.regs.readK i) j v)).readK i = withLimb (s.regs.readK i) j v := by
    rw [Files.readK_writeK, if_pos rfl]
  simp only [hwrite, hwritten]
  refine ⟨fun m => ?_, fun m hm => withLimb_limb_other _ _ v hm, withLimb_limb_same _ _ v, fun m hm => ?_,
    rfl, rfl, trivial, fun m hm hslot => locate_eq_undefined.mpr (by omega)⟩
  · rcases lt_or_ge m s.cfg.n with hlt | hge
    · have hread := busRead_limb_free
        (s := { s with regs := s.regs.writeK i (withLimb (s.regs.readK i) j v) }) hfree i hlt hn
      rw [hwritten, limbOf_withLimb] at hread
      rw [if_pos hlt]
      exact congrArg State.readData hread
    · rw [if_neg (by omega), if_neg (by omega)]
      exact busRead_writeK_other s _ fun j' hj' e => by
        have := limbOffset_inj.mp e
        omega
  · rw [Files.readK_writeK, if_neg hm]

end Sys2Proof.Machine
end

section
/-! Accesses while a command is in flight (R80, R307, R308, R315): what they can change at all. -/

namespace Sys2Proof.Machine

/-- What an access on a locked block can make of STATUS: BUSY and READY stay, DONE and FAIL can only be cleared. -/
structure Status.Accessed (a b : Status) : Prop where
  busy : b.busy = a.busy
  ready : b.ready = a.ready
  fail : b.fail = (a.fail && b.fail)
  done : b.done = (a.done && b.done)

/-- What an access on a locked block can change: CTRL, STATUS within `Status.Accessed`, the data delivered and the count
of free values. -/
def OnlyAccessed (s t : State) : Prop :=
  ∃ c st n d, t = { s with ctrl := c, status := st, draws := n, readData := d } ∧ s.status.Accessed st

theorem Status.Accessed.refl (a : Status) : a.Accessed a := ⟨rfl, rfl, by simp, by simp⟩

theorem Status.Accessed.writeOneToClear (a : Status) (v : BusWord) : a.Accessed (a.writeOneToClear v) :=
  ⟨rfl, rfl, by simp [Status.writeOneToClear], by simp [Status.writeOneToClear]⟩

theorem OnlyAccessed.refl (s : State) : OnlyAccessed s s := ⟨_, _, _, _, rfl, .refl _⟩

theorem OnlyAccessed.accessError (s : State) : OnlyAccessed s s.accessError :=
  ⟨_, _, _, _, rfl, rfl, rfl, by simp, by simp⟩

theorem OnlyAccessed.hazard (s : State) : OnlyAccessed s s.hazard :=
  ⟨_, _, _, _, rfl, rfl, rfl, by simp, by simp⟩

theorem busRead_onlyAccessed (s : State) (addr width : Nat) : OnlyAccessed s (s.busRead addr width) := by
  unfold State.busRead
  split
  case h_1 => exact .refl s
  case h_2 off _ =>
    rcases hostRead_cases s (locate s.cfg off width) with ⟨-, e⟩ | ⟨-, d, n, e⟩
    · rw [e]; exact ⟨_, _, _, _, rfl, rfl, rfl, by simp, by simp⟩
    · rw [e]; exact ⟨_, _, _, _, rfl, .refl _⟩

/-- A locked block takes no command and no limb (R81, R301). -/
theorem busWrite_onlyAccessed {s : State} (h : s.status.locked = true) (addr width : Nat) (v : BusWord) :
    OnlyAccessed s (s.busWrite addr width v) := by
  unfold State.busWrite
  split
  case h_1 => exact .refl s
  case h_2 off _ =>
    rcases hostWrite_cases s v (locate s.cfg off width) with
      e | e | ⟨-, e⟩ | ⟨-, e⟩ | ⟨-, hfree, -⟩ | ⟨-, -, -, hfree, -⟩
    · rw [e]; exact .accessError s
    · rw [e]; exact .hazard s
    · rw [e]; exact ⟨_, _, _, _, rfl, .refl _⟩
    · rw [e]; exact ⟨_, _, _, _, rfl, .writeOneToClear _ v⟩
    · simp [h] at hfree
    · simp [h] at hfree

/-- While a command is in flight BUSY is 1 (R46, R55). -/
theorem State.Inv.locked_of_pending {s : State} (h : s.Inv) (hcur : s.cur ≠ none) : s.status.locked = true := by
  have hbusy : s.status.busy = true := by
    rw [h.life.busy, Option.isSome_iff_ne_none.mpr hcur, Bool.or_true]
  exact (Status.locked_eq_true _).mpr (.inl hbusy)

/-- Settles O19: a command in flight locks the block, and an access on a locked block changes nothing of it. -/
theorem hostAccessesLeaveTheCommandInFlightAlone : Obligations.HostAccessesLeaveTheCommandInFlightAlone := by
  unfold Obligations.HostAccessesLeaveTheCommandInFlightAlone
  intro s t e rest hinv hcur hin hreset hengine hstep
  have hlocked := (hinv.withInbox rest).locked_of_pending hcur
  have honly : OnlyAccessed { s with inbox := rest } t := by
    obtain ⟨-, ht⟩ := step_eq_next.mp hstep
    rw [transition_input hin] at ht
    cases e with
    | reset => exact absurd rfl hreset
    | engine => exact absurd rfl hengine
    | read addr width =>
      obtain rfl := Host.Outcome.next.inj ht
      exact busRead_onlyAccessed _ addr width
    | write addr width v =>
      obtain rfl := Host.Outcome.next.inj ht
      exact busWrite_onlyAccessed hlocked addr width v
  obtain ⟨c, st, n, d, rfl, hst⟩ := honly
  exact ⟨rfl, rfl, rfl, rfl, rfl, rfl, hst.busy, hst.ready, hst.fail, hst.done⟩

end Sys2Proof.Machine
end

section
/-! The decoder and the encoder undo each other (R107, R112, R114): `decode_eq_instr` says which words decode to a
command. -/

namespace Sys2Proof

theorem decode_pget (d : FReg) (a : PReg) (v : Fin 16) :
    decode (packWord 0x33 d a v 0) = selectThen (Coord.ofField v) (.pget d a) := decode_packWord (by decide) ..

theorem decode_pbnorm (a : PReg) (b : Fin 16) : decode (packWord 0x49 0 a b 0) = batchThen a b :=
  decode_packWord (by decide) ..

theorem selectThen_some {α : Type} (v : α) (f : α → Instr) : selectThen (some v) f = .instr (f v) := rfl

/-- The opcode picks the row, whose unused fields the encoder set to 0; a selector is read back from its field. -/
theorem decode_encode {i : Instr} (hi : i.wellFormed = true) : decode (encode i) = .instr i := by
  cases i with
  | fldc d sel => rw [encode, decode_fldc, FConst.ofField_toField, selectThen_some]
  | pldc d sel => rw [encode, decode_pldc, PConst.ofField_toField, selectThen_some]
  | pget d a crd => rw [encode, decode_pget, Coord.ofField_toField, selectThen_some]
  | kldc d sel => rw [encode, decode_kldc, KConst.ofField_toField, selectThen_some]
  | pbnorm a b => rw [encode, decode_pbnorm, batchThen_eq_instr]; exact ⟨hi, rfl⟩
  | nop | fmov | tomont | fromm | frand | fadd | fsub | fneg | fmul | fsqr | finv | fpow | fsqrt | fqrt | feq | fisz
  | pmov | pset | padd | pmadd | pdbl | pneg | psmul | pcof | peq | pisz | pwf | pssg | pnorm | pcomp | pdcmp
  | kmov => exact decode_packWord (by decide) ..

/-- Every command the decoder reads from fields is well-formed, the packing of those fields encodes it, and RSV is 0. -/
def ReadFrom (op rsv : Nat) (d a b c : Fin 16) (r : Decoded) : Prop :=
  ∀ i, r = .instr i → rsv = 0 ∧ i.wellFormed = true ∧ encode i = packWord op d a b c

section
variable {op rsv : Nat} {d a b c : Fin 16}

theorem ReadFrom.illegal (e : DecodeError) : ReadFrom op rsv d a b c (.illegal e) := fun _ h => by cases h

theorem ReadFrom.instr {i : Instr} (hrsv : rsv = 0) (hi : i.wellFormed = true) (henc : encode i = packWord op d a b c) :
    ReadFrom op rsv d a b c (.instr i) := by
  rintro _ ⟨⟩
  exact ⟨hrsv, hi, henc⟩

theorem ReadFrom.unusedThen {fs : List Nat} {next : Decoded}
    (h : (∀ v ∈ fs, v = 0) → ReadFrom op rsv d a b c next) : ReadFrom op rsv d a b c (unusedThen fs next) := by
  intro i hi
  obtain ⟨hfs, hnext⟩ := unusedThen_eq_instr.mp hi
  exact h (by simpa using hfs) i hnext

theorem ReadFrom.selectThen {α : Type} {sel : Option α} {f : α → Instr}
    (h : ∀ v, sel = some v → ReadFrom op rsv d a b c (.instr (f v))) :
    ReadFrom op rsv d a b c (selectThen sel f) := by
  intro i hi
  obtain ⟨v, hsel, hv⟩ := selectThen_eq_instr.mp hi
  exact h v hsel i (congrArg _ hv)

theorem ReadFrom.batchThen (h : batchInRange a b = true → ReadFrom op rsv d a b c (.instr (.pbnorm a b))) :
    ReadFrom op rsv d a b c (batchThen a b) := by
  intro i hi
  obtain ⟨hrange, hb⟩ := batchThen_eq_instr.mp hi
  exact h hrange i (congrArg _ hb)

theorem decodeFields_readFrom (op rsv : Nat) (d a b c : Fin 16) :
    ReadFrom op rsv d a b c (decodeFields op rsv d a b c) := by
  unfold decodeFields
  split
  case h_38 => exact .illegal _
  all_goals
    refine .unusedThen fun hz => ?_
    simp only [List.forall_mem_cons, List.not_mem_nil, false_imp_iff, implies_true, and_true, Fin.val_eq_zero_iff] at hz
  case h_3 => -- FLDC
    obtain ⟨hrsv, rfl, rfl⟩ := hz
    exact .selectThen fun v hv => .instr hrsv rfl (by rw [encode, FConst.toField_of_ofField _ _ hv])
  case h_19 => -- PLDC
    obtain ⟨hrsv, rfl, rfl⟩ := hz
    exact .selectThen fun v hv => .instr hrsv rfl (by rw [encode, PConst.toField_of_ofField _ _ hv])
  case h_21 => -- PGET
    obtain ⟨hrsv, rfl⟩ := hz
    exact .selectThen fun v hv => .instr hrsv rfl (by rw [encode, Coord.toField_of_ofField _ _ hv])
  case h_36 => -- KLDC
    obtain ⟨hrsv, rfl, rfl⟩ := hz
    exact .selectThen fun v hv => .instr hrsv rfl (by rw [encode, KConst.toField_of_ofField _ _ hv])
  case h_33 => -- PBNORM
    obtain ⟨hrsv, rfl, rfl⟩ := hz
    exact .batchThen fun hrange => .instr hrsv hrange rfl
  all_goals
    simp only [hz]
    exact .instr rfl rfl rfl

/-- Decode reads a command from exactly one word: its encoding. -/
theorem decode_eq_instr {w : CmdWord} {i : Instr} : decode w = .instr i ↔ i.wellFormed = true ∧ encode i = w := by
  constructor
  · intro h
    obtain ⟨hrsv, hi, henc⟩ := decodeFields_readFrom _ _ _ _ _ _ i h
    exact ⟨hi, henc.trans (packWord_fields hrsv)⟩
  · rintro ⟨hi, rfl⟩
    exact decode_encode hi

end

/-- Settles O2: row by row of the opcode map. -/
theorem decodeOfEncodeIsTheCommand : Obligations.DecodeOfEncodeIsTheCommand := by
  unfold Obligations.DecodeOfEncodeIsTheCommand
  exact fun _ => decode_encode

/-- Settles O3: the word decodes or fails, and `decode_eq_instr` says what each means for every command. -/
theorem everyWordIsOneCommandOrFailsDecode : Obligations.EveryWordIsOneCommandOrFailsDecode := by
  unfold Obligations.EveryWordIsOneCommandOrFailsDecode
  intro w
  cases hw : decode w with
  | instr i =>
    obtain ⟨hi, henc⟩ := decode_eq_instr.mp hw
    refine .inl ⟨i, rfl, hi, henc, fun j hj hjw => ?_⟩
    have hdecode := decode_eq_instr.mpr ⟨hj, hjw⟩
    rw [hw] at hdecode
    exact (Decoded.instr.inj hdecode).symm
  | illegal e =>
    refine .inr ⟨e, rfl, fun j hj hjw => ?_⟩
    have hdecode := decode_eq_instr.mpr ⟨hj, hjw⟩
    rw [hw] at hdecode
    cases hdecode

/-- Settles O1: each word is the encoding of its command, and the opcode 0 is reserved. -/
theorem specWordsDecodeToTheirCommands : Obligations.SpecWordsDecodeToTheirCommands := by
  unfold Obligations.SpecWordsDecodeToTheirCommands
  have decodes {w : CmdWord} {i : Instr} (hi : i.wellFormed = true) (hw : encode i = w) : decode w = .instr i :=
    decode_eq_instr.mpr ⟨hi, hw⟩
  exact ⟨decodes rfl rfl, decodes rfl rfl, decodes rfl rfl, decodes rfl rfl, decodes rfl rfl, decodes rfl rfl,
    decodes rfl rfl, decodes rfl rfl, decodes rfl rfl, decodes rfl rfl, decodes rfl rfl, rfl⟩

end Sys2Proof
end

section
/-! The checks of the decoder in the order of R111: it reports the first that fails. -/

namespace Sys2Proof

open Sys2Proof.Machine Sys2Proof.Spec

/-- The error a word fails decode with, none for a command. -/
def Decoded.error? : Decoded → Option DecodeError
  | .instr _ => none
  | .illegal e => some e

/-! ### R111's checks on a row of the opcode map -/

/-- The value of a field whose class is `-` (R109). -/
def unusedValue (cls : OperandClass) (v : Nat) : List Nat := if cls = .unused then [v] else []

/-- The values of the fields that the row does not use (R109). -/
def unusedValues (r : Row) (d a b c : Nat) : List Nat :=
  unusedValue r.d d ++ unusedValue r.a a ++ unusedValue r.b b ++ unusedValue r.c c

/-- The selectors of A and B, then the range of a batch (R104, R105). -/
def indexFailure (op : Nat) (r : Row) (a b : Nat) : Option DecodeError :=
  if badSelector r.a a || badSelector r.b b then some .illIndex
  else if op = 0x49 ∧ a + b + 1 > 16 then some .illIndex
  else none

/-- RSV and the unused fields, then the operands (R109 to R111). -/
def rowFailure (op rsv d a b c : Nat) (r : Row) : Option DecodeError :=
  if (rsv :: unusedValues r d a b c).all (· == 0) then indexFailure op r a b else some .illField

theorem all_unusedValue (cls : OperandClass) (v : Nat) : (unusedValue cls v).all (· == 0) = !badUnused cls v := by
  by_cases h : cls = .unused <;> simp [unusedValue, badUnused, h, bne]

theorem all_unusedValues (r : Row) (d a b c : Nat) : (unusedValues r d a b c).all (· == 0) =
    !(badUnused r.d d || badUnused r.a a || badUnused r.b b || badUnused r.c c) := by
  simp only [unusedValues, List.all_append, all_unusedValue, Bool.not_or]

/-- The checks over the bits of the word are those over its fields (R101). -/
theorem firstFailure_eq (w : CmdWord) : firstFailure w =
    (row? (opField w)).elim (some .illOpcode)
      (rowFailure (opField w) (rsvField w) (dField w) (aField w) (bField w) (cField w)) := by
  have hrsv : w.extractLsb' 24 8 ≠ 0 ↔ ¬(rsvField w == 0) = true := by
    rw [ne_eq, BitVec.toNat_inj.symm, BitVec.extractLsb'_toNat, Nat.shiftRight_eq_div_pow, Nat.mod_eq_of_lt (by omega),
      beq_iff_eq]
    rfl
  have hop : (w.extractLsb' 0 8).toNat = opField w := by simp [opField]
  have hd : (w.extractLsb' 8 4).toNat = dField w := by simp [dField, Nat.shiftRight_eq_div_pow]
  have ha : (w.extractLsb' 12 4).toNat = aField w := by simp [aField, Nat.shiftRight_eq_div_pow]
  have hb : (w.extractLsb' 16 4).toNat = bField w := by simp [bField, Nat.shiftRight_eq_div_pow]
  have hc : (w.extractLsb' 20 4).toNat = cField w := by simp [cField, Nat.shiftRight_eq_div_pow]
  unfold firstFailure
  simp only [hrsv, hop, hd, ha, hb, hc]
  cases row? (opField w) with
  | none => rfl
  | some r =>
    simp only [Option.elim_some, rowFailure, indexFailure, List.all_cons, all_unusedValues]
    generalize (badUnused r.d _ || badUnused r.a _ || badUnused r.b _ || badUnused r.c _) = unused
    cases rsvField w == 0 <;> cases unused <;> rfl

/-! ### The decoder's checks -/

theorem error?_unusedThen (fs : List Nat) (next : Decoded) :
    (unusedThen fs next).error? = if fs.all (· == 0) then next.error? else some .illField := by
  unfold unusedThen; split <;> rfl

theorem error?_selectThen {α : Type} (sel : Option α) (f : α → Instr) :
    (selectThen sel f).error? = if sel.isSome then none else some .illIndex := by
  cases sel <;> rfl

theorem error?_batchThen (a b : Fin 16) :
    (batchThen a b).error? = if 16 < a.val + b.val + 1 then some .illIndex else none := by
  unfold batchThen batchInRange
  by_cases h : a.val + b.val + 1 ≤ 16
  · rw [if_pos (decide_eq_true h), if_neg (by omega)]; rfl
  · rw [if_neg (by simpa using h), if_pos (by omega)]; rfl

theorem error?_fsel (v : Fin 16) (f : FConst → Instr) :
    (selectThen (FConst.ofField v) f).error? = if badSelector .fsel v then some .illIndex else none := by
  rw [error?_selectThen]; revert v; decide

theorem error?_ksel (v : Fin 16) (f : KConst → Instr) :
    (selectThen (KConst.ofField v) f).error? = if badSelector .ksel v then some .illIndex else none := by
  rw [error?_selectThen]; revert v; decide

theorem error?_psel (v : Fin 16) (f : PConst → Instr) :
    (selectThen (PConst.ofField v) f).error? = if badSelector .psel v then some .illIndex else none := by
  rw [error?_selectThen]; revert v; decide

theorem error?_crd (v : Fin 16) (f : Coord → Instr) :
    (selectThen (Coord.ofField v) f).error? = if badSelector .crd v then some .illIndex else none := by
  rw [error?_selectThen]; revert v; decide

/-- The decoder's rows are those of the opcode map, and it makes R111's checks on each. -/
theorem error?_decodeFields (op rsv : Nat) (d a b c : Fin 16) : (decodeFields op rsv d a b c).error? =
    (row? op).elim (some .illOpcode) (rowFailure op rsv d a b c) := by
  unfold decodeFields
  split
  case h_38 => simp_all [row?, Decoded.error?]
  all_goals rw [error?_unusedThen]
  -- FLDC, PLDC, PGET, PBNORM and KLDC: the rows with an operand that may be out of range
  case h_3 | h_19 | h_21 | h_33 | h_36 =>
    simp [row?, rowFailure, unusedValues, unusedValue, indexFailure, badSelector, error?_fsel, error?_psel, error?_crd,
      error?_batchThen, error?_ksel]
  all_goals rfl

/-- The decoder reports the first check of R111 that fails. -/
theorem error?_decode (w : CmdWord) : (decode w).error? = firstFailure w := by
  rw [firstFailure_eq, decode, error?_decodeFields]

theorem decodeFailure_eq (e : DecodeError) : decodeFailure e = ⟨.illegalCommand, causeOf e⟩ := by cases e <;> rfl

/-- Settles O4: the engine runs the pending word, by what it decodes to. -/
theorem decodeReportsTheFirstFailedCheck : Obligations.DecodeReportsTheFirstFailedCheck := by
  unfold Obligations.DecodeReportsTheFirstFailedCheck
  intro s w hready hcur
  rw [← error?_decode, engineTurn_pending hready hcur]
  cases hw : decode w with
  | instr i => exact ⟨i, rfl, runCommand_instr hw s⟩
  | illegal e =>
    rw [runCommand_illegal hw, decodeFailure_eq]
    exact ⟨_, rfl, completedFail_complete hcur _⟩

end Sys2Proof
end

section
/-! PBNORM (R262): the one-inversion batch of R263 normalizes each of its points by itself. -/

namespace Sys2Proof.Machine

/-! ### BatchNorm (R263) -/

/-- The inverse of Z, 0 for an Infinity. -/
def zInverse (c : Config) (q : Point) : Nat := (fieldInv? c q.z).getD 0

/-- The value of the product of the Z of a batch. -/
def zProduct (c : Config) (qs : List Point) : ZMod c.p := (qs.map fun q => toZ c q.z).prod

section
variable {c : Config}

theorem zProduct_concat (qs : List Point) (q : Point) : zProduct c (qs ++ [q]) = zProduct c qs * toZ c q.z := by
  simp [zProduct]

theorem normalize_of_finite {q : Point} (hq : q.z ≠ 0) : normalize c q = scaleToAffine c q (zInverse c q) := by
  obtain ⟨-, zi, hzi, e⟩ := (normalize_cases c q).resolve_left fun hinf => hq hinf.1
  rw [e, zInverse, hzi, Option.getD_some]

/-- A representative whose value inverts that of Z is the one FieldInv gives. -/
theorem eq_zInverse (h : c.FieldFacts) (hp : c.p.Prime) {q : Point} (hq : isRepPoint c q) (hz : q.z ≠ 0) {x : Nat}
    (hx : x < c.p) (hinv : toZ c x * toZ c q.z = 1) : x = zInverse c q := by
  obtain ⟨zi, hzi⟩ := Option.ne_none_iff_exists'.mp (mt (fieldInv?_eq_none q.z).mp hz)
  rw [zInverse, hzi, Option.getD_some, ← toZ_inj h hx (fieldInv?_rep h hzi)]
  exact left_inv_eq_right_inv hinv (toZ_fieldInv? h hp hq.2.2 hzi)

theorem runningProducts_concat (c : Config) (q : Point) : ∀ (qs : List Point) (acc : Nat),
    runningProducts c acc (qs ++ [q]) =
      runningProducts c acc qs ++ [montMul c ((runningProducts c acc qs).getLastD acc) q.z]
  | [], _ => rfl
  | q' :: qs, acc => by
    rw [List.cons_append, runningProducts, runningProducts_concat c q qs, runningProducts, List.getLastD_cons,
      List.cons_append]

theorem toZ_runningProducts_last (h : c.FieldFacts) : ∀ (qs : List Point) (acc : Nat),
    toZ c ((runningProducts c acc qs).getLastD acc) = toZ c acc * zProduct c qs
  | [], acc => (mul_one _).symm
  | q :: qs, acc => by
    rw [runningProducts, List.getLastD_cons, toZ_runningProducts_last h qs, toZ_montMul h, zProduct, zProduct,
      List.map_cons, List.prod_cons, mul_assoc]

/-- The first point has no running product before it: its place is ONE's. -/
theorem toZ_divideOut (h : c.FieldFacts) (ia : Nat) (pre : List Nat) :
    toZ c (divideOut c ia pre.reverse) = toZ c ia * toZ c (pre.getLastD c.rm) := by
  cases pre using List.reverseRecOn with
  | nil => rw [List.reverse_nil, divideOut, List.getLastD_nil, toZ_rm h, mul_one]
  | append_singleton pre v => rw [List.reverse_concat', divideOut, List.getLastD_concat, toZ_montMul h]

theorem divideOut_rep (h : c.FieldFacts) {ia : Nat} (hia : ia < c.p) : ∀ {pre : List Nat}, (∀ v ∈ pre, v < c.p) →
    divideOut c ia pre < c.p
  | [], _ => hia
  | v :: _, hpre => montMul_rep h hia (hpre v List.mem_cons_self)

/-- The walk back from the inverse of the whole product finds the inverse of each Z. -/
theorem walkBack_eq (h : c.FieldFacts) (hp : c.p.Prime) (qs : List Point) : ∀ (ia : Nat) (out : List Nat), ia < c.p →
    (∀ q ∈ qs, isRepPoint c q) → (∀ q ∈ qs, q.z ≠ 0) → toZ c ia * zProduct c qs = 1 →
    walkBack c ia qs.reverse (runningProducts c c.rm qs).reverse out = qs.map (zInverse c) ++ out := by
  induction qs using List.reverseRecOn with
  | nil => intro ia out _ _ _ _; rfl
  | append_singleton qs q ih =>
    intro ia out hia hrep hfin hinv
    simp only [List.forall_mem_append, List.forall_mem_singleton] at hrep hfin
    obtain ⟨hreps, hq⟩ := hrep
    obtain ⟨hfins, hz⟩ := hfin
    rw [zProduct_concat] at hinv
    have hpre : ∀ v ∈ (runningProducts c c.rm qs).reverse, v < c.p := fun v hv =>
      runningProducts_rep h qs (rm_rep h) hreps v (List.mem_reverse.mp hv)
    have hbefore : toZ c (divideOut c ia (runningProducts c c.rm qs).reverse) = toZ c ia * zProduct c qs := by
      rw [toZ_divideOut h, toZ_runningProducts_last h, toZ_rm h, one_mul]
    have hzinv : divideOut c ia (runningProducts c c.rm qs).reverse = zInverse c q :=
      eq_zInverse h hp hq hz (divideOut_rep h hia hpre) (by rw [hbefore, mul_assoc, hinv])
    rw [runningProducts_concat, List.reverse_concat', List.reverse_concat', walkBack, hzinv,
      ih _ _ (montMul_rep h hia hq.2.2) hreps hfins (by rw [toZ_montMul h, mul_assoc, mul_comm (toZ c q.z), hinv]),
      List.map_append, List.append_assoc]
    rfl

/-- On Finite points the batch is Normalize of each. -/
theorem batchNormalize_finite (h : c.FieldFacts) (hp : c.p.Prime) {qs : List Point} (hrep : ∀ q ∈ qs, isRepPoint c q)
    (hfin : ∀ q ∈ qs, q.z ≠ 0) : batchNormalize c qs = .points (qs.map (normalize c)) := by
  have hany : ¬qs.any isInf = true := by simpa [isInf] using hfin
  have hlast := runningProducts_last_ne_zero h hp qs (rm_rep h) (rm_ne_zero h) hrep hfin
  obtain ⟨ia, hia⟩ := Option.ne_none_iff_exists'.mp (mt (fieldInv?_eq_none _).mp hlast)
  have hpre : ∀ v ∈ c.rm :: runningProducts c c.rm qs, v < c.p :=
    List.forall_mem_cons.mpr ⟨rm_rep h, runningProducts_rep h qs (rm_rep h) hrep⟩
  have hlt : (runningProducts c c.rm qs).getLastD c.rm < c.p := hpre _ List.getLastD_mem_cons
  have hinv : toZ c ia * zProduct c qs = 1 := by
    rw [mul_comm, ← toZ_fieldInv? h hp hlt hia, toZ_runningProducts_last h, toZ_rm h, one_mul]
  have hwalk := walkBack_eq h hp qs ia [] (fieldInv?_rep h hia) hrep hfin hinv
  simp only [batchNormalize, if_neg hany, hia]
  rw [hwalk, List.append_nil, List.zipWith_map_right, List.zipWith_self]
  exact congrArg _ (List.map_congr_left fun q hq => (normalize_of_finite (hfin q hq)).symm)

theorem batchNormalize_infinity {qs : List Point} {q : Point} (hq : q ∈ qs) (hz : q.z = 0) :
    batchNormalize c qs = .failed .infinity := by
  have hany : qs.any isInf = true := List.any_eq_true.mpr ⟨q, hq, beq_iff_eq.mpr hz⟩
  rw [batchNormalize, if_pos hany]

end

/-! ### The command -/

/-- The point file after a batch is written back: the registers of the batch take their new triples. -/
theorem readP_applyAll_map (r : Files) {is : List PReg} (his : is.Nodup) (f : PReg → Point) (j : PReg) :
    (r.applyAll (List.zipWith RegWrite.p is (is.map f))).readP j = if j ∈ is then f j else r.readP j := by
  split
  case isFalse hj => exact Files.readP_applyAll_not_mem _ _ _ _ hj
  case isTrue hj =>
    obtain ⟨n, hn, rfl⟩ := List.mem_iff_getElem.mp hj
    rw [Files.readP_applyAll_mem _ _ _ his n hn (by simpa using hn), List.getElem_map]

theorem execPbnorm_outOfRange {a : PReg} {b : Fin 16} (hrange : ¬batchInRange a b = true) (s : State) :
    exec (.pbnorm a b) s = .next (s.complete (.fail (Cause.failure .illIndex))) := by
  simp only [exec, execPbnorm, if_neg hrange]

section
variable {s : State} {a : PReg} {b : Fin 16} (hrange : batchInRange a b = true)
include hrange

theorem execPbnorm_infinity {j : PReg} (hj : j ∈ batchRegs a b) (hz : (s.srcP j).z = 0) :
    exec (.pbnorm a b) s = .next (s.complete (.fail (Cause.failure .bnormInfinity))) := by
  simp only [exec, execPbnorm, if_pos hrange, batchNormalize_infinity (List.mem_map_of_mem hj) hz]

theorem execPbnorm_finite (hv : s.cfg.FieldValid) (hs : s.snapshot.Ok s.cfg)
    (hfin : ∀ j ∈ batchRegs a b, (s.srcP j).z ≠ 0) :
    exec (.pbnorm a b) s = .next (s.complete (.ok (List.zipWith RegWrite.p (batchRegs a b)
      ((batchRegs a b).map fun j => normalize s.cfg (s.srcP j))) none)) := by
  have hP : ∀ j, isRepPoint s.cfg (s.srcP j) := hs.p
  have hbatch := batchNormalize_finite (Config.admissible_fieldFacts hv.admissible) hv.prime
    (List.forall_mem_map.mpr fun j _ => hP j) (List.forall_mem_map.mpr hfin)
  simp only [exec, execPbnorm, if_pos hrange, hbatch, List.map_map]
  rfl

end

/-- Settles O56: decode and execution ask the same range, and the batch normalizes each of its points. -/
theorem pbnormNormalizesEachPointOfTheBatch : Obligations.PbnormNormalizesEachPointOfTheBatch := by
  unfold Obligations.PbnormNormalizesEachPointOfTheBatch
  intro s w a b hv hs hcur
  rw [decode_pbnorm]
  refine ⟨fun hab => ?_, fun hab => ?_⟩
  · have hrange : ¬batchInRange a b = true := by simp only [batchInRange, decide_eq_true_eq]; omega
    exact ⟨if_neg hrange, _, execPbnorm_outOfRange hrange s, completedFail_complete hcur _⟩
  · have hrange : batchInRange a b = true := decide_eq_true hab
    refine ⟨if_pos hrange, ?_, fun hfin => ?_⟩
    · rintro ⟨j, hja, hjb, hz⟩
      have hj := (mem_batchRegs hrange j).mpr ⟨hja, hjb⟩
      exact ⟨_, execPbnorm_infinity hrange hj hz, completedFail_complete hcur _⟩
    · have hexec := execPbnorm_finite hrange hv hs fun j hj => by
        obtain ⟨hja, hjb⟩ := (mem_batchRegs hrange j).mp hj
        exact hfin j hja hjb
      obtain ⟨hf, hk⟩ :=
        Files.applyAll_p_f ((batchRegs a b).map fun j => normalize s.cfg (s.srcP j)) (batchRegs a b) s.regs
      refine ⟨_, hexec, completedOk_complete (.refl s) rfl hcur _ _, rfl, fun j => ?_,
        fun j => congrArg (·.get j) hf, fun j => congrArg (·.get j) hk⟩
      rw [State.complete_ok_regs, readP_applyAll_map _ (batchRegs_nodup hrange)]
      simp only [mem_batchRegs hrange]

end Sys2Proof.Machine
end

section
/-! The register transfers NOP, FMOV, KMOV, PMOV, PSET and PGET (R130, R131, R136, R137, R139, R140), and the conversions
TOMONT and FROMM (R133, R134), which are R14's mont and std. -/

namespace Sys2Proof

theorem Coord.ofField_eq_none : ∀ {v : Fin 16}, 2 < v.val → Coord.ofField v = none := by decide

namespace Machine

/-! ### Commands that end in one write, with no draw before it -/

section
variable {s : State} {w : CmdWord} {i : Instr} (hcur : s.cur = some w)
include hcur

theorem completes_onlyF {d : FReg} {v : Nat} (h : exec i s = .next (s.complete (.ok [.f d v] none))) :
    ∃ t, exec i s = .next t ∧ CompletedOk s t w ∧ OnlyF s t d v :=
  ⟨_, h, completedOk_complete (.refl s) rfl hcur _ _, onlyF_complete (.refl s) d v⟩

theorem completes_onlyP {d : PReg} {q : Point} (h : exec i s = .next (s.complete (.ok [.p d q] none))) :
    ∃ t, exec i s = .next t ∧ CompletedOk s t w ∧ OnlyP s t d q :=
  ⟨_, h, completedOk_complete (.refl s) rfl hcur _ _, onlyP_complete (.refl s) d q⟩

theorem completes_onlyK {d : KReg} {v : Nat} (h : exec i s = .next (s.complete (.ok [.k d v] none))) :
    ∃ t, exec i s = .next t ∧ CompletedOk s t w ∧ OnlyK s t d v :=
  ⟨_, h, completedOk_complete (.refl s) rfl hcur _ _, onlyK_complete (.refl s) d v⟩

end

/-! ### TOMONT and FROMM on the snapshot -/

theorem exec_tomont_of_lt {s : State} (h : s.cfg.FieldFacts) {a : KReg} (hk : s.srcK a < s.cfg.p) (d : FReg) :
    exec (.tomont d a) s = .next (s.complete (.ok [.f d (s.cfg.mont (s.srcK a))] none)) := by
  rw [← montMul_r2 h hk]
  exact if_neg hk.not_ge

theorem exec_tomont_of_ge {s : State} {a : KReg} (hk : s.cfg.p ≤ s.srcK a) (d : FReg) :
    exec (.tomont d a) s = .next (s.complete (.fail (Cause.failure .notCanonical))) := if_pos hk

theorem exec_fromm (d : KReg) (a : FReg) (s : State) :
    exec (.fromm d a) s = .next (s.complete (.ok [.k d (std s.cfg (s.srcF a))] none)) := rfl

theorem std_eq_redc (c : Config) (a : Nat) : std c a = redc c a := by rw [std, montMul, mul_one]

/-! ### The commands -/

/-- Settles O34: each word by its row of the decoder, each transfer by the one write it ends in. -/
theorem registerTransfersComplete : Obligations.RegisterTransfersComplete := by
  unfold Obligations.RegisterTransfersComplete
  intro s w hcur
  refine ⟨⟨decode_encode (i := .nop) rfl, ?nop⟩, fun d a => ⟨decode_packWord (by decide) .., ?fmov⟩,
    fun d a => ⟨decode_packWord (by decide) .., ?kmov⟩, fun d a => ⟨decode_packWord (by decide) .., ?pmov⟩,
    fun d a b c => ⟨decode_packWord (by decide) .., ?pset⟩,
    fun d a => ⟨decode_pget d a 0, decode_pget d a 1, decode_pget d a 2, fun v hv => ?selector, ?pget⟩⟩
  case nop => exact ⟨_, rfl, completedOk_complete (.refl s) rfl hcur [] none, rfl, rfl⟩
  case fmov => exact completes_onlyF hcur rfl
  case kmov => exact completes_onlyK hcur rfl
  case pmov => exact completes_onlyP hcur rfl
  case pset => exact completes_onlyP hcur rfl
  case selector => rw [decode_pget, Coord.ofField_eq_none hv]; rfl
  case pget =>
    have hpick (crd : Coord) : ∃ t, exec (.pget d a crd) s = .next t ∧ CompletedOk s t w ∧
        OnlyF s t d (crd.pick (s.srcP a)) := completes_onlyF hcur rfl
    exact ⟨hpick .x, hpick .y, hpick .z⟩

/-- Settles O38: below p the product by R2 is R14's mont, and at or above p the check fails first. -/
theorem tomontLiftsCanonicalScalars : Obligations.TomontLiftsCanonicalScalars := by
  unfold Obligations.TomontLiftsCanonicalScalars
  intro s w d a hadm hcur
  have h := Config.admissible_fieldFacts hadm
  refine ⟨decode_packWord (by decide) .., fun hlt => ?_, fun hge => ?_⟩
  · exact completes_onlyF hcur (exec_tomont_of_lt h hlt d)
  · exact ⟨_, exec_tomont_of_ge hge d, completedFail_complete hcur _⟩

/-- Settles O39: FROMM is R14's std, which undoes mont and is undone by it. -/
theorem frommReturnsTheStandardResidue : Obligations.FrommReturnsTheStandardResidue := by
  unfold Obligations.FrommReturnsTheStandardResidue
  intro s w d a hadm ha hcur
  have h := Config.admissible_fieldFacts hadm
  obtain ⟨t, hexec, hdone, honly⟩ := completes_onlyK hcur (exec_fromm d a s)
  refine ⟨decode_packWord (by decide) .., t, std s.cfg (s.srcF a), hexec, hdone, honly, std_eq_redc _ _, std_rep ha,
    mont_std h ha, fun k hk hmont => ?_⟩
  calc k = std s.cfg (s.cfg.mont k) := (std_mont h hk).symm
    _ = std s.cfg (s.srcF a) := congrArg (std s.cfg) hmont

end Machine

end Sys2Proof
end

section
/-! Field arithmetic on representatives: REDC and MontMul in R160's and R161's own words, the additive operators as
arithmetic modulo p (R163 to R165), and the laws of the field (R166), each carried over from ZMod p. -/

namespace Sys2Proof

/-! ### What an integer is determined by -/

section
variable {c : Config} (h : c.FieldFacts)
include h

/-- A representative is determined by its product with R modulo p. -/
theorem eq_of_mul_radix_modEq {x y : Nat} (hx : x < c.p) (hy : y < c.p)
    (hxy : x * c.radix ≡ y * c.radix [MOD c.p]) : x = y :=
  (Nat.ModEq.cancel_right_of_coprime h.coprime hxy).eq_of_lt_of_lt hx hy

/-- A standard residue is any integer of its representative's value, modulo p. -/
theorem std_eq_mod {a v : Nat} (ha : a < c.p) (hv : toZ c a = (v : ZMod c.p)) : std c a = v % c.p := by
  rw [← std_cast h, ZMod.natCast_eq_natCast_iff] at hv
  rw [← hv, Nat.mod_eq_of_lt (std_rep ha)]

/-! ### REDC and MontMul -/

theorem eq_montMul {a b x : Nat} (ha : a < c.p) (hb : b < c.p) (hx : x < c.p)
    (hmod : x * c.radix ≡ a * b [MOD c.p]) : x = montMul c a b :=
  eq_of_mul_radix_modEq h hx (montMul_rep h ha hb) (hmod.trans (redc_mul_radix h (a * b)).symm)

theorem std_montMul {a b : Nat} (ha : a < c.p) (hb : b < c.p) :
    std c (montMul c a b) = std c a * std c b % c.p :=
  std_eq_mod h (montMul_rep h ha hb) (by rw [toZ_montMul h, Nat.cast_mul, std_cast h, std_cast h])

/-! ### The additive operators on standard residues -/

theorem std_fieldAdd {a b : Nat} (ha : a < c.p) (hb : b < c.p) :
    std c (fieldAdd c a b) = (std c a + std c b) % c.p :=
  std_eq_mod h (fieldAdd_rep ha hb) (by rw [toZ_fieldAdd, Nat.cast_add, std_cast h, std_cast h])

theorem std_fieldSub {a b : Nat} (ha : a < c.p) (hb : b < c.p) :
    std c (fieldSub c a b) = (std c a + (c.p - std c b)) % c.p :=
  std_eq_mod h (fieldSub_rep ha) (by
    rw [toZ_fieldSub hb, Nat.cast_add, Nat.cast_sub (std_rep hb).le, std_cast h, std_cast h, ZMod.natCast_self,
      zero_sub, sub_eq_add_neg])

theorem fieldAdd_fieldNeg {a : Nat} (ha : a < c.p) : fieldAdd c a (fieldNeg c a) = 0 :=
  (toZ_eq_zero h (fieldAdd_rep ha (fieldNeg_rep h.pPos))).mp (by rw [toZ_fieldAdd, toZ_fieldNeg ha, add_neg_cancel])

/-! ### The laws of the field -/

theorem fieldAdd_assoc {x y z : Nat} (hx : x < c.p) (hy : y < c.p) (hz : z < c.p) :
    fieldAdd c (fieldAdd c x y) z = fieldAdd c x (fieldAdd c y z) :=
  (toZ_inj h (fieldAdd_rep (fieldAdd_rep hx hy) hz) (fieldAdd_rep hx (fieldAdd_rep hy hz))).mp
    (by simp only [toZ_fieldAdd, add_assoc])

theorem montMul_assoc {x y z : Nat} (hx : x < c.p) (hy : y < c.p) (hz : z < c.p) :
    montMul c (montMul c x y) z = montMul c x (montMul c y z) :=
  (toZ_inj h (montMul_rep h (montMul_rep h hx hy) hz) (montMul_rep h hx (montMul_rep h hy hz))).mp
    (by simp only [toZ_montMul h, mul_assoc])

theorem montMul_fieldAdd {x y z : Nat} (hx : x < c.p) (hy : y < c.p) (hz : z < c.p) :
    montMul c x (fieldAdd c y z) = fieldAdd c (montMul c x y) (montMul c x z) :=
  (toZ_inj h (montMul_rep h hx (fieldAdd_rep hy hz)) (fieldAdd_rep (montMul_rep h hx hy) (montMul_rep h hx hz))).mp
    (by simp only [toZ_montMul h, toZ_fieldAdd, mul_add])

/-- Pow is the power of the standard residue, made a representative again (R172). -/
theorem fieldPow_eq_mont {a e : Nat} (ha : a < c.p) (he : e < 2 ^ c.w) :
    fieldPow c a e = c.mont (std c a ^ e % c.p) :=
  (toZ_inj h (fieldPow_rep h ha e) (mont_rep h _)).mp
    (by rw [toZ_fieldPow h a he, toZ_mont h, ZMod.natCast_mod, Nat.cast_pow, std_cast h])

end

section
variable {c : Config}

theorem fieldAdd_comm (a b : Nat) : fieldAdd c a b = fieldAdd c b a := by unfold fieldAdd; rw [add_comm]

theorem fieldAdd_zero {a : Nat} (ha : a < c.p) : fieldAdd c a 0 = a := if_neg ha.not_ge

theorem montMul_comm (a b : Nat) : montMul c a b = montMul c b a := by unfold montMul; rw [mul_comm]

/-- REDC's u is below 2p before the final subtraction, because m is below R (R160). -/
theorem redc_quotient_lt {x m : Nat} (hx : x < c.p * c.radix) (hm : m < c.radix) :
    (x + m * c.p) / c.radix < 2 * c.p := by
  rw [Nat.div_lt_iff_lt_mul c.radix_pos]
  calc x + m * c.p < c.p * c.radix + c.radix * c.p := add_lt_add_of_lt_of_le hx (Nat.mul_le_mul_right _ hm.le)
    _ = 2 * c.p * c.radix := by ring

/-! ### The additive operators modulo p -/

/-- The final subtraction of R160, R162 and R163 is reduction modulo p of an integer below 2p. -/
theorem subtractOnce_eq_mod {p u : Nat} (hu : u < 2 * p) : (if p ≤ u then u - p else u) = u % p := by
  split
  case isTrue hle => rw [Nat.mod_eq_sub_mod hle, Nat.mod_eq_of_lt (by omega)]
  case isFalse hlt => rw [Nat.mod_eq_of_lt (by omega)]

theorem fieldAdd_eq_mod {a b : Nat} (ha : a < c.p) (hb : b < c.p) : fieldAdd c a b = (a + b) % c.p :=
  subtractOnce_eq_mod (by omega)

theorem fieldSub_eq_mod {a b : Nat} (ha : a < c.p) (hb : b < c.p) : fieldSub c a b = (a + (c.p - b)) % c.p := by
  unfold fieldSub
  split
  case isTrue hle => rw [show a + (c.p - b) = a - b + c.p by omega, Nat.add_mod_right, Nat.mod_eq_of_lt (by omega)]
  case isFalse hlt => rw [Nat.mod_eq_of_lt (by omega), Nat.add_sub_assoc hb.le]

theorem fieldNeg_eq_mod {a : Nat} (ha : a < c.p) : fieldNeg c a = (c.p - a) % c.p := by
  unfold fieldNeg
  split
  case isTrue hzero => rw [hzero, Nat.sub_zero, Nat.mod_self]
  case isFalse hpos => rw [Nat.mod_eq_of_lt (by omega)]

end

/-! ### The rules -/

/-- Settles O29: INVW by the Newton steps that compute it, and the rest of R160 by the lemmas about REDC. -/
theorem redcReducesExactly : Obligations.RedcReducesExactly := by
  unfold Obligations.RedcReducesExactly
  intro c x hadm hx
  have h := Config.admissible_fieldFacts hadm
  have hinv : c.radix ∣ c.invW * c.p + 1 := negInv_mul h.pOdd (le_trans (by decide) h.w_ge) h.w_le
  exact ⟨Nat.mod_eq_zero_of_dvd hinv, Nat.mod_eq_zero_of_dvd (redc_exact h x),
    redc_quotient_lt hx (Nat.mod_lt _ c.radix_pos), redc_lt hx, redc_mul_radix h x⟩

/-- Settles O30: R is invertible modulo p, so the product times R⁻¹ has one representative. -/
theorem montMulIsTheUniqueReducedProduct : Obligations.MontMulIsTheUniqueReducedProduct := by
  unfold Obligations.MontMulIsTheUniqueReducedProduct
  intro c a b hadm ha hb
  have h := Config.admissible_fieldFacts hadm
  exact ⟨rfl, montMul_rep h ha hb, redc_mul_radix h (a * b), fun x => eq_montMul h ha hb, std_montMul h ha hb⟩

/-- Settles O32: each operation is its rule by definition, and the field's on values. -/
theorem additiveOperationsAreTheFields : Obligations.AdditiveOperationsAreTheFields := by
  unfold Obligations.AdditiveOperationsAreTheFields
  intro c a b hadm ha hb
  have h := Config.admissible_fieldFacts hadm
  exact ⟨rfl, fieldAdd_rep ha hb, std_fieldAdd h ha hb, rfl, fieldSub_rep ha, std_fieldSub h ha hb, rfl,
    fieldNeg_rep h.pPos, fieldAdd_fieldNeg h ha⟩

/-- Settles O33: a representative is determined by its value, and the values obey the laws of ZMod p. -/
theorem fieldLawsHoldOnRepresentatives : Obligations.FieldLawsHoldOnRepresentatives := by
  unfold Obligations.FieldLawsHoldOnRepresentatives
  intro c x y z hadm hx hy hz
  have h := Config.admissible_fieldFacts hadm
  exact ⟨fieldAdd_assoc h hx hy hz, fieldAdd_comm x y, montMul_assoc h hx hy hz, montMul_comm x y,
    montMul_fieldAdd h hx hy hz, fieldAdd_zero hx, Machine.montMul_rm h hx, rfl, fieldAdd_rep hx hy, fieldSub_rep hx,
    montMul_rep h hx hy, sq_rep h hx, fieldNeg_rep h.pPos⟩

end Sys2Proof
end

section
/-! The word-level multiplier (R162): each pass of its outer loop divides exactly by 2^64, so all of them together divide
the product and a multiple of p by R, as REDC does. -/

namespace Sys2Proof

theorem limbBase_pos : 0 < limbBase := Nat.two_pow_pos 64

/-- The integer that the accumulator holds. -/
def CiosAcc.value (t : CiosAcc) : Nat := ofLimbs (t.low ++ [t.top])

theorem CiosAcc.value_eq (t : CiosAcc) : t.value = ofLimbs t.low + limbBase ^ t.low.length * t.top := by
  rw [CiosAcc.value, ofLimbs_append, ofLimbs, ofLimbs, mul_zero, add_zero]

/-- With inv = −p⁻¹ for the lowest limb p₀ of the modulus, m clears the lowest limb of t + m·p. -/
theorem lowLimb_cleared {inv p₀ : Nat} (hinv : limbBase ∣ inv * p₀ + 1) (t₀ : Nat) :
    (t₀ + p₀ * (t₀ * inv % limbBase)) % limbBase = 0 := by
  have hmod : t₀ + p₀ * (t₀ * inv % limbBase) ≡ t₀ * (inv * p₀ + 1) [MOD limbBase] :=
    calc t₀ + p₀ * (t₀ * inv % limbBase) ≡ t₀ + p₀ * (t₀ * inv) [MOD limbBase] :=
          ((Nat.mod_modEq _ _).mul_left p₀).add_left t₀
      _ = t₀ * (inv * p₀ + 1) := by ring
  exact hmod.trans (Nat.modEq_zero_iff_dvd.mpr (hinv.mul_left t₀))

/-- The multiple of p that clears the lowest limb of an accumulator: m of R162. -/
def ciosFactor (inv : Nat) (ts : List Nat) : Nat := ts.headD 0 * inv % limbBase

theorem ciosFactor_lt (inv : Nat) (ts : List Nat) : ciosFactor inv ts < limbBase := Nat.mod_lt _ limbBase_pos

/-- The second row of a pass, which adds m·p. -/
def reductionRow (inv : Nat) (ts p : List Nat) : List Nat × Nat := macRow (ciosFactor inv ts) ts p 0

/-- The reduction row leaves a lowest limb 0, and its other limbs and its carry are the exact sum. -/
theorem reductionRow_value {inv p₀ : Nat} (hinv : limbBase ∣ inv * p₀ + 1) {ps : List Nat} :
    ∀ {ts : List Nat}, ts.length = (p₀ :: ps).length →
      limbBase * ofLimbs (reductionRow inv ts (p₀ :: ps)).1.tail +
          limbBase ^ ts.length * (reductionRow inv ts (p₀ :: ps)).2 =
        ofLimbs ts + ofLimbs (p₀ :: ps) * ciosFactor inv ts
  | t₀ :: ts, hlen => by
    have hrow : ofLimbs (reductionRow inv (t₀ :: ts) (p₀ :: ps)).1 + _ = _ := macRow_value _ _ _ 0 hlen
    have hclear : (reductionRow inv (t₀ :: ts) (p₀ :: ps)).1 =
        0 :: (reductionRow inv (t₀ :: ts) (p₀ :: ps)).1.tail := by
      simp only [reductionRow, ciosFactor, List.headD_cons, macRow, add_zero, lowLimb_cleared hinv, List.tail_cons]
    rwa [hclear, ofLimbs, zero_add, add_zero] at hrow

/-- The two words above the limbs take both carries of a pass without loss. -/
theorem CiosAcc.value_carryWords (ds : List Nat) (x y : Nat) :
    CiosAcc.value ⟨ds ++ [(x % limbBase + y) % limbBase], x / limbBase + (x % limbBase + y) / limbBase⟩ =
      ofLimbs ds + limbBase ^ ds.length * (x + y) := by
  have hx := Nat.mod_add_div x limbBase
  have hy := Nat.mod_add_div (x % limbBase + y) limbBase
  have hwords : (x % limbBase + y) % limbBase + limbBase * (x / limbBase + (x % limbBase + y) / limbBase) = x + y := by
    linarith
  rw [CiosAcc.value, List.append_assoc, List.singleton_append, ofLimbs_append, ofLimbs, ofLimbs, ofLimbs, mul_zero,
    add_zero, hwords]

section
variable {a ps : List Nat} {p₀ inv : Nat}

theorem ciosPass_low_length {t : CiosAcc} (b : Nat) (hp : t.low.length = (p₀ :: ps).length) :
    (ciosPass a (p₀ :: ps) inv t b).low.length = (p₀ :: ps).length := by
  simp [ciosPass, macRow_length, hp]

/-- A pass keeps the limbs of its reduction row but the lowest, and adds up both carries above them. -/
theorem ciosPass_value_eq (p : List Nat) (t : CiosAcc) (b : Nat) :
    (ciosPass a p inv t b).value =
      ofLimbs (reductionRow inv (macRow b t.low a 0).1 p).1.tail +
        limbBase ^ (reductionRow inv (macRow b t.low a 0).1 p).1.tail.length *
          (t.top + (macRow b t.low a 0).2 + (reductionRow inv (macRow b t.low a 0).1 p).2) :=
  CiosAcc.value_carryWords ..

/-- One pass adds a·b and m·p to the accumulator and divides by 2^64, exactly. -/
theorem ciosPass_value (hinv : limbBase ∣ inv * p₀ + 1) {t : CiosAcc} (ha : t.low.length = a.length)
    (hp : t.low.length = (p₀ :: ps).length) (b : Nat) :
    (ciosPass a (p₀ :: ps) inv t b).value * limbBase =
      t.value + ofLimbs a * b + ofLimbs (p₀ :: ps) * ciosFactor inv (macRow b t.low a 0).1 := by
  have hmulLen := macRow_length b t.low a 0
  have hmul := macRow_value b t.low a 0 ha
  have hred := reductionRow_value hinv (hmulLen.trans hp)
  have htail : (reductionRow inv (macRow b t.low a 0).1 (p₀ :: ps)).1.tail.length = ps.length := by
    rw [List.length_tail, reductionRow, macRow_length, hmulLen, hp, List.length_cons, Nat.add_sub_cancel]
  rw [hp, List.length_cons, pow_succ] at hmul
  rw [hmulLen, hp, List.length_cons, pow_succ] at hred
  rw [ciosPass_value_eq, CiosAcc.value_eq, htail, hp, List.length_cons, pow_succ]
  linarith

/-- The passes for the limbs of b together add a·b and a multiple of p, and divide by 2^64 once for each limb. -/
theorem foldl_ciosPass_value (hinv : limbBase ∣ inv * p₀ + 1) (ha : a.length = (p₀ :: ps).length) :
    ∀ (bs : List Nat) (t : CiosAcc), t.low.length = (p₀ :: ps).length → ∃ m < limbBase ^ bs.length,
      (bs.foldl (ciosPass a (p₀ :: ps) inv) t).value * limbBase ^ bs.length =
        t.value + ofLimbs a * ofLimbs bs + ofLimbs (p₀ :: ps) * m
  | [], t, _ => ⟨0, by simp, by simp [ofLimbs]⟩
  | b :: bs, t, hp => by
    have hpass := ciosPass_value hinv (hp.trans ha.symm) hp b
    obtain ⟨m, hm, hrest⟩ := foldl_ciosPass_value hinv ha bs _ (ciosPass_low_length (a := a) (inv := inv) b hp)
    have hfactor := ciosFactor_lt inv (macRow b t.low a 0).1
    rw [List.foldl_cons, List.length_cons, ofLimbs, pow_succ]
    refine ⟨ciosFactor inv (macRow b t.low a 0).1 + limbBase * m, ?_, ?_⟩
    · calc ciosFactor inv (macRow b t.low a 0).1 + limbBase * m < limbBase * (m + 1) := by linarith
        _ ≤ limbBase ^ bs.length * limbBase := by rw [mul_comm]; exact Nat.mul_le_mul_right _ hm
    · generalize bs.foldl (ciosPass a (p₀ :: ps) inv) _ = out at hrest ⊢
      calc out.value * (limbBase ^ bs.length * limbBase) = out.value * limbBase ^ bs.length * limbBase := by ring
        _ = (ciosPass a (p₀ :: ps) inv t b).value * limbBase +
            limbBase * (ofLimbs a * ofLimbs bs + ofLimbs (p₀ :: ps) * m) := by rw [hrest]; ring
        _ = _ := by rw [hpass]; ring

end

/-! ### The multiplier of a configuration -/

theorem Config.limbBase_pow (c : Config) : limbBase ^ c.n = c.radix := (pow_mul 2 64 c.n).symm

theorem ofLimbs_replicate_zero : ∀ n, ofLimbs (List.replicate n 0) = 0
  | 0 => rfl
  | n + 1 => by rw [List.replicate_succ, ofLimbs, ofLimbs_replicate_zero n, mul_zero, add_zero]

theorem CiosAcc.value_zero (n : Nat) : CiosAcc.value ⟨List.replicate n 0, 0⟩ = 0 := by
  rw [CiosAcc.value_eq, ofLimbs_replicate_zero, mul_zero, add_zero]

/-- The accumulator after the outer loop of R162. -/
def ciosLoop (c : Config) (a b : Nat) : CiosAcc :=
  (limbsOf c.n b).foldl (ciosPass (limbsOf c.n a) (limbsOf c.n c.p) c.inv64) ⟨List.replicate c.n 0, 0⟩

theorem montMulCios_eq (c : Config) (a b : Nat) : montMulCios c a b =
    if c.p ≤ (ciosLoop c a b).value then (ciosLoop c a b).value - c.p else (ciosLoop c a b).value := rfl

section
variable {c : Config} (h : c.FieldFacts)
include h

/-- The 64-bit INV is −1 over the lowest limb of p. -/
theorem inv64_lowLimb : limbBase ∣ c.inv64 * (c.p % limbBase) + 1 := by
  have hinv : limbBase ∣ c.inv64 * c.p + 1 := negInv_mul h.pOdd (by decide) (by decide)
  have hmod : c.inv64 * (c.p % limbBase) + 1 ≡ c.inv64 * c.p + 1 [MOD limbBase] :=
    ((Nat.mod_modEq _ _).mul_left _).add_right 1
  exact Nat.modEq_zero_iff_dvd.mp (hmod.trans (Nat.modEq_zero_iff_dvd.mpr hinv))

/-- Before the final subtraction the loop holds (a·b + m·p)/R with m below R, which is REDC's u by another m (R160). -/
theorem ciosLoop_value {a b : Nat} (ha : a < c.p) (hb : b < c.p) :
    ∃ m < c.radix, (ciosLoop c a b).value * c.radix = a * b + c.p * m := by
  have hlimbs {x : Nat} (hx : x ≤ c.p) : ofLimbs (limbsOf c.n x) = x :=
    ofLimbs_limbsOf _ _ (by rw [c.limbBase_pow]; exact lt_of_le_of_lt hx h.pLt)
  have hplen := limbsOf_length c.n c.p
  obtain ⟨k, hk⟩ := Nat.exists_eq_add_one.mpr h.nPos
  have hp : limbsOf c.n c.p = c.p % limbBase :: limbsOf k (c.p / limbBase) := by rw [hk, limbsOf]
  obtain ⟨m, hm, hvalue⟩ := foldl_ciosPass_value (inv64_lowLimb h) (a := limbsOf c.n a)
    (ps := limbsOf k (c.p / limbBase)) (by rw [← hp, hplen, limbsOf_length]) (limbsOf c.n b)
    ⟨List.replicate c.n 0, 0⟩ (by rw [← hp, hplen, List.length_replicate])
  rw [limbsOf_length, c.limbBase_pow] at hm hvalue
  rw [← hp, hlimbs ha.le, hlimbs hb.le, hlimbs le_rfl, CiosAcc.value_zero, zero_add] at hvalue
  exact ⟨m, hm, hvalue⟩

end

/-- Settles O31: the loop's value times R is congruent to a·b and is below 2p, so the final subtraction leaves the unique
representative of R161. -/
theorem wordLevelMultiplierEqualsMontMul : Obligations.WordLevelMultiplierEqualsMontMul := by
  unfold Obligations.WordLevelMultiplierEqualsMontMul
  intro c a b hadm ha hb
  have h := Config.admissible_fieldFacts hadm
  obtain ⟨m, hm, hvalue⟩ := ciosLoop_value h ha hb
  rw [montMulCios_eq]
  generalize (ciosLoop c a b).value = u at *
  have hlt : u < 2 * c.p := by
    have hprod : a * b < c.p * c.radix := Nat.mul_lt_mul'' ha (hb.trans h.pLt)
    rw [← Nat.mul_div_cancel u c.radix_pos, hvalue, mul_comm c.p m]
    exact redc_quotient_lt hprod hm
  have hmod : u % c.p * c.radix ≡ a * b [MOD c.p] :=
    calc u % c.p * c.radix ≡ u * c.radix [MOD c.p] := (Nat.mod_modEq u c.p).mul_right _
      _ = a * b + c.p * m := hvalue
      _ ≡ a * b [MOD c.p] := by simp [Nat.ModEq]
  exact (subtractOnce_eq_mod hlt).trans (eq_montMul h ha hb (Nat.mod_lt _ h.pPos) hmod)

end Sys2Proof
end

section
/-! The field commands: FADD, FSUB, FNEG, FMUL, FSQR and FPOW each end in the one write of their operator (R167 to R172),
FEQ and FISZ in flags alone (R173, R174). -/

namespace Sys2Proof.Machine

/-- A command that ends in flags alone sets T and Z to what they test, and writes no register. -/
theorem completes_onlyFlags {s : State} {w : CmdWord} {i : Instr} (hcur : s.cur = some w) {fl : Flags}
    (h : exec i s = .next (s.complete (.ok [] (some fl)))) {isTrue isZero : Prop}
    (ht : fl.t = true ↔ isTrue) (hz : fl.z = true ↔ isZero) :
    ∃ t, exec i s = .next t ∧ CompletedOk s t w ∧ OnlyFlags s t isTrue isZero :=
  ⟨_, h, completedOk_complete (.refl s) rfl hcur _ _, ht, hz, rfl⟩

/-! ### The commands on the snapshot -/

section
variable {s : State} {a b : FReg}

theorem exec_fadd (ha : s.srcF a < s.cfg.p) (hb : s.srcF b < s.cfg.p) (d : FReg) :
    exec (.fadd d a b) s = .next (s.complete (.ok [.f d ((s.srcF a + s.srcF b) % s.cfg.p)] none)) := by
  rw [← fieldAdd_eq_mod ha hb]; rfl

theorem exec_fsub (ha : s.srcF a < s.cfg.p) (hb : s.srcF b < s.cfg.p) (d : FReg) :
    exec (.fsub d a b) s = .next (s.complete (.ok [.f d ((s.srcF a + (s.cfg.p - s.srcF b)) % s.cfg.p)] none)) := by
  rw [← fieldSub_eq_mod ha hb]; rfl

theorem exec_fneg (ha : s.srcF a < s.cfg.p) (d : FReg) :
    exec (.fneg d a) s = .next (s.complete (.ok [.f d ((s.cfg.p - s.srcF a) % s.cfg.p)] none)) := by
  rw [← fieldNeg_eq_mod ha]; rfl

theorem exec_fpow (h : s.cfg.FieldFacts) (ha : s.srcF a < s.cfg.p) {k : KReg} (hk : s.srcK k < 2 ^ s.cfg.w) (d : FReg) :
    exec (.fpow d a k) s =
      .next (s.complete (.ok [.f d (s.cfg.mont (std s.cfg (s.srcF a) ^ s.srcK k % s.cfg.p))] none)) := by
  rw [← fieldPow_eq_mont h ha hk]; rfl

/-- A command whose one write is the Montgomery product of two registers completes with it (R170, R171). -/
theorem completes_montMul {w : CmdWord} (hcur : s.cur = some w) (h : s.cfg.FieldFacts) (ha : s.srcF a < s.cfg.p)
    (hb : s.srcF b < s.cfg.p) {i : Instr} {d : FReg}
    (hexec : exec i s = .next (s.complete (.ok [.f d (montMul s.cfg (s.srcF a) (s.srcF b))] none))) :
    ∃ t x, exec i s = .next t ∧ CompletedOk s t w ∧ OnlyF s t d x ∧ x = montMul s.cfg (s.srcF a) (s.srcF b) ∧
      x < s.cfg.p ∧ x * 2 ^ s.cfg.w ≡ s.srcF a * s.srcF b [MOD s.cfg.p] := by
  obtain ⟨t, hnext, hdone, honly⟩ := completes_onlyF hcur hexec
  exact ⟨t, _, hnext, hdone, honly, rfl, montMul_rep h ha hb, redc_mul_radix h _⟩

end

/-! ### The statements -/

/-- Settles O41: both commands end in the write of a Montgomery product. -/
theorem multiplicativeFieldCommandsComplete : Obligations.MultiplicativeFieldCommandsComplete := by
  unfold Obligations.MultiplicativeFieldCommandsComplete
  intro s w d a b hadm ha hb hcur
  have h := Config.admissible_fieldFacts hadm
  exact ⟨⟨decode_packWord (by decide) .., completes_montMul hcur h ha hb rfl⟩,
    decode_packWord (by decide) .., completes_montMul hcur h ha ha rfl⟩

/-- Settles O42: Pow over the W bits of the exponent is the power of the value. -/
theorem fpowComputesThePower : Obligations.FpowComputesThePower := by
  unfold Obligations.FpowComputesThePower
  intro s w d a b hadm ha hb hcur
  have h := Config.admissible_fieldFacts hadm
  exact ⟨decode_packWord (by decide) .., completes_onlyF hcur (exec_fpow h ha hb d)⟩

/-- Settles O40: each operator is the arithmetic modulo p, for any p. -/
theorem additiveFieldCommandsComplete : Obligations.AdditiveFieldCommandsComplete := by
  unfold Obligations.AdditiveFieldCommandsComplete
  intro s w d a b ha hb hcur
  exact ⟨⟨decode_packWord (by decide) .., completes_onlyF hcur (exec_fadd ha hb d)⟩,
    ⟨decode_packWord (by decide) .., completes_onlyF hcur (exec_fsub ha hb d)⟩,
    decode_packWord (by decide) .., completes_onlyF hcur (exec_fneg ha d)⟩

/-- Settles O43: the flags of both tests are decided by equality of the registers' numbers. -/
theorem fieldTestsWriteTheirFlags : Obligations.FieldTestsWriteTheirFlags := by
  unfold Obligations.FieldTestsWriteTheirFlags
  intro s w a b hcur
  exact ⟨⟨decode_packWord (by decide) .., completes_onlyFlags hcur rfl beq_iff_eq beq_iff_eq⟩,
    decode_packWord (by decide) .., completes_onlyFlags hcur rfl beq_iff_eq beq_iff_eq⟩

end Sys2Proof.Machine
end

section
/-! Inverse and square roots on representatives: FieldInv's answer is the factor that gives ONE (R190); a representative is
a square exactly where its value is one in ZMod p, which Euler's criterion decides (R193), and Sqrt answers a root of every
square and of nothing else (R194, R195). -/

namespace Sys2Proof

variable {c : Config}

/-! ### The inverse -/

theorem std_rm (h : c.FieldFacts) : std c c.rm = 1 := by
  rw [std_eq_mod h (rm_rep h) (v := 1) (by rw [toZ_rm h, Nat.cast_one])]
  exact Nat.mod_eq_of_lt (lt_of_lt_of_le (by decide) h.pGe)

/-- FieldInv's answer is the factor that gives ONE. -/
theorem montMul_of_fieldInv? (h : c.FieldFacts) (hp : c.p.Prime) {a x : Nat} (ha : a < c.p)
    (hx : fieldInv? c a = some x) : montMul c a x = c.rm :=
  (toZ_inj h (montMul_rep h ha (fieldInv?_rep h hx)) (rm_rep h)).mp
    (by rw [toZ_montMul h, toZ_fieldInv? h hp ha hx, toZ_rm h])

/-! ### Squares -/

/-- Every element of ZMod p is the value of a representative. -/
theorem exists_rep_toZ (h : c.FieldFacts) (v : ZMod c.p) : ∃ y < c.p, toZ c y = v := by
  have : NeZero c.p := ⟨h.pPos.ne'⟩
  exact ⟨c.mont v.val, mont_rep h _, by rw [toZ_mont h, ZMod.natCast_zmod_val]⟩

theorem montMul_self_eq_iff (h : c.FieldFacts) {a y : Nat} (ha : a < c.p) (hy : y < c.p) :
    montMul c y y = a ↔ toZ c y * toZ c y = toZ c a := by
  rw [← toZ_montMul h, toZ_inj h (montMul_rep h hy hy) ha]

theorem exists_montMul_self_iff (h : c.FieldFacts) {a : Nat} (ha : a < c.p) :
    (∃ y, y < c.p ∧ montMul c y y = a) ↔ IsSquare (toZ c a) := by
  constructor
  · rintro ⟨y, -, rfl⟩
    exact ⟨toZ c y, toZ_montMul h y y⟩
  · rintro ⟨v, hv⟩
    obtain ⟨y, hy, rfl⟩ := exists_rep_toZ h v
    exact ⟨y, hy, (montMul_self_eq_iff h ha hy).mpr hv.symm⟩

/-- An element and its negation have one square. -/
theorem montMul_fieldNeg_self (h : c.FieldFacts) {x : Nat} (hx : x < c.p) :
    montMul c (fieldNeg c x) (fieldNeg c x) = montMul c x x :=
  (montMul_self_eq_iff h (montMul_rep h hx hx) (fieldNeg_rep h.pPos)).mpr
    (by rw [toZ_fieldNeg hx, neg_mul_neg, toZ_montMul h])

/-! ### The exponents of R193 and R194 -/

theorem pm1h_lt (h : c.FieldFacts) : c.pm1h < 2 ^ c.w :=
  lt_of_le_of_lt ((Nat.div_le_self _ _).trans (Nat.sub_le _ _)) h.pLt

theorem tm1h_lt (h : c.FieldFacts) : c.tm1h < 2 ^ c.w :=
  lt_of_le_of_lt ((Nat.div_le_self _ _).trans (Nat.sub_le _ _)) (h.t_lt.trans h.pLt)

theorem two_mul_tm1h_add_one (h : c.FieldFacts) : 2 * c.tm1h + 1 = c.t := by
  have hodd := h.s_t_spec.2
  unfold Config.tm1h
  omega

/-- (p − 1)/2 is t doubled s − 1 times. -/
theorem t_mul_two_pow (h : c.FieldFacts) {n : Nat} (hn : c.s = n + 1) : c.t * 2 ^ n = c.pm1h := by
  have hsplit := h.s_t_spec.1
  rw [hn, pow_succ'] at hsplit
  rw [Config.pm1h, ← hsplit, mul_assoc, Nat.mul_div_cancel_left _ two_pos, mul_comm]

/-- Euler's criterion, on the exponent PM1H. -/
theorem isSquare_toZ_iff [Fact c.p.Prime] (h : c.FieldFacts) {a : Nat} (ha : a < c.p) (h0 : a ≠ 0) :
    IsSquare (toZ c a) ↔ toZ c a ^ c.pm1h = 1 := by
  have hhalf : c.pm1h = c.p / 2 := by have := h.pOdd; unfold Config.pm1h; omega
  rw [hhalf, ZMod.euler_criterion c.p (mt (toZ_eq_zero h ha).mp h0)]

/-- The test of FQRT decides squares (R193). -/
theorem isResidue_iff [Fact c.p.Prime] (h : c.FieldFacts) {a : Nat} (ha : a < c.p) :
    isResidue c a = true ↔ IsSquare (toZ c a) := by
  by_cases h0 : a = 0
  case pos => simp [isResidue, h0]
  case neg =>
    calc isResidue c a = true ↔ fieldPow c a c.pm1h = c.rm := by simp [isResidue, h0]
      _ ↔ toZ c a ^ c.pm1h = 1 := by
        rw [← toZ_inj h (fieldPow_rep h ha _) (rm_rep h), toZ_fieldPow h a (pm1h_lt h), toZ_rm h]
      _ ↔ IsSquare (toZ c a) := (isSquare_toZ_iff h ha h0).symm

/-- NQRT has order 2^s: the non-residue to the (p − 1)/2 is −1 (R8, R9). -/
theorem nqrt_pow (hadm : c.admissible = true) {n : Nat} (hn : c.s = n + 1) : (c.nqrt : ZMod c.p) ^ 2 ^ n = -1 := by
  have h := Config.admissible_fieldFacts hadm
  have heuler : c.nqr ^ c.pm1h % c.p = c.p - 1 :=
    (powMod_eq _ _ _ _ (pm1h_lt h)).symm.trans (Config.admissible_paramFacts hadm).nqrNot
  calc (c.nqrt : ZMod c.p) ^ 2 ^ n = ((c.nqr ^ c.pm1h % c.p : Nat) : ZMod c.p) := by
        rw [nqrt_eq_pow h, ← t_mul_two_pow h hn, ZMod.natCast_mod, ZMod.natCast_mod, Nat.cast_pow, Nat.cast_pow, pow_mul]
    _ = -1 := by rw [heuler, Nat.cast_sub h.pPos, ZMod.natCast_self, Nat.cast_one, zero_sub]

/-! ### The inner loop -/

/-- The inner loop counts the squarings that bring the value to 1, or stops at its bound. -/
theorem orderLoop_spec (h : c.FieldFacts) : ∀ (k m : Nat) {x : Nat}, x < c.p → ∃ j ≤ k, orderLoop c k m x = m + j ∧
    (∀ i < j, toZ c x ^ 2 ^ i ≠ 1) ∧ (j = k ∨ toZ c x ^ 2 ^ j = 1)
  | 0, m, x, _ => ⟨0, le_rfl, rfl, by simp, .inl rfl⟩
  | k + 1, m, x, hx => by
    rw [orderLoop]
    split
    case isTrue hone => exact ⟨0, Nat.zero_le _, rfl, by simp, .inr (by rw [hone, toZ_rm h, one_pow])⟩
    case isFalse hne =>
      obtain ⟨j, hj, hcount, hbelow, hend⟩ := orderLoop_spec h k (m + 1) (montMul_rep h hx hx)
      have hsq (i : Nat) : toZ c (montMul c x x) ^ 2 ^ i = toZ c x ^ 2 ^ (i + 1) := by
        rw [toZ_montMul h, ← pow_two, ← pow_mul, ← pow_succ']
      refine ⟨j + 1, Nat.succ_le_succ hj, by rw [hcount]; ring, fun i hi => ?_, ?_⟩
      · cases i with
        | zero => rwa [pow_zero, pow_one, ← toZ_rm h, Ne, toZ_inj h hx (rm_rep h)]
        | succ i => exact hsq i ▸ hbelow i (Nat.lt_of_succ_lt_succ hi)
      · exact hend.imp (congrArg (· + 1)) (hsq j ▸ ·)

/-- Of a value whose order is a power of 2 other than 1, the count is the exponent of that power: one squaring before it
the value is −1. -/
theorem orderLoop_eq_succ [Fact c.p.Prime] (h : c.FieldFacts) {n b : Nat} (hb : b < c.p) (hne : b ≠ c.rm)
    (hpow : toZ c b ^ 2 ^ n = 1) : ∃ m < n, orderLoop c (n + 1) 0 b = m + 1 ∧ toZ c b ^ 2 ^ m = -1 := by
  obtain ⟨j, hj, hcount, hbelow, hend⟩ := orderLoop_spec h (n + 1) 0 hb
  have hjn : j ≤ n := not_lt.mp fun hlt => hbelow n hlt hpow
  have hone : toZ c b ^ 2 ^ j = 1 := hend.resolve_left (by omega)
  cases j with
  | zero => rw [pow_zero, pow_one, ← toZ_rm h, toZ_inj h hb (rm_rep h)] at hone; exact absurd hone hne
  | succ m =>
    refine ⟨m, hjn, hcount.trans (Nat.zero_add _), ?_⟩
    rw [pow_succ, pow_mul] at hone
    exact (sq_eq_one_iff.mp hone).resolve_left (hbelow m m.lt_succ_self)

/-! ### The outer loop -/

theorem sqrtLoop_one (k v z x : Nat) : sqrtLoop c (k + 1) v z x c.rm = some x := if_pos rfl

theorem sqrtLoop_fail {v b : Nat} (hb : b ≠ c.rm) (hv : orderLoop c v 0 b = v) (k z x : Nat) :
    sqrtLoop c (k + 1) v z x b = none := (if_neg hb).trans (if_pos hv)

theorem sqrtLoop_pass {v b m : Nat} (hb : b ≠ c.rm) (hm : orderLoop c v 0 b = m) (hv : m ≠ v) (k z x : Nat) :
    let w := squareTimes c (v - m - 1) z
    sqrtLoop c (k + 1) v z x b = sqrtLoop c k m (montMul c w w) (montMul c x w) (montMul c b (montMul c w w)) := by
  subst hm
  exact (if_neg hb).trans (if_neg hv)

/-- Every pass keeps x² = a·b, so what the loop answers where b is ONE is a root of a. -/
theorem sqrtLoop_sq (h : c.FieldFacts) {a : Nat} : ∀ (k : Nat) {v z x b r : Nat},
    toZ c x * toZ c x = toZ c a * toZ c b → sqrtLoop c k v z x b = some r → toZ c r * toZ c r = toZ c a
  | k + 1, v, z, x, b, r, hx, hr => by
    by_cases hb : b = c.rm
    case pos =>
      rw [hb, toZ_rm h, mul_one] at hx
      rw [hb, sqrtLoop_one] at hr
      exact Option.some.inj hr ▸ hx
    case neg =>
      by_cases hv : orderLoop c v 0 b = v
      case pos => rw [sqrtLoop_fail hb hv] at hr; cases hr
      case neg =>
        rw [sqrtLoop_pass hb rfl hv] at hr
        refine sqrtLoop_sq h k ?_ hr
        simp only [toZ_montMul h]
        linear_combination toZ c (squareTimes c (v - orderLoop c v 0 b - 1) z) ^ 2 * hx

/-- What holds before a pass with v = n + 1 where a is a square: z has order 2^v, and the order of b divides 2^(v − 1). -/
structure SqrtPassInv (c : Config) (n z b : Nat) : Prop where
  zRep : z < c.p
  bRep : b < c.p
  zPow : toZ c z ^ 2 ^ n = -1
  bPow : toZ c b ^ 2 ^ n = 1

/-- A pass keeps it at the lower order: both b and the square of w, one squaring before 1, are −1 (R195). -/
theorem SqrtPassInv.pass (h : c.FieldFacts) {n z b m w : Nat} (hinv : SqrtPassInv c n z b) (hm : m < n)
    (hbm : toZ c b ^ 2 ^ m = -1) (hw : w = squareTimes c (n + 1 - (m + 1) - 1) z) :
    SqrtPassInv c m (montMul c w w) (montMul c b (montMul c w w)) := by
  have hzPow : toZ c (montMul c w w) ^ 2 ^ m = -1 := by
    have hexp : 2 ^ (n + 1 - (m + 1) - 1) * (2 * 2 ^ m) = 2 ^ n := by
      rw [← pow_succ', ← pow_add]; congr 1; omega
    rw [toZ_montMul h, ← pow_two, hw, toZ_squareTimes h, ← pow_mul, ← pow_mul, hexp, hinv.zPow]
  have hwrep : w < c.p := hw ▸ squareTimes_rep h _ hinv.zRep
  have hzRep := montMul_rep h hwrep hwrep
  exact ⟨hzRep, montMul_rep h hinv.bRep hzRep, hzPow,
    by rw [toZ_montMul h, mul_pow, hbm, hzPow, neg_one_mul, neg_neg]⟩

/-- With the invariant no pass fails, and v falls until b is ONE. -/
theorem sqrtLoop_isSome [Fact c.p.Prime] (h : c.FieldFacts) : ∀ (k : Nat) {n z x b : Nat}, n + 1 < k →
    SqrtPassInv c n z b → (sqrtLoop c k (n + 1) z x b).isSome = true
  | k + 1, n, z, x, b, hk, hinv => by
    by_cases hb : b = c.rm
    case pos => rw [hb, sqrtLoop_one, Option.isSome_some]
    case neg =>
      obtain ⟨m, hm, hcount, hbm⟩ := orderLoop_eq_succ h hinv.bRep hb hinv.bPow
      rw [sqrtLoop_pass hb hcount (by omega)]
      exact sqrtLoop_isSome h k (by omega) (hinv.pass h hm hbm rfl)

/-! ### Sqrt -/

theorem fieldSqrt?_of_ne_zero {a w : Nat} (h0 : a ≠ 0) (hw : w = fieldPow c a c.tm1h) :
    fieldSqrt? c a = sqrtLoop c (c.s + 1) c.s (c.mont c.nqrt) (montMul c a w) (montMul c (montMul c a w) w) :=
  hw ▸ if_neg h0

/-- What Sqrt answers is a root. -/
theorem montMul_self_of_fieldSqrt? (h : c.FieldFacts) {a r : Nat} (ha : a < c.p) (hr : fieldSqrt? c a = some r) :
    montMul c r r = a := by
  rw [montMul_self_eq_iff h ha (fieldSqrt?_rep h ha hr)]
  by_cases h0 : a = 0
  case pos =>
    rw [h0] at hr ⊢
    rw [← Option.some.inj hr, toZ_zero, mul_zero]
  case neg =>
    rw [fieldSqrt?_of_ne_zero h0 rfl] at hr
    refine sqrtLoop_sq h _ ?_ hr
    simp only [toZ_montMul h]
    ring

/-- Before the first pass b is a^t, of order dividing 2^(s − 1) where a is a square, and z is NQRT, of order 2^s. -/
theorem sqrtPassInv_start [Fact c.p.Prime] (hadm : c.admissible = true) {a n w : Nat} (ha : a < c.p) (h0 : a ≠ 0)
    (hsq : IsSquare (toZ c a)) (hn : c.s = n + 1) (hw : w = fieldPow c a c.tm1h) :
    SqrtPassInv c n (c.mont c.nqrt) (montMul c (montMul c a w) w) := by
  have h := Config.admissible_fieldFacts hadm
  have hwrep : w < c.p := hw ▸ fieldPow_rep h ha _
  refine ⟨mont_rep h _, montMul_rep h (montMul_rep h ha hwrep) hwrep, by rw [toZ_mont h, nqrt_pow hadm hn], ?_⟩
  have hb : toZ c (montMul c (montMul c a w) w) = toZ c a ^ c.t := by
    rw [toZ_montMul h, toZ_montMul h, hw, toZ_fieldPow h a (tm1h_lt h), ← two_mul_tm1h_add_one h]
    ring
  rw [hb, ← pow_mul, t_mul_two_pow h hn, ← isSquare_toZ_iff h ha h0]
  exact hsq

/-- Sqrt succeeds exactly on squares. -/
theorem fieldSqrt?_isSome_iff [Fact c.p.Prime] (hadm : c.admissible = true) {a : Nat} (ha : a < c.p) :
    (fieldSqrt? c a).isSome = true ↔ IsSquare (toZ c a) := by
  have h := Config.admissible_fieldFacts hadm
  constructor
  · intro hsome
    obtain ⟨r, hr⟩ := Option.isSome_iff_exists.mp hsome
    exact (exists_montMul_self_iff h ha).mp ⟨r, fieldSqrt?_rep h ha hr, montMul_self_of_fieldSqrt? h ha hr⟩
  · intro hsq
    by_cases h0 : a = 0
    case pos => rw [h0]; rfl
    case neg =>
      obtain ⟨n, hn⟩ := Nat.exists_eq_add_one.mpr (s_pos h)
      have hinv := sqrtPassInv_start hadm ha h0 hsq hn rfl
      rw [fieldSqrt?_of_ne_zero h0 rfl, hn]
      exact sqrtLoop_isSome h _ (Nat.lt_succ_self _) hinv

end Sys2Proof
end

section
/-! FINV, FQRT and FSQRT (R190 to R197) on the snapshot. -/

namespace Sys2Proof.Machine

section
variable {s : State} {a : FReg}

theorem exec_finv_of_none (hx : fieldInv? s.cfg (s.srcF a) = none) (d : FReg) :
    exec (.finv d a) s = .next (s.complete (.fail (Cause.failure .invZero))) := by
  simp only [exec, execFinv, hx]

theorem exec_finv_of_some {x : Nat} (hx : fieldInv? s.cfg (s.srcF a) = some x) (d : FReg) :
    exec (.finv d a) s = .next (s.complete (.ok [.f d x] none)) := by
  simp only [exec, execFinv, hx]

theorem exec_fsqrt_of_none (hx : fieldSqrt? s.cfg (s.srcF a) = none) (d : FReg) :
    exec (.fsqrt d a) s = .next (s.complete (.fail (Cause.failure .notAResidue))) := by
  simp only [exec, execFsqrt, hx]

theorem exec_fsqrt_of_some {x : Nat} (hx : fieldSqrt? s.cfg (s.srcF a) = some x) (d : FReg) :
    exec (.fsqrt d a) s = .next (s.tick.complete (.ok [.f d (s.chooseRoot x)] none)) := by
  simp only [exec, execFsqrt, hx]

/-- Whichever root is chosen, it has the square of the root computed (R197). -/
theorem montMul_chooseRoot_self (h : s.cfg.FieldFacts) {x : Nat} (hx : x < s.cfg.p) :
    montMul s.cfg (s.chooseRoot x) (s.chooseRoot x) = montMul s.cfg x x := by
  rcases chooseRoot_cases s x with hroot | hroot
  · rw [hroot]
  · rw [hroot, montMul_fieldNeg_self h hx]

end

/-! ### The statements -/

/-- Settles O45: FieldInv answers on all but 0, with the factor that gives ONE. -/
theorem finvInvertsOrFails : Obligations.FinvInvertsOrFails := by
  unfold Obligations.FinvInvertsOrFails
  intro s w d a hv ha hcur
  have h := Config.admissible_fieldFacts hv.admissible
  refine ⟨decode_packWord (by decide) .., fun hzero => ?_, fun hnonzero => ?_⟩
  · exact ⟨_, exec_finv_of_none ((fieldInv?_eq_none _).mpr hzero) d, completedFail_complete hcur _⟩
  · obtain ⟨x, hx⟩ := Option.ne_none_iff_exists'.mp (mt (fieldInv?_eq_none _).mp hnonzero)
    obtain ⟨t, hexec, hdone, honly⟩ := completes_onlyF hcur (exec_finv_of_some hx d)
    have hlt := fieldInv?_rep h hx
    have hone := montMul_of_fieldInv? h hv.prime ha hx
    exact ⟨t, x, hexec, hdone, honly, hlt, hone, by rw [← std_montMul h ha hlt, hone, std_rm h]⟩

/-- Settles O46: Euler's criterion and the success of Sqrt both decide squares. -/
theorem fqrtDecidesSquares : Obligations.FqrtDecidesSquares := by
  unfold Obligations.FqrtDecidesSquares
  intro s w a hv ha hcur
  have h := Config.admissible_fieldFacts hv.admissible
  have : Fact s.cfg.p.Prime := ⟨hv.prime⟩
  have hsquare := exists_montMul_self_iff h ha
  obtain ⟨t, hexec, hdone, honly⟩ := completes_onlyFlags (i := .fqrt a) hcur rfl
    ((isResidue_iff h ha).trans hsquare.symm) beq_iff_eq
  exact ⟨decode_packWord (by decide) .., t, hexec, hdone, honly,
    honly.tFlag.trans (hsquare.trans (fieldSqrt?_isSome_iff hv.admissible ha).symm)⟩

/-- Settles O47: Sqrt answers on squares alone, with a root whose negation is the other. -/
theorem fsqrtFindsARootOrFails : Obligations.FsqrtFindsARootOrFails := by
  unfold Obligations.FsqrtFindsARootOrFails
  intro s w d a hv ha hcur
  have h := Config.admissible_fieldFacts hv.admissible
  have : Fact s.cfg.p.Prime := ⟨hv.prime⟩
  rw [exists_montMul_self_iff h ha, ← fieldSqrt?_isSome_iff hv.admissible ha]
  refine ⟨decode_packWord (by decide) .., fun hsome => ?_, fun hnone => ?_⟩
  · obtain ⟨x, hx⟩ := Option.isSome_iff_exists.mp hsome
    have hlt := fieldSqrt?_rep h ha hx
    exact ⟨_, s.chooseRoot x, exec_fsqrt_of_some hx d, completedOk_complete (tick_same s) rfl hcur _ _,
      onlyF_complete (tick_same s) d _, chooseRoot_rep h hlt,
      (montMul_chooseRoot_self h hlt).trans (montMul_self_of_fieldSqrt? h ha hx),
      fun hloop => by rw [chooseRoot_loop hloop, hx]⟩
  · exact ⟨_, exec_fsqrt_of_none (Option.not_isSome_iff_eq_none.mp hnone) d, completedFail_complete hcur _⟩

end Sys2Proof.Machine
end

section
/-! The curve equation as a property of the logical point (R17, R220): a triple meets it exactly where it stands for a
point of the curve, and so the group operations keep it. The commands PEQ, PISZ and PWF (R218 to R220). -/

namespace Sys2Proof.Machine

theorem isInf_iff (q : Point) : isInf q = true ↔ q.z = 0 := beq_iff_eq

section
variable {c : Config}

/-- What MAdd answers at all is Add's triple (R212, R213). -/
theorem eq_pointAdd_of_pointMAdd? (h : c.FieldFacts) {q1 q2 q : Point} (h1 : isRepPoint c q1) (h2 : isRepPoint c q2)
    (hq : pointMAdd? c q1 q2 = some q) : q = pointAdd c q1 q2 := by
  have hz : q2.z = c.rm ∨ q2.z = 0 := by
    by_contra hbad
    rw [(pointMAdd?_eq_none q1 q2).mpr (not_or.mp hbad)] at hq
    cases hq
  exact Option.some.inj (hq.symm.trans (pointMAdd?_eq_pointAdd h h1 h2 hz))

/-- Negation reflects the affine point in the x axis (R217). -/
theorem affine_pointNeg {q : Point} (hq : isRepPoint c q) :
    affineX c (pointNeg c q) = affineX c q ∧ affineY c (pointNeg c q) = -affineY c q :=
  ⟨rfl, by simp only [affineY, pointNeg, toZ_fieldNeg hq.2.1, neg_mul]⟩

variable [Fact c.p.Prime]

/-! ### What the tests decide -/

/-- PEQ's test, by the cases of R218: on two Finite points it is Add's doubling test. -/
theorem pointEq_iff (h : c.FieldFacts) {q1 q2 : Point} (h1 : isRepPoint c q1) (h2 : isRepPoint c q2) :
    pointEq c q1 q2 = true ↔ LogicalEq c q1 q2 := by
  unfold pointEq LogicalEq
  split
  case isTrue hz1 => simp [hz1]
  split
  case isTrue hz1 hz2 => simp [hz1, hz2]
  case isFalse hz1 hz2 =>
    rw [crossEqual_iff h h1 h2 hz1 hz2]
    simp [hz1, hz2]

/-- The affine equation on a Finite triple is the Jacobian one: Z⁶ clears its denominators. -/
theorem affine_equation_iff (h : c.FieldFacts) {q : Point} (hq : isRepPoint c q) (hz : q.z ≠ 0) :
    affineY c q ^ 2 = affineX c q ^ 3 + c.b ↔
      toZ c q.y ^ 2 = toZ c q.x ^ 3 + c.b * toZ c q.z ^ 6 := by
  have hZ := toZ_z_ne_zero h hq hz
  unfold affineX affineY
  field_simp

/-- PWF's test is the affine curve equation, true of every Infinity triple (R220). -/
theorem onCurve_iff (h : c.FieldFacts) {q : Point} (hq : isRepPoint c q) :
    onCurve c q = true ↔ q.z = 0 ∨ affineY c q ^ 2 = affineX c q ^ 3 + c.b := by
  unfold onCurve
  split
  case isTrue hz => simp [hz]
  case isFalse hz =>
    have ⟨hx, hy, hc⟩ := hq
    have hleft := sq_rep h hy
    have hright := fieldAdd_rep (montMul_rep h hx (sq_rep h hx))
      (montMul_rep h (mont_rep h c.b) (sq_rep h (montMul_rep h hc (sq_rep h hc))))
    rw [or_iff_right hz, affine_equation_iff h hq hz, beq_iff_eq, ← toZ_inj h hleft hright]
    simp only [toZ_fieldAdd, toZ_montMul h, toZ_sq h, toZ_mont h]
    ring_nf

/-! ### What keeps a point on the curve -/

/-- Whether a point is on the curve is a property of its logical point. -/
theorem onCurve_of_logicalEq (h : c.FieldFacts) {q q' : Point} (hq : isRepPoint c q) (hq' : isRepPoint c q')
    (he : LogicalEq c q' q) (hon : onCurve c q = true) : onCurve c q' = true := by
  rw [onCurve_iff h hq] at hon
  rw [onCurve_iff h hq']
  rcases he with ⟨hz', -⟩ | ⟨-, hz, ex, ey⟩
  · exact .inl hz'
  · rw [ex, ey]
    exact .inr (hon.resolve_left hz)

/-- The triples that pass PWF's test are those that stand for a point of the curve. -/
theorem onCurve_iff_stands (hadm : c.admissible = true) {q : Point} (hq : isRepPoint c q) :
    onCurve c q = true ↔ ∃ P : c.curve.Point, Stands c q P := by
  have h := Config.admissible_fieldFacts hadm
  have hpar := Config.admissible_paramFacts hadm
  have hns := curve_nonsingular_iff h ⟨hpar.bPos, hpar.bLt⟩ (affineX c q) (affineY c q)
  rw [onCurve_iff h hq, ← hns]
  constructor
  · intro hon
    by_cases hz : q.z = 0
    · exact ⟨0, .inl ⟨hz, rfl⟩⟩
    · exact ⟨_, .inr ⟨hz, hon.resolve_left hz, rfl⟩⟩
  · rintro ⟨P, ⟨hz, -⟩ | ⟨-, hpoint, -⟩⟩
    · exact .inl hz
    · exact .inr hpoint

/-- Normalize gives another triple of the logical point (R260). -/
theorem normalize_logicalEq (h : c.FieldFacts) {q : Point} (hq : isRepPoint c q) : LogicalEq c (normalize c q) q := by
  rcases normalize_cases c q with ⟨hz, e⟩ | ⟨hz, zi, hzi, e⟩
  · rw [e]
    exact .inl ⟨rfl, hz⟩
  · have hZ := toZ_z_ne_zero h hq hz
    have hinv : toZ c zi = (toZ c q.z)⁻¹ := eq_inv_of_mul_eq_one_right (toZ_fieldInv? h Fact.out hq.2.2 hzi)
    rw [e]
    refine .inr ⟨rm_ne_zero h, hz, ?_, ?_⟩
    · simp only [affineX, scaleToAffine, toZ_montMul h, toZ_sq h, toZ_rm h, hinv]
      field_simp
    · simp only [affineY, scaleToAffine, toZ_montMul h, toZ_sq h, toZ_rm h, hinv]
      field_simp

theorem onCurve_pointNeg (h : c.FieldFacts) {q : Point} (hq : isRepPoint c q) (hon : onCurve c q = true) :
    onCurve c (pointNeg c q) = true := by
  obtain ⟨ex, ey⟩ := affine_pointNeg hq
  rw [onCurve_iff h hq] at hon
  rw [onCurve_iff h (pointNeg_rep h hq), ex, ey, neg_sq]
  exact hon

theorem onCurve_pointG (hadm : c.admissible = true) : onCurve c (pointG c) = true := by
  have h := Config.admissible_fieldFacts hadm
  have hpar := Config.admissible_paramFacts hadm
  obtain ⟨P, hP, -⟩ := stands_pointG h ⟨hpar.bPos, hpar.bLt⟩ hpar.gOn
  exact (onCurve_iff_stands hadm (pointG_rep h)).mpr ⟨P, hP⟩

end

/-! ### The statements -/

/-- Settles O51: each sum, double and multiple stands for a point of the curve, MAdd's is Add's, and negation and Normalize
keep the curve equation of the affine point. -/
theorem groupOperationsStayOnTheCurve : Obligations.GroupOperationsStayOnTheCurve := by
  unfold Obligations.GroupOperationsStayOnTheCurve
  intro c q1 q2 k hv h1 h2 hon1 hon2
  have hadm := hv.admissible
  have h := Config.admissible_fieldFacts hadm
  have : Fact c.p.Prime := ⟨hv.prime⟩
  obtain ⟨P1, s1⟩ := (onCurve_iff_stands hadm h1).mp hon1
  obtain ⟨P2, s2⟩ := (onCurve_iff_stands hadm h2).mp hon2
  have hadd : onCurve c (pointAdd c q1 q2) = true :=
    (onCurve_iff_stands hadm (pointAdd_rep h h1 h2)).mpr ⟨_, stands_pointAdd h h1 h2 s1 s2⟩
  refine ⟨hadd, fun q hq => ?madd, ?dbl, onCurve_pointNeg h h1 hon1, ?mul, ?normalize, rfl, onCurve_pointG hadm⟩
  case madd => exact eq_pointAdd_of_pointMAdd? h h1 h2 hq ▸ hadd
  case dbl => exact (onCurve_iff_stands hadm (pointDbl_rep h h1)).mpr ⟨_, stands_pointDbl h h1 s1⟩
  case mul =>
    exact (onCurve_iff_stands hadm (scalarMul_rep h k h1)).mpr
      ⟨_, stands_scalarLoop h k h1 s1 c.w (pointO c) false 0 (pointO_rep h) (.inl ⟨rfl, rfl⟩) fun _ => rfl⟩
  case normalize => exact onCurve_of_logicalEq h h1 (normalize_rep h h1) (normalize_logicalEq h h1) hon1

/-- Settles O52: each command ends in flags alone, and its test decides the property of the logical point. -/
theorem pointTestsDecideTheirProperties : Obligations.PointTestsDecideTheirProperties := by
  unfold Obligations.PointTestsDecideTheirProperties
  intro s w a b hv ha hb hcur
  have h := Config.admissible_fieldFacts hv.admissible
  have : Fact s.cfg.p.Prime := ⟨hv.prime⟩
  have hinf := isInf_iff (s.srcP a)
  exact ⟨⟨decode_packWord (by decide) .., completes_onlyFlags hcur rfl (pointEq_iff h ha hb) hinf⟩,
    ⟨decode_packWord (by decide) .., completes_onlyFlags hcur rfl hinf hinf⟩,
    decode_packWord (by decide) .., completes_onlyFlags hcur rfl (onCurve_iff h ha) hinf⟩

end Sys2Proof.Machine
end

section
/-! ScalarMul at the corners of its scalar and its point (R240), and the commands PSMUL, PCOF and PSSG (R241 to R245). -/

namespace Sys2Proof.Machine

/-! ### ScalarMul (R240) -/

section
variable {c : Config}

theorem pointAdd_pointO (q : Point) : pointAdd c (pointO c) q = q := if_pos rfl

theorem scalarLoop_zero (q res : Point) : ∀ i, scalarLoop c 0 q i res false = res
  | 0 => rfl
  | i + 1 => by
    rw [scalarLoop, if_neg (by simp)]
    exact scalarLoop_zero q res i

theorem scalarMul_zero (c : Config) (q : Point) : scalarMul c 0 q = pointO c := scalarLoop_zero q _ c.w

/-- ScalarMul starts at the most significant bit that is set, with the point itself: the bits above it leave O (R240). -/
theorem scalarLoop_skip {k : Nat} (hk : k ≠ 0) (q : Point) : ∀ i, k < 2 ^ i →
    scalarLoop c k q i (pointO c) false = scalarLoop c k q k.log2 q true
  | 0, hlt => absurd (Nat.lt_one_iff.mp hlt) hk
  | i + 1, hlt => by
    rw [scalarLoop]
    split
    case isTrue hbit =>
      rw [(Nat.log2_eq_iff hk).mpr ⟨Nat.ge_two_pow_of_testBit hbit, hlt⟩]
      exact congrArg (scalarLoop c k q i · true) (pointAdd_pointO q)
    case isFalse hbit =>
      have hne : k.log2 ≠ i := fun e => hbit (e ▸ Nat.testBit_log2 hk)
      have hle : k.log2 < i + 1 := (Nat.log2_lt hk).mpr hlt
      exact scalarLoop_skip hk q i ((Nat.log2_lt hk).mp (by omega))

theorem scalarMul_of_ne_zero {k : Nat} (hk : k ≠ 0) (hlt : k < 2 ^ c.w) (q : Point) :
    scalarMul c k q = scalarLoop c k q k.log2 q true := scalarLoop_skip hk q c.w hlt

theorem scalarMul_one (h : c.FieldFacts) (q : Point) : scalarMul c 1 q = q :=
  scalarMul_of_ne_zero one_ne_zero (Nat.one_lt_two_pow (by have := h.w_ge; omega)) q

/-- Doubling and adding an Infinity triple returns it unchanged (R211, R212). -/
theorem scalarLoop_infinity (k : Nat) {q : Point} (hz : q.z = 0) : ∀ i, scalarLoop c k q i q true = q
  | 0 => rfl
  | i + 1 => by
    have hdbl : pointDbl c q = q := if_pos hz
    have hadd : pointAdd c q q = q := if_pos hz
    simp only [scalarLoop, hdbl, hadd, scalarLoop_infinity k hz i, ite_self]

/-- Every multiple of an Infinity but the one by 0 is its own triple (R240). -/
theorem scalarMul_infinity {k : Nat} (hk : k ≠ 0) (hlt : k < 2 ^ c.w) {q : Point} (hz : q.z = 0) :
    scalarMul c k q = q := by
  rw [scalarMul_of_ne_zero hk hlt, scalarLoop_infinity k hz]

end

/-! ### The triples of R210 -/

section
variable {s : State}

theorem scalarTriple_isTripleOf (h : s.cfg.FieldFacts) (k : Nat) (q : Point) :
    IsTripleOf s.cfg (scalarMul s.cfg k q) (s.scalarTriple k q) := by
  unfold State.scalarTriple
  split
  · exact .inl rfl
  · exact choosePoint_isTripleOf h _

theorem scalarTriple_zero (s : State) (q : Point) : s.scalarTriple 0 q = pointO s.cfg := scalarMul_zero s.cfg q

theorem scalarTriple_one (h : s.cfg.FieldFacts) (q : Point) : s.scalarTriple 1 q = q := scalarMul_one h q

/-- No draw concerns a multiple of an Infinity (R210). -/
theorem scalarTriple_infinity {k : Nat} (hk : k ≠ 0) (hlt : k < 2 ^ s.cfg.w) {q : Point} (hz : q.z = 0) :
    s.scalarTriple k q = q := by
  rw [State.scalarTriple, scalarMul_infinity hk hlt hz, choosePoint_of_infinity s hz, ite_self]

/-- A command that ends in one write of a point, after one draw, completes with that triple. -/
theorem completes_onlyP_tick {w : CmdWord} (hcur : s.cur = some w) {i : Instr} {d : PReg} {q : Point}
    (hexec : exec i s = .next (s.tick.complete (.ok [.p d q] none))) :
    ∃ t, exec i s = .next t ∧ CompletedOk s t w ∧ OnlyP s t d q :=
  ⟨_, hexec, completedOk_complete (tick_same s) rfl hcur _ _, onlyP_complete (tick_same s) d q⟩

end

/-! ### The commands -/

/-- Settles O54: PSMUL and PCOF end in the write of a multiple, whose corner cases are those of the loop of ScalarMul; PSSG
ends in flags alone. -/
theorem scalarMultiplicationCommandsComplete : Obligations.ScalarMultiplicationCommandsComplete := by
  unfold Obligations.ScalarMultiplicationCommandsComplete
  intro s w d a b hadm hb hcur
  have h := Config.admissible_fieldFacts hadm
  have hpar := Config.admissible_paramFacts hadm
  have hh : s.cfg.h ≠ 0 := Nat.one_le_iff_ne_zero.mp hpar.hPos
  have hr : s.cfg.r ≠ 0 := by have := hpar.rGe; omega
  refine ⟨⟨decode_packWord (by decide) .., ?psmul⟩, ⟨decode_packWord (by decide) .., ?pcof⟩,
    decode_packWord (by decide) .., ?pssg⟩
  case psmul =>
    obtain ⟨t, hexec, hdone, honly⟩ := completes_onlyP_tick (i := .psmul d a b) hcur rfl
    exact ⟨t, _, hexec, hdone, honly, scalarTriple_isTripleOf h _ _, fun h0 => by rw [h0, scalarTriple_zero],
      fun h1 => by rw [h1, scalarTriple_one h], fun h0 hz => scalarTriple_infinity h0 hb hz⟩
  case pcof =>
    obtain ⟨t, hexec, hdone, honly⟩ := completes_onlyP_tick (i := .pcof d a) hcur rfl
    exact ⟨t, _, hexec, hdone, honly, scalarTriple_isTripleOf h _ _, fun h1 => by rw [h1, scalarTriple_one h],
      fun hz => scalarTriple_infinity hh hpar.hLt hz⟩
  case pssg =>
    obtain ⟨t, hexec, hdone, honly⟩ := completes_onlyFlags (i := .pssg a) hcur rfl (isInf_iff _) (isInf_iff _)
    exact ⟨t, hexec, hdone, honly, fun hz => honly.tFlag.mpr (by rw [scalarMul_infinity hr hpar.rLt hz, hz])⟩

end Sys2Proof.Machine
end

section
/-! The recursion of ScalarMul on its scalar (R240). -/

namespace Sys2Proof.Machine

section
variable {c : Config}

theorem pointDbl_pointO (c : Config) : pointDbl c (pointO c) = pointO c := if_pos rfl

/-- The leading-zero skip of R240 changes no result: it leaves out the doublings of a triple that Dbl returns unchanged. -/
theorem scalarLoop_found (k : Nat) (q : Point) {res : Point} (hres : pointDbl c res = res) :
    ∀ i, scalarLoop c k q i res false = scalarLoop c k q i res true
  | 0 => rfl
  | i + 1 => by simp [scalarLoop, hres, scalarLoop_found k q hres i]

theorem scalarMul_eq_scalarLoop (c : Config) (k : Nat) (q : Point) :
    scalarMul c k q = scalarLoop c k q c.w (pointO c) true := scalarLoop_found k q (pointDbl_pointO c) c.w

/-- One turn of the loop, once it doubles: the triple is doubled, and the point added if the turn's bit is set. -/
theorem scalarLoop_succ_true (k : Nat) (q : Point) (i : Nat) (res : Point) : scalarLoop c k q (i + 1) res true =
    scalarLoop c k q i (if k.testBit i then pointAdd c (pointDbl c res) q else pointDbl c res) true := by
  rw [scalarLoop, if_pos rfl]
  split <;> rfl

/-- A clear bit above the bits of the scalar leaves O as it is. -/
theorem scalarLoop_high_zero {k i : Nat} (hk : k < 2 ^ i) (q : Point) :
    scalarLoop c k q (i + 1) (pointO c) true = scalarLoop c k q i (pointO c) true := by
  rw [scalarLoop_succ_true, Nat.testBit_lt_two_pow hk, if_neg Bool.false_ne_true, pointDbl_pointO]

/-- The last turn of the loop is that of bit 0; the turns before it are those of the scalar shifted right. -/
theorem scalarLoop_last (k : Nat) (q : Point) : ∀ i res, scalarLoop c k q (i + 1) res true =
    if k.testBit 0 then pointAdd c (pointDbl c (scalarLoop c (k / 2) q i res true)) q
    else pointDbl c (scalarLoop c (k / 2) q i res true)
  | 0, res => scalarLoop_succ_true k q 0 res
  | i + 1, res => by
    rw [scalarLoop_succ_true k q (i + 1), scalarLoop_last k q i, scalarLoop_succ_true (k / 2) q i res, Nat.testBit_div_two]

/-- ScalarMul from the scalar shifted right and its bit 0: the two clauses of the recursion in one equation. -/
theorem scalarMul_eq_of_div_two {k : Nat} (hw : c.w ≠ 0) (hk : k < 2 ^ c.w) (q : Point) : scalarMul c k q =
    if k.testBit 0 then pointAdd c (pointDbl c (scalarMul c (k / 2) q)) q
    else pointDbl c (scalarMul c (k / 2) q) := by
  obtain ⟨i, hi⟩ := Nat.exists_eq_succ_of_ne_zero hw
  have hhalf : k / 2 < 2 ^ i := by rw [hi, pow_succ] at hk; omega
  rw [scalarMul_eq_scalarLoop, scalarMul_eq_scalarLoop, hi, scalarLoop_last, scalarLoop_high_zero hhalf]

end

/-- Settles O53: bit 0 of the scalar is the last turn of the loop, which doubles the multiple by the scalar shifted right
and adds the point if that bit is set. -/
theorem scalarMulIsDoubleAndAdd : Obligations.ScalarMulIsDoubleAndAdd := by
  unfold Obligations.ScalarMulIsDoubleAndAdd
  refine fun c q => ⟨scalarMul_zero c q, fun k hk => ?_⟩
  have hw : c.w ≠ 0 := fun h0 => by rw [h0] at hk; omega
  constructor
  case left =>
    have hbit : (2 * k).testBit 0 = false := by simp
    rw [scalarMul_eq_of_div_two hw (Nat.lt_of_succ_lt hk), hbit, if_neg Bool.false_ne_true,
      Nat.mul_div_cancel_left k two_pos]
  case right =>
    have hbit : (2 * k + 1).testBit 0 = true := by simp
    have hhalf : (2 * k + 1) / 2 = k := by omega
    rw [scalarMul_eq_of_div_two hw hk, hbit, if_pos rfl, hhalf]

end Sys2Proof.Machine
end

section
/-! Normalize (R260) by the affine point alone, and PNORM (R261). -/

namespace Sys2Proof.Machine

section
variable {c : Config}

theorem normalize_of_infinity {q : Point} (hz : q.z = 0) : normalize c q = pointO c := by
  obtain ⟨-, e⟩ := (normalize_cases c q).resolve_right fun hfin => hfin.1 hz
  exact e

theorem normalize_z {q : Point} (hz : q.z ≠ 0) : (normalize c q).z = c.rm := by
  rw [normalize_of_finite hz]
  rfl

/-- The affine point of a Normalized triple is that of its own X and Y (R17). -/
theorem affine_of_normalized (h : c.FieldFacts) {q : Point} (hz : q.z = c.rm) :
    affineX c q = toZ c q.x ∧ affineY c q = toZ c q.y := by
  simp [affineX, affineY, hz, toZ_rm h]

variable [Fact c.p.Prime] (h : c.FieldFacts) {q : Point} (hq : isRepPoint c q)
include h hq

theorem toZ_normalize (hz : q.z ≠ 0) :
    toZ c (normalize c q).x = affineX c q ∧ toZ c (normalize c q).y = affineY c q := by
  obtain ⟨hx, hy⟩ := affine_of_normalized h (normalize_z (c := c) hz)
  obtain ⟨-, -, ex, ey⟩ := (normalize_logicalEq h hq).resolve_left fun hinf => hz hinf.2
  exact ⟨hx.symm.trans ex, hy.symm.trans ey⟩

/-- The one Normalized triple of representatives of a Finite affine point is what Normalize answers. -/
theorem normalize_eq_of_affine (hz : q.z ≠ 0) {x y : Nat} (hx : x < c.p) (hy : y < c.p)
    (ex : toZ c x = affineX c q) (ey : toZ c y = affineY c q) : normalize c q = ⟨x, y, c.rm⟩ := by
  obtain ⟨hnx, hny, -⟩ := normalize_rep h hq
  obtain ⟨nx, ny⟩ := toZ_normalize h hq hz
  have hX : (normalize c q).x = x := (toZ_inj h hnx hx).mp (nx.trans ex.symm)
  have hY : (normalize c q).y = y := (toZ_inj h hny hy).mp (ny.trans ey.symm)
  rw [← hX, ← hY, ← normalize_z (c := c) hz]

theorem normalize_of_normalized (hz : q.z = c.rm) : normalize c q = q := by
  obtain ⟨ex, ey⟩ := affine_of_normalized h hz
  rw [normalize_eq_of_affine h hq (hz ▸ rm_ne_zero h) hq.1 hq.2.1 ex.symm ey.symm, ← hz]

theorem normalize_eq_of_logicalEq {q' : Point} (hq' : isRepPoint c q') (he : LogicalEq c q' q) :
    normalize c q' = normalize c q := by
  rcases he with ⟨hz', hz⟩ | ⟨hz', hz, ex, ey⟩
  · rw [normalize_of_infinity hz', normalize_of_infinity hz]
  · obtain ⟨hx, hy, -⟩ := normalize_rep h hq
    obtain ⟨nx, ny⟩ := toZ_normalize h hq hz
    rw [normalize_eq_of_affine h hq' hz' hx hy (nx.trans ex.symm) (ny.trans ey.symm), ← normalize_z (c := c) hz]

/-- Normalize takes the negation of a point to the negation of its normal form. -/
theorem normalize_pointNeg (hz : q.z ≠ 0) :
    normalize c (pointNeg c q) = ⟨(normalize c q).x, fieldNeg c (normalize c q).y, c.rm⟩ := by
  obtain ⟨hx, hy, -⟩ := normalize_rep h hq
  obtain ⟨nx, ny⟩ := toZ_normalize h hq hz
  obtain ⟨ex, ey⟩ := affine_pointNeg hq
  exact normalize_eq_of_affine h (pointNeg_rep h hq) hz hx (fieldNeg_rep h.pPos) (nx.trans ex.symm)
    (by rw [toZ_fieldNeg hy, ny, ey])

end

/-- Settles O55: PNORM ends in the one write of Normalize, which depends on the logical point alone. -/
theorem pnormGivesTheCanonicalTriple : Obligations.PnormGivesTheCanonicalTriple := by
  unfold Obligations.PnormGivesTheCanonicalTriple
  intro s w d a hv ha hcur
  have h := Config.admissible_fieldFacts hv.admissible
  have : Fact s.cfg.p.Prime := ⟨hv.prime⟩
  obtain ⟨t, hexec, hdone, honly⟩ := completes_onlyP (i := .pnorm d a) hcur rfl
  exact ⟨decode_packWord (by decide) .., t, _, hexec, hdone, honly, rfl, normalize_logicalEq h ha, normalize_rep h ha,
    normalize_of_infinity, normalize_z, normalize_of_normalized h ha,
    fun _ hq2 he => normalize_eq_of_logicalEq h ha hq2 he⟩

end Sys2Proof.Machine
end

section
/-! The parity bit and Compress (R264), and PCOMP (R265). -/

namespace Sys2Proof

variable {c : Config}

theorem fieldNeg_eq_zero {a : Nat} (ha : a < c.p) : fieldNeg c a = 0 ↔ a = 0 := by
  unfold fieldNeg
  split <;> omega

theorem std_eq_val (h : c.FieldFacts) {a : Nat} (ha : a < c.p) : std c a = (toZ c a).val := by
  rw [← std_cast h, ZMod.val_natCast_of_lt (std_rep ha)]

/-- The standard residues of a representative other than 0 and its negation add up to p. -/
theorem std_fieldNeg_add_std (h : c.FieldFacts) {a : Nat} (ha : a < c.p) (h0 : a ≠ 0) :
    std c (fieldNeg c a) + std c a = c.p := by
  have : NeZero c.p := ⟨h.pPos.ne'⟩
  have : NeZero (toZ c a) := ⟨mt (toZ_eq_zero h ha).mp h0⟩
  rw [std_eq_val h (fieldNeg_rep h.pPos), std_eq_val h ha, toZ_fieldNeg ha, ZMod.val_neg_of_ne_zero]
  exact Nat.sub_add_cancel (ZMod.val_lt _).le

namespace Machine

theorem parity_lt_two (c : Config) (a : Nat) : parity c a < 2 := Nat.mod_lt _ two_pos

/-- Negation flips the parity bit, because p is odd. -/
theorem parity_fieldNeg (h : c.FieldFacts) {a : Nat} (ha : a < c.p) (h0 : a ≠ 0) :
    parity c (fieldNeg c a) = 1 - parity c a := by
  have hsum := std_fieldNeg_add_std h ha h0
  have hodd := h.pOdd
  unfold parity
  omega

theorem compress_infinity (h : c.FieldFacts) {q : Point} (hz : q.z = 0) : compress c q = (0, 3) := by
  have hpar : parity c (pointO c).y = 1 := congrArg (· % 2) (std_rm h)
  rw [compress, if_pos ((isInf_iff q).mpr hz), normalize_of_infinity hz, hpar]
  rfl

theorem compress_finite {q : Point} (hz : q.z ≠ 0) :
    compress c q = ((normalize c q).x, parity c (normalize c q).y) := by
  rw [compress, if_neg (mt (isInf_iff q).mp hz), zero_add]

/-- PCOMP ends in two writes, of one register of F and one of K (R265). -/
theorem exec_pcomp (d : FReg) (a : PReg) (b : KReg) (s : State) : exec (.pcomp d a b) s =
    .next (s.complete (.ok [.f d (compress s.cfg (s.srcP a)).1, .k b (compress s.cfg (s.srcP a)).2] none)) := rfl

/-- Settles O57: the frame is that of the two writes, and the values are Compress's on an Infinity and on a Finite point. -/
theorem pcompWritesXAndTheFlagWord : Obligations.PcompWritesXAndTheFlagWord := by
  unfold Obligations.PcompWritesXAndTheFlagWord
  intro s w d a b hv ha hcur
  have h := Config.admissible_fieldFacts hv.admissible
  have : Fact s.cfg.p.Prime := ⟨hv.prime⟩
  refine ⟨decode_packWord (by decide) .., _, (compress s.cfg (s.srcP a)).1, (compress s.cfg (s.srcP a)).2,
    exec_pcomp d a b s, completedOk_complete (.refl s) rfl hcur _ _, rfl, ?writtenF, ?writtenK, fun j hj => ?otherF,
    fun j hj => ?otherK, fun j => ?otherP, fun hz => ?infinity, fun hz => ?finite⟩
  case writtenF => simp [Files.readF_writeF]
  case writtenK => simp [Files.readK_writeK]
  case otherF => simp [Files.readF_writeF, hj]
  case otherK => simp [Files.readK_writeK, hj]
  case otherP => simp
  case infinity => simp [compress_infinity h hz]
  case finite =>
    obtain ⟨hx, hy, -⟩ := normalize_rep h ha
    obtain ⟨ex, ey⟩ := toZ_normalize h ha hz
    rw [compress_finite hz]
    exact ⟨hx, ex, by rw [parity, std_eq_val h hy, ey]⟩

end Machine

end Sys2Proof
end

section
/-! The roots y of y² = x³ + b, and Decompress (R266) by them. -/

namespace Sys2Proof.Machine

/-- `y` is the representative of a root of x³ + b: (x, y) is a point of the curve. -/
def IsOrdinate (c : Config) (x y : Nat) : Prop := y < c.p ∧ toZ c y ^ 2 = toZ c x ^ 3 + c.b

/-- What Decompress takes the root of, x³ + b (R266). -/
def radicand (c : Config) (x : Nat) : Nat := fieldAdd c (montMul c x (sq c x)) (c.mont c.b)

/-- The sign that Decompress gives a root: negated where its parity disagrees (R266). -/
def withParity (c : Config) (y b : Nat) : Nat := if parity c y = b then y else fieldNeg c y

section
variable {c : Config}

/-! ### The cases of Decompress (R266) -/

theorem decompress_of_badFlags {w : Nat} (hw : 4 ≤ w) (x : Nat) : decompress c x w = .malformed .badFlags := if_pos hw

theorem decompress_of_infinityFlag {w : Nat} (hw : w = 2 ∨ w = 3) (x : Nat) : decompress c x w = .point (pointO c) := by
  rcases hw with rfl | rfl <;> rfl

theorem decompress_of_lt_two {w : Nat} (hw : w < 2) (x : Nat) : decompress c x w =
    (fieldSqrt? c (radicand c x)).elim (.malformed .notResidue) fun y => .point ⟨x, withParity c y w, c.rm⟩ := by
  have hbit : w.testBit 1 = false := Nat.testBit_lt_two_pow hw
  rw [decompress, if_neg (by omega), hbit, if_neg Bool.false_ne_true, Nat.mod_eq_of_lt hw]
  unfold radicand
  split
  case h_1 hroot => rw [hroot]; rfl
  case h_2 y hroot => rw [hroot]; rfl

/-! ### Roots of x³ + b -/

theorem radicand_rep (h : c.FieldFacts) {x : Nat} (hx : x < c.p) : radicand c x < c.p :=
  fieldAdd_rep (montMul_rep h hx (sq_rep h hx)) (mont_rep h _)

theorem isOrdinate_iff (h : c.FieldFacts) {x : Nat} (hx : x < c.p) (y : Nat) :
    IsOrdinate c x y ↔ y < c.p ∧ montMul c y y = radicand c x := by
  refine and_congr_right fun hy => ?_
  rw [montMul_self_eq_iff h (radicand_rep h hx) hy, radicand, toZ_fieldAdd, toZ_montMul h, toZ_sq h, toZ_mont h]
  ring_nf

theorem IsOrdinate.fieldNeg (h : c.FieldFacts) {x y : Nat} (hy : IsOrdinate c x y) :
    IsOrdinate c x (Sys2Proof.fieldNeg c y) :=
  ⟨fieldNeg_rep h.pPos, by rw [toZ_fieldNeg hy.1, neg_sq, hy.2]⟩

theorem IsOrdinate.withParity (h : c.FieldFacts) {x y : Nat} (hy : IsOrdinate c x y) (b : Nat) :
    IsOrdinate c x (Machine.withParity c y b) := by
  unfold Machine.withParity
  split
  · exact hy
  · exact hy.fieldNeg h

theorem parity_withParity (h : c.FieldFacts) {y b : Nat} (hy : y < c.p) (hb : b < 2) (h0 : withParity c y b ≠ 0) :
    parity c (withParity c y b) = b := by
  unfold withParity at h0 ⊢
  split
  case isTrue hpar => exact hpar
  case isFalse hpar =>
    rw [if_neg hpar] at h0
    have hne : y ≠ 0 := mt (fieldNeg_eq_zero hy).mpr h0
    have hlt := parity_lt_two c y
    rw [parity_fieldNeg h hy hne]
    omega

variable [Fact c.p.Prime]

/-- At most two roots, a representative and its negation. -/
theorem IsOrdinate.eq_or_eq_fieldNeg (h : c.FieldFacts) {x y y' : Nat} (hy : IsOrdinate c x y)
    (hy' : IsOrdinate c x y') : y' = y ∨ y' = Sys2Proof.fieldNeg c y := by
  rw [← toZ_inj h hy'.1 hy.1, ← toZ_inj h hy'.1 (fieldNeg_rep h.pPos), toZ_fieldNeg hy.1]
  exact sq_eq_sq_iff_eq_or_eq_neg.mp (hy'.2.trans hy.2.symm)

/-- The parity bit tells the two roots apart; 0 is the only root of 0, whatever the bit. -/
theorem IsOrdinate.eq_of_parity (h : c.FieldFacts) {x y y' b : Nat} (hy : IsOrdinate c x y) (hy' : IsOrdinate c x y')
    (hpar : y ≠ 0 → parity c y = b) (hpar' : y' ≠ 0 → parity c y' = b) : y' = y := by
  rcases hy.eq_or_eq_fieldNeg h hy' with rfl | rfl
  case inl => rfl
  case inr =>
    by_cases h0 : y = 0
    case pos => rw [(fieldNeg_eq_zero hy.1).mpr h0, h0]
    case neg =>
      have hflip := parity_fieldNeg h hy.1 h0
      rw [hpar' (mt (fieldNeg_eq_zero hy.1).mp h0), hpar h0] at hflip
      omega

/-! ### Decompress by the roots -/

section
variable (hadm : c.admissible = true) {x w : Nat} (hx : x < c.p) (hw : w < 2)
include hadm hx

/-- Sqrt of x³ + b answers exactly where there is a root. -/
theorem fieldSqrt?_radicand_isSome_iff :
    (fieldSqrt? c (radicand c x)).isSome = true ↔ ∃ y, IsOrdinate c x y := by
  have h := Config.admissible_fieldFacts hadm
  rw [fieldSqrt?_isSome_iff hadm (radicand_rep h hx), ← exists_montMul_self_iff h (radicand_rep h hx)]
  exact exists_congr fun y => (isOrdinate_iff h hx y).symm

include hw

theorem decompress_of_no_ordinate (hno : ¬∃ y, IsOrdinate c x y) : decompress c x w = .malformed .notResidue := by
  rw [← fieldSqrt?_radicand_isSome_iff hadm hx, Option.not_isSome_iff_eq_none] at hno
  rw [decompress_of_lt_two hw, hno]
  rfl

/-- Where x³ + b has a root, Decompress finds the one with the parity bit, or 0. -/
theorem decompress_of_exists_ordinate (hex : ∃ y, IsOrdinate c x y) : ∃ y, decompress c x w = .point ⟨x, y, c.rm⟩ ∧
    IsOrdinate c x y ∧ (y ≠ 0 → parity c y = w) := by
  have h := Config.admissible_fieldFacts hadm
  obtain ⟨r, hr⟩ := Option.isSome_iff_exists.mp ((fieldSqrt?_radicand_isSome_iff hadm hx).mpr hex)
  have hrad := radicand_rep h hx
  have hroot : IsOrdinate c x r :=
    (isOrdinate_iff h hx r).mpr ⟨fieldSqrt?_rep h hrad hr, montMul_self_of_fieldSqrt? h hrad hr⟩
  refine ⟨withParity c r w, ?_, hroot.withParity h w, parity_withParity h hroot.1 hw⟩
  rw [decompress_of_lt_two hw, hr]
  rfl

/-- The root that Decompress finds is any root with the parity bit. -/
theorem decompress_of_ordinate {y : Nat} (hy : IsOrdinate c x y) (hpar : y ≠ 0 → parity c y = w) :
    decompress c x w = .point ⟨x, y, c.rm⟩ := by
  obtain ⟨r, hdec, hr, hparr⟩ := decompress_of_exists_ordinate hadm hx hw ⟨y, hy⟩
  rw [hdec, hy.eq_of_parity (Config.admissible_fieldFacts hadm) hr hpar hparr]

end

/-- The affine coordinates of a Finite point of the curve, as Normalize gives them. -/
theorem normalize_isOrdinate (h : c.FieldFacts) {q : Point} (hq : isRepPoint c q) (hz : q.z ≠ 0)
    (hon : onCurve c q = true) : IsOrdinate c (normalize c q).x (normalize c q).y := by
  obtain ⟨nx, ny⟩ := toZ_normalize h hq hz
  refine ⟨(normalize_rep h hq).2.1, ?_⟩
  rw [nx, ny]
  exact ((onCurve_iff h hq).mp hon).resolve_left hz

end

theorem xor_one_of_lt_two {w : Nat} (hw : w < 2) : w ^^^ 1 = 1 - w := by interval_cases w <;> rfl

/-- Settles O59: an Infinity by its flag; of a Finite point Compress keeps x and the parity of y, which tell y from the
other root of x³ + b, its negation. -/
theorem decompressInvertsCompress : Obligations.DecompressInvertsCompress := by
  unfold Obligations.DecompressInvertsCompress
  intro c q hv hq hon
  have h := Config.admissible_fieldFacts hv.admissible
  have : Fact c.p.Prime := ⟨hv.prime⟩
  obtain ⟨hx, hy, -⟩ := normalize_rep h hq
  have hpar := parity_lt_two c (normalize c q).y
  constructor
  case left =>
    by_cases hz : q.z = 0
    case pos =>
      rw [compress_infinity h hz, normalize_of_infinity hz]
      exact decompress_of_infinityFlag (.inr rfl) 0
    case neg =>
      rw [compress_finite hz, decompress_of_ordinate hv.admissible hx hpar (normalize_isOrdinate h hq hz hon) fun _ => rfl,
        ← normalize_z (c := c) hz]
  case right =>
    intro hz
    have hroot := (normalize_isOrdinate h hq hz hon).fieldNeg h
    rw [compress_finite hz, normalize_pointNeg h hq hz, xor_one_of_lt_two hpar]
    refine decompress_of_ordinate hv.admissible hx (by omega) hroot fun hne => ?_
    exact parity_fieldNeg h hy (mt (fieldNeg_eq_zero hy).mpr hne)

end Sys2Proof.Machine
end

section
/-! PDCMP (R267) on the snapshot. -/

namespace Sys2Proof.Machine

section
variable {s : State} {a : FReg} {b : KReg}

theorem exec_pdcmp_of_badFlags (hdec : decompress s.cfg (s.srcF a) (s.srcK b) = .malformed .badFlags) (d : PReg) :
    exec (.pdcmp d a b) s = .next (s.complete (.fail (Cause.failure .dcmpBadFlags))) := by
  simp only [exec, execPdcmp, hdec]

theorem exec_pdcmp_of_notResidue (hdec : decompress s.cfg (s.srcF a) (s.srcK b) = .malformed .notResidue) (d : PReg) :
    exec (.pdcmp d a b) s = .next (s.complete (.fail (Cause.failure .dcmpNotResidue))) := by
  simp only [exec, execPdcmp, hdec]

theorem exec_pdcmp_of_point {q : Point} (hdec : decompress s.cfg (s.srcF a) (s.srcK b) = .point q) (d : PReg) :
    exec (.pdcmp d a b) s = .next (s.complete (.ok [.p d q] none)) := by
  simp only [exec, execPdcmp, hdec]

end

/-- Settles O58: each outcome of PDCMP is a case of Decompress. -/
theorem pdcmpDecodesTheFlagWord : Obligations.PdcmpDecodesTheFlagWord := by
  unfold Obligations.PdcmpDecodesTheFlagWord
  intro s w d a b hv ha hcur square
  have : Fact s.cfg.p.Prime := ⟨hv.prime⟩
  refine ⟨decode_packWord (by decide) .., fun hbad => ?_, fun hinf => ?_, fun hw hno => ?_, fun hw hex => ?_⟩
  · exact ⟨_, exec_pdcmp_of_badFlags (decompress_of_badFlags hbad _) d, completedFail_complete hcur _⟩
  · exact completes_onlyP hcur (exec_pdcmp_of_point (decompress_of_infinityFlag hinf _) d)
  · exact ⟨_, exec_pdcmp_of_notResidue (decompress_of_no_ordinate hv.admissible ha hw hno) d,
      completedFail_complete hcur _⟩
  · obtain ⟨y, hdec, hy, hpar⟩ := decompress_of_exists_ordinate hv.admissible ha hw hex
    obtain ⟨t, hexec, hdone, honly⟩ := completes_onlyP hcur (exec_pdcmp_of_point hdec d)
    exact ⟨t, y, hexec, hdone, honly, hy, hpar⟩

end Sys2Proof.Machine
end

section
/-! The issue of a word (R301, R302), and the engine's turn on the pending one (R303 to R306, R309). -/

namespace Sys2Proof.Machine

/-! ### Issue -/

/-- A 64-bit write at the offset of CMD issues the word (R40, R301). -/
theorem busWrite_cmd (s : State) (v : BusWord) : s.busWrite (s.cfg.base + 0x018) 64 v = s.issue v := busWrite_csr s .cmd v

theorem issue_locked {s : State} (h : s.status.locked = true) (v : BusWord) : s.issue v = s.hazard := if_pos h

theorem issue_free {s : State} (h : s.status.locked = false) (v : BusWord) : s.issue v = s.accept (v.setWidth 32) :=
  if_neg (by simp [h])

/-- Settles O18: the write is an issue, which the lock decides. -/
theorem cmdWriteIsAcceptedOrDiscarded : Obligations.CmdWriteIsAcceptedOrDiscarded := by
  unfold Obligations.CmdWriteIsAcceptedOrDiscarded
  intro s v
  rw [busWrite_cmd]
  refine ⟨fun hready hbusy => ?_, fun hlocked => ?_⟩
  · rw [issue_free ((Status.locked_eq_false _).mpr ⟨hbusy, hready⟩), ← BitVec.setWidth_eq_extractLsb' (by decide)]
    rfl
  · exact issue_locked ((Status.locked_eq_true _).mpr hlocked.symm) v

/-- The first step of a command: an idle block whose next input is the issue of `w` accepts it. -/
theorem step_issue {s : State} {w : CmdWord} {rest : List BusEvent} (hv : s.cfg.Valid) (hidle : s.isIdle = true)
    (hin : s.inbox = .issue s.cfg w :: rest) : step s = .next (State.accept { s with inbox := rest } w) := by
  have hfree : s.status.locked = false := (State.isIdle_iff s).mp hidle
  have hwrite := busWrite_cmd { s with inbox := rest } (w.setWidth 64)
  rw [issue_free (s := { s with inbox := rest }) hfree, BitVec.setWidth_setWidth_of_le _ (by decide),
    BitVec.setWidth_eq] at hwrite
  rw [step_valid hv, transition_input hin]
  exact congrArg Host.Outcome.next hwrite

/-! ### The engine's turn on a pending word -/

/-- On a ready block with a pending word, the step that gives the engine its turn runs that word. -/
theorem step_engine {s : State} {w : CmdWord} {rest : List BusEvent} (hv : s.cfg.Valid) (hr : s.status.ready = true)
    (hcur : s.cur = some w) (hin : s.inbox = .engine :: rest) : step s = runCommand w { s with inbox := rest } := by
  rw [step_valid hv, transition_input hin]
  exact engineTurn_pending (s := { s with inbox := rest }) hr hcur

theorem transition_no_input {s : State} (h : s.inbox = []) : transition s = engineTurn s := by
  unfold transition; rw [h]

theorem step_no_input {s : State} {w : CmdWord} (hv : s.cfg.Valid) (hr : s.status.ready = true)
    (hcur : s.cur = some w) (hin : s.inbox = []) : step s = runCommand w s := by
  rw [step_valid hv, transition_no_input hin, engineTurn_pending hr hcur]

/-- Settles O5: the step runs the pending word, which decodes to the command. -/
theorem stepRunsTheDecodedCommand : Obligations.StepRunsTheDecodedCommand := by
  unfold Obligations.StepRunsTheDecodedCommand
  intro s w i rest hv hr hcur hdec
  refine ⟨fun hin => ?_, fun hin => ?_⟩
  · rw [step_engine hv hr hcur hin, runCommand_instr hdec]
  · rw [step_no_input hv hr hcur hin, runCommand_instr hdec]

/-- Every word but an FRAND completes when it runs, an illegal one with the failure of its decode error. -/
theorem runCommand_completes {w : CmdWord} (hw : ∀ d, decode w ≠ .instr (.frand d)) (s : State) :
    ∃ s' o, SameButDraws s s' ∧ runCommand w s = .next (s'.complete o) := by
  cases hdec : decode w with
  | illegal e => exact ⟨s, _, .refl s, runCommand_illegal hdec s⟩
  | instr i =>
    rw [runCommand_instr hdec]
    rcases exec_cases i s with hcompletes | ⟨d, rfl, -, -⟩
    · exact hcompletes
    · exact absurd hdec (hw d)

/-- Settles O6: the accept, then the completion of the word it made pending. -/
theorem issuedCommandCompletes : Obligations.IssuedCommandCompletes := by
  unfold Obligations.IssuedCommandCompletes
  intro s w rest hv hidle hin hw
  have hready : s.status.ready = true := ((Status.locked_eq_false _).mp ((State.isIdle_iff s).mp hidle)).2
  have haccept := step_issue hv hidle hin
  have hrun : step (State.accept { s with inbox := .engine :: rest } w) =
      runCommand w (State.accept { s with inbox := rest } w) :=
    step_engine (s := State.accept { s with inbox := .engine :: rest } w) hv hready rfl rfl
  obtain ⟨s', o, hs, hdone⟩ := runCommand_completes hw (State.accept { s with inbox := rest } w)
  obtain ⟨-, -, -, hcmd, hcur, hinbox, -, -, -, hcmdw, hbusy, hdoneBit, -⟩ := complete_frame s' o
  have hword : s'.curWord = w := State.curWord_of_cur hs.cur
  exact ⟨_, _, haccept, rfl, rfl, rfl, rfl, rfl, hrun.trans hdone, hbusy, hdoneBit, hcur, hcmd.trans hs.cmd,
    hcmdw.trans hword, hinbox.trans hs.inbox, fun i hdec => (runCommand_instr hdec _).symm.trans hdone⟩

end Sys2Proof.Machine
end

section
/-! A failure is reported from the state the command found (R323): no draw precedes it. -/

namespace Sys2Proof.Machine

/-- A meaning ends normally, with or without draws before, or fails from the state itself, or it is FRAND's and rejects a
round (R175). -/
def FailsInPlace (s : State) (r : Host.Outcome State Fault Refusal) : Prop :=
  (∃ s' ws fl, SameButDraws s s' ∧ r = .next (s'.complete (.ok ws fl))) ∨
    (∃ f, r = .next (s.complete (.fail f))) ∨ r = .next (afterRound s)

theorem FailsInPlace.ok {s s' : State} (h : SameButDraws s s') (ws : List RegWrite) (fl : Option Flags) :
    FailsInPlace s (.next (s'.complete (.ok ws fl))) := .inl ⟨s', ws, fl, h, rfl⟩

theorem FailsInPlace.fail (s : State) (f : Failure) : FailsInPlace s (.next (s.complete (.fail f))) :=
  .inr (.inl ⟨f, rfl⟩)

theorem exec_failsInPlace (i : Instr) (s : State) : FailsInPlace s (exec i s) := by
  cases i with
  | tomont d a =>
    simp only [exec, execTomont]
    split
    case isTrue => exact .fail s _
    case isFalse => exact .ok (.refl s) _ _
  | frand d =>
    simp only [exec, execFrand]
    split
    case isTrue => exact .ok (afterRound_same s) _ _
    case isFalse => exact .inr (.inr rfl)
  | finv d a =>
    simp only [exec, execFinv]
    split
    case h_1 => exact .fail s _
    case h_2 => exact .ok (.refl s) _ _
  | fsqrt d a =>
    simp only [exec, execFsqrt]
    split
    case h_1 => exact .fail s _
    case h_2 => exact .ok (tick_same s) _ _
  | pmadd d a b =>
    simp only [exec, execPmadd]
    split
    case h_1 => exact .fail s _
    case h_2 => exact .ok (tick_same s) _ _
  | pbnorm a b =>
    simp only [exec, execPbnorm]
    split
    case isFalse => exact .fail s _
    case isTrue =>
      split
      case h_1 => exact .fail s _
      case h_2 => exact .fail s _
      case h_3 => exact .ok (.refl s) _ _
  | pdcmp d a b =>
    simp only [exec, execPdcmp]
    split
    case h_1 => exact .fail s _
    case h_2 => exact .fail s _
    case h_3 => exact .ok (.refl s) _ _
  | padd | pdbl | psmul | pcof => exact .ok (tick_same s) _ _
  | nop | fmov | fldc | fromm | fadd | fsub | fneg | fmul | fsqr | fpow | fqrt | feq | fisz | pmov | pldc | pset | pget
  | pneg | peq | pisz | pwf | pssg | pnorm | pcomp | kldc | kmov => exact .ok (.refl s) _ _

/-- Settles O11: a normal end has category NONE and a rejected round leaves the word in flight, so the end is a failure,
from the state itself. -/
theorem failedCommandChangesNoRegister : Obligations.FailedCommandChangesNoRegister := by
  unfold Obligations.FailedCommandChangesNoRegister
  intro i s t w hcur h hdone hcat
  rcases exec_failsInPlace i s with ⟨s', ws, fl, -, e⟩ | ⟨f, e⟩ | e
  · obtain rfl := Host.Outcome.next.inj (e.symm.trans h)
    exact absurd rfl hcat
  · obtain rfl := Host.Outcome.next.inj (e.symm.trans h)
    exact completedFail_complete hcur f
  · obtain rfl := Host.Outcome.next.inj (e.symm.trans h)
    have hpending : s.cur = none := (afterRound_same s).cur.symm.trans hdone
    simp [hcur] at hpending

end Sys2Proof.Machine
end

section
/-! The level of IRQ (R320), and what raises and lowers it (R321). -/

namespace Sys2Proof.Machine

theorem State.irq_eq_true (s : State) : s.irq = true ↔ (s.status.done = true ∧ s.ctrl.ieDone = true) ∨
    ((s.status.fail = true ∨ s.status.hzd = true ∨ s.status.accErr = true) ∧ s.ctrl.ieErr = true) := by
  simp [State.irq, or_assoc]

/-- IRQ reads STATUS and CTRL alone. -/
theorem irq_congr {s t : State} (hstatus : t.status = s.status) (hctrl : t.ctrl = s.ctrl) : t.irq = s.irq := by
  rw [State.irq, State.irq, hstatus, hctrl]

/-- IRQ under enables that are all 0 is 0. -/
theorem irq_of_disabled {s : State} (hdone : s.ctrl.ieDone = false) (herr : s.ctrl.ieErr = false) : s.irq = false := by
  simp [State.irq, hdone, herr]

/-- Clearing, in STATUS, every bit that raises IRQ under the enables lowers it (R321). -/
theorem irq_writeOneToClear {s : State} {v : BusWord}
    (hdone : s.ctrl.ieDone = true → s.status.done = true → v.getLsbD 1 = true)
    (herr : s.ctrl.ieErr = true → (s.status.fail = true → v.getLsbD 2 = true) ∧
      (s.status.hzd = true → v.getLsbD 3 = true) ∧ (s.status.accErr = true → v.getLsbD 4 = true)) :
    State.irq { s with status := s.status.writeOneToClear v } = false := by
  rw [← Bool.not_eq_true, State.irq_eq_true]
  simp only [Status.writeOneToClear, Bool.and_eq_true, Bool.not_eq_true']
  rintro (⟨⟨hset, hkept⟩, hie⟩ | ⟨hbit, hie⟩)
  · cases hkept.symm.trans (hdone hie hset)
  · obtain ⟨hfail, hhzd, hacc⟩ := herr hie
    rcases hbit with ⟨hset, hkept⟩ | ⟨hset, hkept⟩ | ⟨hset, hkept⟩
    · cases hkept.symm.trans (hfail hset)
    · cases hkept.symm.trans (hhzd hset)
    · cases hkept.symm.trans (hacc hset)

/-- The accept clears DONE's part of IRQ and leaves the errors' (R302, R321). -/
theorem irq_accept (s : State) (w : CmdWord) : (s.accept w).irq = true ↔
    (s.status.fail = true ∨ s.status.hzd = true ∨ s.status.accErr = true) ∧ s.ctrl.ieErr = true := by
  simp [State.irq_eq_true]

/-- A read of a control or status register leaves IRQ (R78). -/
theorem irq_busRead_csr (s : State) (r : Csr) : (s.busRead (s.cfg.base + r.offset) 64).irq = s.irq := by
  rw [busRead_csr]
  exact irq_congr rfl rfl

/-- CTRL reads 0 only with both enables clear (R44). -/
theorem Ctrl.disabled_of_word_eq_zero {v : Ctrl} (h : v.word = 0) : v.ieDone = false ∧ v.ieErr = false := by
  have hbit := v.word_getLsbD
  rw [h] at hbit
  exact ⟨(hbit 0).symm, (hbit 1).symm⟩

/-- Settles O27: each access by its effect on STATUS and CTRL, of which IRQ is the level. -/
theorem irqIsALevelOfStatusAndCtrl : Obligations.IrqIsALevelOfStatusAndCtrl := by
  unfold Obligations.IrqIsALevelOfStatusAndCtrl
  intro s v
  have hstatus : s.busWrite (s.cfg.base + 0x010) 64 v = { s with status := s.status.writeOneToClear v } :=
    busWrite_csr s .status v
  have hctrl : s.busWrite (s.cfg.base + 0x008) 64 v = { s with ctrl := Ctrl.ofWord v } := busWrite_csr s .ctrl v
  rw [hstatus, hctrl, busWrite_cmd]
  refine ⟨s.irq_eq_true, irq_writeOneToClear, State.irq_eq_true _, fun hv => ?_, fun hready hbusy => ?_,
    irq_busRead_csr s .status, irq_busRead_csr s .err, rfl⟩
  · obtain ⟨hdone, herr⟩ := Ctrl.disabled_of_word_eq_zero ((Ctrl.word_ofWord v).trans hv)
    exact irq_of_disabled hdone herr
  · rw [issue_free ((Status.locked_eq_false _).mpr ⟨hbusy, hready⟩)]
    exact irq_accept s _

end Sys2Proof.Machine
end

section
/-! Reset (R340), the values it gives (R342), and those InitDone leaves after it (R341). -/

namespace Sys2Proof.Machine

/-- STATUS as a number, the bits by R45's weights. -/
theorem Status.word_toNat (v : Status) : v.word.toNat =
    bitAt v.busy 0 + bitAt v.done 1 + bitAt v.fail 2 + bitAt v.hzd 3 + bitAt v.accErr 4 + bitAt v.ready 5 := by
  obtain ⟨busy, done, fail, hzd, accErr, ready⟩ := v
  revert busy done fail hzd accErr ready
  decide

/-- STATUS after InitDone (R342): HZD and ACCERR as the host caused them in INIT, READY set. -/
theorem Status.word_toNat_initDone (hzd accErr : Bool) :
    (Status.word ⟨false, false, false, hzd, accErr, true⟩).toNat = 0x20 + bitAt hzd 3 + bitAt accErr 4 := by
  rw [Status.word_toNat]
  simp only [bitAt, Bool.false_eq_true, if_false, if_true]
  omega

/-- ERR after reset: no category, no cause, and the all-zero word. -/
theorem ErrReg.word_atReset : ErrReg.word ⟨.none, .none, 0⟩ = 0 := by decide

/-- Settles O14: the register files are those of `Files.atReset`, and InitDone writes the P it finds again; the control
and status registers are read off R342's values, IRQ off enables that are 0. -/
theorem resetValuesOfEveryPieceOfState : Obligations.ResetValuesOfEveryPieceOfState := by
  unfold Obligations.ResetValuesOfEveryPieceOfState
  intro c _ hn s
  have hid : s.cfg.idWord.toNat = 0x0000001010100100 + c.n := idWord_toNat hn
  have hF := Files.atReset_readF c
  have hK := Files.atReset_readK c
  refine ⟨?atReset, fun hzd accErr => ?afterInitDone⟩
  case atReset =>
    exact ⟨hF, Files.atReset_readP c, hK, hid, rfl, rfl, rfl, ErrReg.word_atReset, rfl, rfl, rfl,
      irq_of_disabled rfl rfl⟩
  case afterInitDone =>
    exact ⟨hF, initDone_readP _, hK, hid, rfl, Status.word_toNat_initDone hzd accErr, rfl, ErrReg.word_atReset,
      rfl, rfl, rfl, irq_of_disabled rfl rfl⟩

/-- When reset is the next input, the step is Reset (R340), on the state without that input. -/
theorem step_reset {s : State} {rest : List BusEvent} (hv : s.cfg.Valid) (hin : s.inbox = .reset :: rest) :
    step s = .next (State.assertReset { s with inbox := rest }) := by
  rw [step_valid hv, transition_input hin]
  rfl

/-- Settles O15: the step is Reset, whose result is R342's values and no function of what was in flight. -/
theorem resetAbandonsTheCommandInFlight : Obligations.ResetAbandonsTheCommandInFlight := by
  unfold Obligations.ResetAbandonsTheCommandInFlight
  intro s rest hv hin
  refine ⟨_, step_reset hv hin, State.assertReset_regs _, State.assertReset_ctrl _, State.assertReset_status _,
    State.assertReset_cmd _, State.assertReset_err _, State.assertReset_flags _, State.assertReset_cur _, ?init,
    irq_of_disabled rfl rfl, State.assertReset_cfg _, State.assertReset_inbox _⟩
  case init => simp [State.inInit]

end Sys2Proof.Machine
end
